-- ==== Sys2Proof/Word.lean ====
section
/-! DEFINITION. The word types of M2B25 and the fixed-size byte and word groups its commands and registers are made of
(spec/00_scope.md R7, R10, R12). -/

namespace Sys2Proof

/-- One byte of a port or of payload memory (R60). -/
abbrev Byte := BitVec 8

/-- A 16-bit field: ADDR, LEN, NUM, RC, SIZE, and a PID or PCR as a command carries it (R8, R65). -/
abbrev Half := BitVec 16

/-- A 32-bit word of the cipher (R7, R100). -/
abbrev Word := BitVec 32

/-- A 13-bit packet identifier (R7). -/
abbrev Pid := BitVec 13

/-- A 64-bit block: the pair `(L, R)` of words (R12, R102). -/
structure Block where
  L : Word
  R : Word
  deriving DecidableEq, Repr

/-- Eight words: a system key `SK[0..7]` or a work key `W[0..7]` (R21, R24). -/
structure Words8 where
  w0 : Word
  w1 : Word
  w2 : Word
  w3 : Word
  w4 : Word
  w5 : Word
  w6 : Word
  w7 : Word
  deriving DecidableEq, Repr

/-- Eight consecutive bytes, `b0` first in a command or at the lowest address (R64, R66). -/
structure Bytes8 where
  b0 : Byte
  b1 : Byte
  b2 : Byte
  b3 : Byte
  b4 : Byte
  b5 : Byte
  b6 : Byte
  b7 : Byte
  deriving DecidableEq, Repr

/-- The 16 bytes of a data key pair: the odd key first, then the even key (R88). -/
structure Bytes16 where
  odd : Bytes8
  even : Bytes8
  deriving DecidableEq, Repr

/-- The 32 bytes of a system key, in the order given (R88). -/
structure Bytes32 where
  q0 : Bytes8
  q1 : Bytes8
  q2 : Bytes8
  q3 : Bytes8
  deriving DecidableEq, Repr

/-- The zero block: the reset value of IV and of each data key (R48). -/
def Block.zero : Block := ⟨0, 0⟩

/-- Eight zero words: the reset value of SK and of each work key (R48). -/
def Words8.zero : Words8 := ⟨0, 0, 0, 0, 0, 0, 0, 0⟩

/-- Exclusive-or of two blocks, half by half (R11; the chaining of R132 and R134). -/
def Block.xor (x y : Block) : Block := ⟨x.L ^^^ y.L, x.R ^^^ y.R⟩

end Sys2Proof
end

