-- ==== Sys2Proof/Machine/Bytes.lean ====
section
/-! DEFINITION. Byte order: every multi-byte quantity is big-endian (spec/00_scope.md R12, spec/20_memory.md R64 to R66). -/

namespace Sys2Proof.Machine

/-- `be32(b0, b1, b2, b3)`: a word from four bytes, most significant first (R12). -/
def be32 (b0 b1 b2 b3 : Byte) : Word := b0 ++ b1 ++ b2 ++ b3

/-- Byte `i` of `bytes_be32(w)`: `w[31:24], w[23:16], w[15:8], w[7:0]` for `i` = 0, 1, 2, 3 (R12). -/
def byteOf (w : Word) (i : Nat) : Byte := w.extractLsb' (24 - 8 * i) 8

/-- `blk(b[0..7])` (R12). -/
def blk (b : Bytes8) : Block := ⟨be32 b.b0 b.b1 b.b2 b.b3, be32 b.b4 b.b5 b.b6 b.b7⟩

/-- `bytes_blk(L, R) = bytes_be32(L) ++ bytes_be32(R)` (R12). -/
def bytesBlk (x : Block) : Bytes8 :=
  ⟨byteOf x.L 0, byteOf x.L 1, byteOf x.L 2, byteOf x.L 3, byteOf x.R 0, byteOf x.R 1, byteOf x.R 2, byteOf x.R 3⟩

/-- The eight bytes as a string, first byte first. -/
def bytes8List (b : Bytes8) : List Byte := [b.b0, b.b1, b.b2, b.b3, b.b4, b.b5, b.b6, b.b7]

/-- The 16 bytes as a string (R88). -/
def bytes16List (b : Bytes16) : List Byte := bytes8List b.odd ++ bytes8List b.even

/-- The 32 bytes as a string (R88). -/
def bytes32List (b : Bytes32) : List Byte := bytes8List b.q0 ++ bytes8List b.q1 ++ bytes8List b.q2 ++ bytes8List b.q3

/-- The eight words of 32 bytes: `SK[i] = be32(key[4i..4i+3])` (R64, R120). -/
def words8Of (b : Bytes32) : Words8 :=
  ⟨(blk b.q0).L, (blk b.q0).R, (blk b.q1).L, (blk b.q1).R, (blk b.q2).L, (blk b.q2).R, (blk b.q3).L, (blk b.q3).R⟩

/-- A 16-bit field from its two bytes, high byte first (R65). -/
def be16 (hi lo : Byte) : Half := hi ++ lo

/-- The two bytes of a 16-bit field, high byte first (R65). -/
def bytesBe16 (h : Half) : List Byte := [h.extractLsb' 8 8, h.extractLsb' 0 8]

/-- A count in an 8-byte big-endian field; a larger count is reported as the field's largest value (R95, R182). -/
def bytesBe64 (n : Nat) : List Byte :=
  let v : BitVec 64 := BitVec.ofNat 64 (min n (2 ^ 64 - 1))
  [v.extractLsb' 56 8, v.extractLsb' 48 8, v.extractLsb' 40 8, v.extractLsb' 32 8,
   v.extractLsb' 24 8, v.extractLsb' 16 8, v.extractLsb' 8 8, v.extractLsb' 0 8]

/-- A count in a one-byte field; a larger count is reported as 255 (R95). -/
def countByte (n : Nat) : Byte := BitVec.ofNat 8 (min n 255)

end Sys2Proof.Machine
end

