-- ==== Sys2Proof/Syntax.lean ====
section
/-! DEFINITION. The command set of M2B25: one constructor per row of spec/opcode_table.json (spec/30_encoding.md R84),
with the operands of the row in their order, as the raw fields the formats of R81 carry. -/

namespace Sys2Proof

/-- The 22 commands (R84). An operand is the field as it stands in the command; which of its values are legal is
R85 to R91 (`Sys2Proof.wellFormed`). -/
inductive Instr where
  /-- SET_SYSTEM_KEY CTX, IMM[32] (R120). -/
  | setSystemKey (ctx : Byte) (imm : Bytes32)
  /-- SET_INIT_VECTOR CTX, IMM[8] (R121). -/
  | setInitVector (ctx : Byte) (imm : Bytes8)
  /-- SET_DATA_KEY CTX, IMM[16] (R122). -/
  | setDataKey (ctx : Byte) (imm : Bytes16)
  /-- CLEAR_DATA_KEY CTX (R123). -/
  | clearDataKey (ctx : Byte)
  /-- SET_ROUND CTX, N (R124). -/
  | setRound (ctx n : Byte)
  /-- ENCRYPT.T CTX, ADDR, LEN (R132). -/
  | encrypt (t : BitVec 2) (ctx : Byte) (addr len : Half)
  /-- DECRYPT.T CTX, ADDR, LEN (R134). -/
  | decrypt (t : BitVec 2) (ctx : Byte) (addr len : Half)
  /-- DMX_RESET (R159). -/
  | dmxReset
  /-- DMX_CONFIG FLAGS, N (R158). -/
  | dmxConfig (flags n : Byte)
  /-- DMX_UNIT SIZE (R157). -/
  | dmxUnit (size : Half)
  /-- DMX_PACKET ADDR (R145). -/
  | dmxPacket (addr : Half)
  /-- PAT_BEGIN (R165). -/
  | patBegin
  /-- PROG_ADD NUM, PID (R166). -/
  | progAdd (num pid : Half)
  /-- ROLE_SET PID, ROLE (R167). -/
  | roleSet (pid : Half) (role : Byte)
  /-- PMT_BEGIN P, PCR (R169). -/
  | pmtBegin (p : Byte) (pcr : Half)
  /-- DEC_OPEN PID (R170). -/
  | decOpen (pid : Half)
  /-- STRM_BIND P, PID, TYPE, D (R171). -/
  | strmBind (p : Byte) (pid : Half) (type d : Byte)
  /-- PMT_END P (R177). -/
  | pmtEnd (p : Byte)
  /-- ECM_BEGIN D (R178). -/
  | ecmBegin (d : Byte)
  /-- ECM_DONE D, FAIL, RC, KEY[16] (R179). -/
  | ecmDone (d fail : Byte) (rc : Half) (key : Bytes16)
  /-- EMM_OK (R181). -/
  | emmOk
  /-- DMX_QUERY P (R182). -/
  | dmxQuery (p : Byte)
  deriving DecidableEq, Repr

end Sys2Proof
end

