-- ==== Sys2Proof/Decode.lean ====
section
/-! DEFINITION. The command decoder and, after it, the encoder (spec/30_encoding.md R80 to R85, R92). The decoder reads the
byte stream of the command port: the opcode byte selects a row of R84, the row fixes the command's length. -/

namespace Sys2Proof

open Sys2Proof.Machine

/-- A row of R84, named by its command. -/
inductive Mnemonic where
  | setSystemKey | setInitVector | setDataKey | clearDataKey | setRound | encrypt | decrypt
  | dmxReset | dmxConfig | dmxUnit | dmxPacket | patBegin | progAdd | roleSet | pmtBegin | decOpen
  | strmBind | pmtEnd | ecmBegin | ecmDone | emmOk | dmxQuery
  deriving DecidableEq, Repr

/-- A row of R84: an opcode byte `b` selects it when `b & mask = pattern` (the table's column "match"); `length` counts
the whole command in bytes. -/
structure OpcodeRow where
  mnemonic : Mnemonic
  pattern : Byte
  mask : Byte
  length : Nat
  deriving DecidableEq, Repr

/-- The table of R84, row by row. -/
def opcodeTable : List OpcodeRow := [
  ⟨.setSystemKey, 0x01, 0xFF, 34⟩,
  ⟨.setInitVector, 0x02, 0xFF, 10⟩,
  ⟨.setDataKey, 0x03, 0xFF, 18⟩,
  ⟨.clearDataKey, 0x04, 0xFF, 2⟩,
  ⟨.setRound, 0x05, 0xFF, 3⟩,
  ⟨.encrypt, 0x10, 0xFC, 6⟩,
  ⟨.decrypt, 0x14, 0xFC, 6⟩,
  ⟨.dmxReset, 0x20, 0xFF, 1⟩,
  ⟨.dmxConfig, 0x21, 0xFF, 3⟩,
  ⟨.dmxUnit, 0x22, 0xFF, 3⟩,
  ⟨.dmxPacket, 0x23, 0xFF, 3⟩,
  ⟨.patBegin, 0x24, 0xFF, 1⟩,
  ⟨.progAdd, 0x25, 0xFF, 5⟩,
  ⟨.roleSet, 0x26, 0xFF, 4⟩,
  ⟨.pmtBegin, 0x27, 0xFF, 4⟩,
  ⟨.decOpen, 0x28, 0xFF, 3⟩,
  ⟨.strmBind, 0x29, 0xFF, 6⟩,
  ⟨.pmtEnd, 0x2A, 0xFF, 2⟩,
  ⟨.ecmBegin, 0x2B, 0xFF, 2⟩,
  ⟨.ecmDone, 0x2C, 0xFF, 21⟩,
  ⟨.emmOk, 0x2D, 0xFF, 1⟩,
  ⟨.dmxQuery, 0x2E, 0xFF, 2⟩]

/-- The row an opcode byte selects; none for a reserved opcode byte (R84, R92). -/
def opcodeRow (b : Byte) : Option OpcodeRow := opcodeTable.find? fun r => b &&& r.mask == r.pattern

/-- The length in bytes of the command an opcode byte begins; 1 for a reserved one (R83). -/
def commandLength (b : Byte) : Nat :=
  match opcodeRow b with
  | some r => r.length
  | none => 1

/-- What the decoder finds at the front of the command stream. -/
inductive Decoded where
  /-- A whole command, and the bytes after it. -/
  | command (i : Instr) (rest : List Byte)
  /-- REJECTED, reserved opcode: it is consumed alone (R92). -/
  | reserved (b : Byte) (rest : List Byte)
  /-- REJECTED, incomplete: fewer bytes than the command's length, so it is not taken (R83). -/
  | incomplete
  deriving DecidableEq, Repr

/-- Eight bytes off the front of the stream. -/
def take8 : List Byte → Option (Bytes8 × List Byte)
  | b0 :: b1 :: b2 :: b3 :: b4 :: b5 :: b6 :: b7 :: rest => some (⟨b0, b1, b2, b3, b4, b5, b6, b7⟩, rest)
  | _ => none

/-- Sixteen bytes off the front of the stream (IMM of SET_DATA_KEY, KEY of ECM_DONE; R88). -/
def take16 (bs : List Byte) : Option (Bytes16 × List Byte) :=
  match take8 bs with
  | some (x, bs1) =>
    match take8 bs1 with
    | some (y, rest) => some (⟨x, y⟩, rest)
    | none => none
  | none => none

/-- Thirty-two bytes off the front of the stream (IMM of SET_SYSTEM_KEY; R88). -/
def take32 (bs : List Byte) : Option (Bytes32 × List Byte) :=
  match take16 bs with
  | some (x, bs1) =>
    match take16 bs1 with
    | some (y, rest) => some (⟨x.odd, x.even, y.odd, y.even⟩, rest)
    | none => none
  | none => none

/-- The operands of the row `m` from the bytes after the opcode byte `b`, by the format of the row (R81); none when bytes
are missing. `T` is bits 1:0 of the opcode byte (R85). -/
def decodeOperands (m : Mnemonic) (b : Byte) (bs : List Byte) : Option (Instr × List Byte) :=
  match m with
  | .setSystemKey =>
    match bs with
    | c :: r => (take32 r).map fun x => (.setSystemKey c x.1, x.2)
    | _ => none
  | .setInitVector =>
    match bs with
    | c :: r => (take8 r).map fun x => (.setInitVector c x.1, x.2)
    | _ => none
  | .setDataKey =>
    match bs with
    | c :: r => (take16 r).map fun x => (.setDataKey c x.1, x.2)
    | _ => none
  | .clearDataKey =>
    match bs with
    | c :: r => some (.clearDataKey c, r)
    | _ => none
  | .setRound =>
    match bs with
    | c :: n :: r => some (.setRound c n, r)
    | _ => none
  | .encrypt =>
    match bs with
    | c :: a1 :: a0 :: l1 :: l0 :: r => some (.encrypt (b.extractLsb' 0 2) c (be16 a1 a0) (be16 l1 l0), r)
    | _ => none
  | .decrypt =>
    match bs with
    | c :: a1 :: a0 :: l1 :: l0 :: r => some (.decrypt (b.extractLsb' 0 2) c (be16 a1 a0) (be16 l1 l0), r)
    | _ => none
  | .dmxReset => some (.dmxReset, bs)
  | .dmxConfig =>
    match bs with
    | f :: n :: r => some (.dmxConfig f n, r)
    | _ => none
  | .dmxUnit =>
    match bs with
    | h :: l :: r => some (.dmxUnit (be16 h l), r)
    | _ => none
  | .dmxPacket =>
    match bs with
    | h :: l :: r => some (.dmxPacket (be16 h l), r)
    | _ => none
  | .patBegin => some (.patBegin, bs)
  | .progAdd =>
    match bs with
    | n1 :: n0 :: p1 :: p0 :: r => some (.progAdd (be16 n1 n0) (be16 p1 p0), r)
    | _ => none
  | .roleSet =>
    match bs with
    | p1 :: p0 :: x :: r => some (.roleSet (be16 p1 p0) x, r)
    | _ => none
  | .pmtBegin =>
    match bs with
    | p :: c1 :: c0 :: r => some (.pmtBegin p (be16 c1 c0), r)
    | _ => none
  | .decOpen =>
    match bs with
    | h :: l :: r => some (.decOpen (be16 h l), r)
    | _ => none
  | .strmBind =>
    match bs with
    | p :: q1 :: q0 :: t :: d :: r => some (.strmBind p (be16 q1 q0) t d, r)
    | _ => none
  | .pmtEnd =>
    match bs with
    | p :: r => some (.pmtEnd p, r)
    | _ => none
  | .ecmBegin =>
    match bs with
    | d :: r => some (.ecmBegin d, r)
    | _ => none
  | .ecmDone =>
    match bs with
    | d :: f :: r1 :: r0 :: r => (take16 r).map fun x => (.ecmDone d f (be16 r1 r0) x.1, x.2)
    | _ => none
  | .emmOk => some (.emmOk, bs)
  | .dmxQuery =>
    match bs with
    | p :: r => some (.dmxQuery p, r)
    | _ => none

/-- The decoder, total on any byte stream: the opcode byte is checked first, then the operand bytes are taken when all of
them have arrived (R63, R83, R94). -/
def decode (bs : List Byte) : Decoded :=
  match bs with
  | [] => .incomplete
  | b :: r =>
    match opcodeRow b with
    | none => .reserved b r
    | some row =>
      match decodeOperands row.mnemonic b r with
      | some (i, rest) => .command i rest
      | none => .incomplete

/-- The bytes of a command, written from the formats of R81 and the opcode bytes of R84. -/
def encode (i : Instr) : List Byte :=
  match i with
  | .setSystemKey c k => 0x01 :: c :: bytes32List k
  | .setInitVector c v => 0x02 :: c :: bytes8List v
  | .setDataKey c k => 0x03 :: c :: bytes16List k
  | .clearDataKey c => [0x04, c]
  | .setRound c n => [0x05, c, n]
  | .encrypt t c a n => (0x10 ||| t.zeroExtend 8) :: c :: (bytesBe16 a ++ bytesBe16 n)
  | .decrypt t c a n => (0x14 ||| t.zeroExtend 8) :: c :: (bytesBe16 a ++ bytesBe16 n)
  | .dmxReset => [0x20]
  | .dmxConfig f n => [0x21, f, n]
  | .dmxUnit z => 0x22 :: bytesBe16 z
  | .dmxPacket a => 0x23 :: bytesBe16 a
  | .patBegin => [0x24]
  | .progAdd n p => 0x25 :: (bytesBe16 n ++ bytesBe16 p)
  | .roleSet p x => 0x26 :: (bytesBe16 p ++ [x])
  | .pmtBegin p c => 0x27 :: p :: bytesBe16 c
  | .decOpen p => 0x28 :: bytesBe16 p
  | .strmBind p q t d => 0x29 :: p :: (bytesBe16 q ++ [t, d])
  | .pmtEnd p => [0x2A, p]
  | .ecmBegin d => [0x2B, d]
  | .ecmDone d f r k => 0x2C :: d :: f :: (bytesBe16 r ++ bytes16List k)
  | .emmOk => [0x2D]
  | .dmxQuery p => [0x2E, p]

/-- The first `count` bytes of the number `w`, its least significant byte first: the layout of the host's opcode-table
numbering. -/
def tableBytes : Nat → Nat → List Byte
  | 0, _ => []
  | count + 1, w => BitVec.ofNat 8 w :: tableBytes count (w / 256)

/-- The command bytes of an opcode-table word: the bits above `nbits` are 0, and the command is as long as its opcode byte
says (R83). -/
def tableCommand (nbits w : Nat) : List Byte :=
  let v := w % 2 ^ nbits
  (tableBytes 34 v).take (commandLength (BitVec.ofNat 8 v))

/-- The command the decoder reads from an opcode-table word; none where it rejects. -/
def decodeTableWord (nbits w : Nat) : Option Instr :=
  match decode (tableCommand nbits w) with
  | .command i _ => some i
  | .reserved _ _ => none
  | .incomplete => none

end Sys2Proof
end

