-- ==== Sys2Proof/Machine/Cipher.lean ====
section
/-! DEFINITION. Unit CC, the cipher core: the four round functions, the key schedule and block encryption and decryption
(spec/40_cipher_core.md R100 to R114). Pure functions of words; no state is read or written. -/

namespace Sys2Proof.Machine

/-- `rol32(x, n) = ((x << n) | (x >> (32 - n))) mod 2^32`, used with `n` from 1 to 16 only (R11, R101). -/
def rol32 (x : Word) (n : Nat) : Word := (x <<< n) ||| (x >>> (32 - n))

/-- π1: the left half is folded into the right (R103). -/
def pi1 (b : Block) : Block := ⟨b.L, b.R ^^^ b.L⟩

/-- The word π2 puts on the left half (R104). -/
def pi2Word (r k : Word) : Word :=
  let t0 := r + k
  let t1 := rol32 t0 1 + t0 - 1
  rol32 t1 4 ^^^ t1

/-- π2 (R104). -/
def pi2 (b : Block) (k : Word) : Block := ⟨b.L ^^^ pi2Word b.R k, b.R⟩

/-- The word π3 puts on the right half; the OR takes the input `L` (R105). -/
def pi3Word (l k2 k3 : Word) : Word :=
  let t0 := l + k2
  let t1 := rol32 t0 2 + t0 + 1
  let t2 := rol32 t1 8 ^^^ t1
  let t3 := t2 + k3
  let t4 := rol32 t3 1 - t3
  rol32 t4 16 ^^^ (t4 ||| l)

/-- π3 (R105). -/
def pi3 (b : Block) (k2 k3 : Word) : Block := ⟨b.L, b.R ^^^ pi3Word b.L k2 k3⟩

/-- The word π4 puts on the left half (R106). -/
def pi4Word (r k : Word) : Word :=
  let t0 := r + k
  rol32 t0 2 + t0 + 1

/-- π4 (R106). -/
def pi4 (b : Block) (k : Word) : Block := ⟨b.L ^^^ pi4Word b.R k, b.R⟩

/-- The key schedule: the work key of the data key `d` under the system key `s` (R108). Nine round functions; the output
of the first is not kept, of every other the half it changed is. -/
def schedule (s : Words8) (d : Block) : Words8 :=
  let b1 := pi1 d
  let b2 := pi2 b1 s.w0
  let b3 := pi3 b2 s.w1 s.w2
  let b4 := pi4 b3 s.w3
  let b5 := pi1 b4
  let b6 := pi2 b5 s.w4
  let b7 := pi3 b6 s.w5 s.w6
  let b8 := pi4 b7 s.w7
  let b9 := pi1 b8
  ⟨b2.L, b3.R, b4.L, b5.R, b6.L, b7.R, b8.L, b9.R⟩

/-- One iteration of block encryption: π1, π2, π3, π4 with `W[0..3]`, then with `W[4..7]` (R110). -/
def encRound (w : Words8) (b : Block) : Block :=
  let h := pi4 (pi3 (pi2 (pi1 b) w.w0) w.w1 w.w2) w.w3
  pi4 (pi3 (pi2 (pi1 h) w.w4) w.w5 w.w6) w.w7

/-- One iteration of block decryption: π4, π3, π2, π1 with `W[7..4]`, then with `W[3..0]` (R111). -/
def decRound (w : Words8) (b : Block) : Block :=
  let h := pi1 (pi2 (pi3 (pi4 b w.w7) w.w5 w.w6) w.w4)
  pi1 (pi2 (pi3 (pi4 h w.w3) w.w1 w.w2) w.w0)

/-- `enc_block(B, W, n)`: `n` iterations (R110). -/
def encBlock (b : Block) (w : Words8) : Nat → Block
  | 0 => b
  | n + 1 => encRound w (encBlock b w n)

/-- `dec_block(B, W, n)`: `n` iterations (R111). -/
def decBlock (b : Block) (w : Words8) : Nat → Block
  | 0 => b
  | n + 1 => decRound w (decBlock b w n)

end Sys2Proof.Machine
end

