-- ==== Sys2Proof/Config.lean ====
section
/-! DEFINITION. What the spec leaves to an implementation: the OPEN parameters of spec/00_scope.md R9, and the free values
(opaque constants, of which nothing can be proved) that stand where the spec states no value. -/

namespace Sys2Proof.Config

/-- `RESERVED_T_POLICY` (R9, R93): what ENCRYPT and DECRYPT do for `T` in {0, 1}. -/
inductive ReservedTPolicy where
  /-- The command ends with `InvalidParameter` (the default). -/
  | fault
  /-- The command runs with `WK[0]`. -/
  | index0
  deriving DecidableEq, Repr

/-- The OPEN parameters of R9, "which the model takes as arguments". A machine carries its own in `State.par`; no step
changes them. -/
structure Params where
  /-- `N_CTX`: cipher-engine contexts, and decryptor slots. -/
  nCtx : Nat
  /-- `N_PROG`: program slots. -/
  nProg : Nat
  /-- `N_STRM`: maximum length of one program's stream list. -/
  nStrm : Nat
  /-- `PMEM_SIZE`: bytes of payload memory. -/
  pmemSize : Nat
  /-- `BUDGET_PAT` in bytes. -/
  budgetPat : Nat
  /-- `BUDGET_PMT` in bytes. -/
  budgetPmt : Nat
  /-- `BUDGET_ECM` in bytes. -/
  budgetEcm : Nat
  /-- `PURCHASED_SET`: the oracle return codes that mean purchased. -/
  purchasedSet : List Half
  /-- `RESERVED_T_POLICY`. -/
  reservedT : ReservedTPolicy
  /-- `NULL_PID`: the PID of null packets. -/
  nullPid : Pid
  deriving DecidableEq, Repr

/-- The default of every parameter (R9, column "default for the test vectors"); see assumption 2. -/
def defaults : Params where
  nCtx := 4
  nProg := 8
  nStrm := 32
  pmemSize := 65536
  budgetPat := 16777216
  budgetPmt := 33554432
  budgetEcm := 33554432
  purchasedSet := [0x0800, 0x0400, 0x0200]
  reservedT := .fault
  nullPid := 0x1FFF

/-- The constraints R9 puts on the parameters. -/
abbrev Params.Legal (p : Params) : Prop :=
  1 ≤ p.nCtx ∧ 1 ≤ p.nProg ∧ 1 ≤ p.nStrm ∧ 188 ≤ p.pmemSize ∧ p.pmemSize ≤ 65536 ∧
    0 < p.budgetPat ∧ 0 < p.budgetPmt ∧ 0 < p.budgetEcm

/-- FREE VALUE (assumption 4, DESIGN CHOICE): the byte of payload memory at an address that nothing has written since hardware reset
number `epoch` ("its content after reset is unspecified", R52, R62; entry U3 of spec/93: any value). -/
opaque pmemPowerUp (epoch addr : Nat) : Byte

/-- FREE VALUE (assumption 6, DESIGN CHOICE): the PADDR field when `a + off` is 65536 or more and so does not fit its 16 bits (R146
states no value there). -/
opaque paddrOverflow (paddr : Nat) : Half

/-- FREE VALUE (assumption 7, DESIGN CHOICE): the one-byte field that names a slot whose index is 256 or more (R95 and R146 give the
field one byte and state no value there). -/
opaque slotOverflow (index : Nat) : Byte

end Sys2Proof.Config
end

