-- ==== Sys2Proof/Machine/Fields.lean ====
section
/-! DEFINITION. The operand fields of a command: what each field rule of spec/30_encoding.md (R85 to R91) allows, and the
value a legal field stands for. These checks read the parameters and never a register. -/

namespace Sys2Proof.Machine

open Sys2Proof.Config

/-- R85, R93: `T` is 2 or 3; 0 and 1 are legal only under `RESERVED_T_POLICY = index0`. -/
def tOk (p : Params) (t : BitVec 2) : Bool := t == 2 || t == 3 || p.reservedT == .index0

/-- R86: `CTX < N_CTX`. -/
def ctxOk (p : Params) (ctx : Nat) : Bool := decide (ctx < p.nCtx)

/-- R87, R72: `LEN >= 1` and `ADDR + LEN <= PMEM_SIZE`, the sum taken in the naturals. -/
def rangeOk (p : Params) (addr len : Nat) : Bool := decide (1 ≤ len ∧ addr + len ≤ p.pmemSize)

/-- R87, R72: `ADDR + 188 <= PMEM_SIZE`. -/
def packetOk (p : Params) (addr : Nat) : Bool := decide (addr + 188 ≤ p.pmemSize)

/-- R89: bits 15:13 of a PID or PCR field must be 0. -/
def pidOk (x : Half) : Bool := x.extractLsb' 13 3 == 0

/-- R89: the packet identifier in bits 12:0. -/
def pidOf (x : Half) : Pid := x.extractLsb' 0 13

/-- R89: a unit size is at least 188. -/
def sizeOk (size : Half) : Bool := decide (188 ≤ size.toNat)

/-- R91: a round count is 1 to 255. -/
def roundOk (n : Byte) : Bool := n != 0

/-- R91: FLAGS bits 7:2 must be 0. -/
def flagsOk (flags : Byte) : Bool := flags.extractLsb' 2 6 == 0

/-- R91: ROLE of ROLE_SET is 3 (CAT) or 4 (EMM). -/
def roleOk (role : Byte) : Bool := role == 3 || role == 4

/-- R91: FAIL of ECM_DONE is 0 or 1. -/
def failOk (fail : Byte) : Bool := fail == 0 || fail == 1

/-- R90, the part that reads no register: P of PMT_BEGIN, STRM_BIND and PMT_END is below `N_PROG`. -/
def progFieldOk (p : Params) (slot : Byte) : Bool := decide (slot.toNat < p.nProg)

/-- R90, the part that reads no register: P of DMX_QUERY is below `N_PROG` or is 0xFF. -/
def queryFieldOk (p : Params) (slot : Byte) : Bool := slot == 0xFF || progFieldOk p slot

/-- R90, the part that reads no register: D of ECM_BEGIN and ECM_DONE is below `N_CTX`. -/
def decFieldOk (p : Params) (d : Byte) : Bool := decide (d.toNat < p.nCtx)

/-- R90, the part that reads no register: D of STRM_BIND is below `N_CTX`, or 0xFF (NONE), or 0xFE (SOLE). -/
def selFieldOk (p : Params) (d : Byte) : Bool := decFieldOk p d || d == 0xFF || d == 0xFE

end Sys2Proof.Machine
end

