-- ==== Sys2Proof/Machine/Table.lean ====
section
/-! DEFINITION. Sparse tables: a list of (index, value) pairs in ONE canonical form, for payload memory and for the arrays
`CE`, `MAP`, `PROG` and `DEC` of spec/10_state.md. An index that is not listed holds the table's default. -/

namespace Sys2Proof.Machine

/-- A sparse table: index and value, indices strictly rising. -/
abbrev Table (α : Type) := List (Nat × α)

/-- The indices rise strictly (so that no index is listed twice). -/
abbrev Table.Rising {α : Type} (t : Table α) : Prop := (t.map Prod.fst).Pairwise (· < ·)

/-- Every listed index is below `n`. -/
abbrev Table.Below {α : Type} (n : Nat) (t : Table α) : Prop := ∀ e ∈ t, e.1 < n

/-- No listed value is the default `d`. -/
abbrev Table.NoDefault {α : Type} (d : α) (t : Table α) : Prop := ∀ e ∈ t, e.2 ≠ d

/-- What is listed at index `k`. -/
def Table.find {α : Type} (t : Table α) (k : Nat) : Option α :=
  match t with
  | [] => none
  | (j, v) :: rest => if j = k then some v else Table.find rest k

/-- The value at index `k`: what is listed there, else the default. -/
def Table.get {α : Type} (d : α) (t : Table α) (k : Nat) : α := (Table.find t k).getD d

/-- The table without an entry at index `k`. -/
def Table.erase {α : Type} (t : Table α) (k : Nat) : Table α := t.filter fun e => e.1 != k

/-- An entry put at its place among rising indices. -/
def Table.insert {α : Type} (t : Table α) (k : Nat) (v : α) : Table α :=
  match t with
  | [] => [(k, v)]
  | e :: rest => if k < e.1 then (k, v) :: e :: rest else e :: Table.insert rest k v

/-- The table with `v` listed at index `k` and nothing else changed. -/
def Table.put {α : Type} (t : Table α) (k : Nat) (v : α) : Table α := Table.insert (Table.erase t k) k v

/-- The table with the value `v` at index `k`; the default value is not listed. -/
def Table.set {α : Type} [DecidableEq α] (d : α) (t : Table α) (k : Nat) (v : α) : Table α :=
  if v = d then Table.erase t k else Table.put t k v

/-- Every listed value changed by `f`; a value that becomes the default is not listed. -/
def Table.mapAll {α : Type} [DecidableEq α] (d : α) (f : Nat → α → α) (t : Table α) : Table α :=
  t.filterMap fun e => if f e.1 e.2 = d then none else some (e.1, f e.1 e.2)

end Sys2Proof.Machine
end

