-- ==== Sys2Proof/Machine/State.lean ====
section
/-! DEFINITION. The state of M2B25 (spec/10_state.md, spec/20_memory.md R60) as plain data, its reset value (R48 to R52,
R221), and the reasons for which a step can stop. -/

namespace Sys2Proof.Machine

open Sys2Proof.Config

/-- `ST`: one flag per prerequisite of encrypt and decrypt (R29). -/
structure Flags where
  /-- `ST.IV` (bit 0): an initialisation vector has been loaded. -/
  iv : Bool
  /-- `ST.SK` (bit 1): a system key has been loaded. -/
  sk : Bool
  /-- `ST.DK` (bit 2): data keys and work keys are valid. -/
  dk : Bool
  deriving DecidableEq, Repr

/-- A cipher-engine context `CE[c]` (R20 to R25, R29, R31). -/
structure Context where
  /-- `SK[0..7]`, the system key (R21). -/
  sk : Words8
  /-- `IV.L`, `IV.R`, the initialisation vector (R22). -/
  iv : Block
  /-- `DK[0]`, the odd data key, for scrambling control 3 (R23, R25). -/
  dk0 : Block
  /-- `DK[1]`, the even data key, for scrambling control 2 (R23, R25). -/
  dk1 : Block
  /-- `WK[0][0..7]`, the odd work key (R24). -/
  wk0 : Words8
  /-- `WK[1][0..7]`, the even work key (R24). -/
  wk1 : Words8
  /-- `ST` (R29). -/
  st : Flags
  /-- `ROUND`, 1 to 255 (R31). -/
  round : Byte
  deriving DecidableEq, Repr

/-- A context after reset (R48). -/
def Context.reset : Context where
  sk := .zero
  iv := .zero
  dk0 := .zero
  dk1 := .zero
  wk0 := .zero
  wk1 := .zero
  st := ⟨false, false, false⟩
  round := 4

/-- `PIPE.PHASE`, the acquisition phase of the pipeline (R33; the codes 0 to 4 in this order). -/
inductive Phase where
  /-- 0 UNIT: unit-size detection. -/
  | unit
  /-- 1 PAT acquisition. -/
  | pat
  /-- 2 PMT acquisition. -/
  | pmt
  /-- 3 ECM acquisition. -/
  | ecm
  /-- 4 STEADY: steady state. -/
  | steady
  deriving DecidableEq, Repr

/-- `PIPE.CFG` (R32). -/
structure PipeConfig where
  /-- `CFG.STRIP_NULL`. -/
  stripNull : Bool
  /-- `CFG.EMM_EN`. -/
  emmEn : Bool
  /-- `CFG.ROUND`, 1 to 255. -/
  round : Byte
  deriving DecidableEq, Repr

/-- The pipeline registers `PIPE` (R32 to R35). -/
structure Pipe where
  /-- `PIPE.PHASE` (R33). -/
  phase : Phase
  /-- `PIPE.BUDGET`, a natural number (R34). -/
  budget : Nat
  /-- `PIPE.UNIT`, the unit size in bytes (R35). -/
  unit : Half
  /-- `PIPE.CFG` (R32). -/
  cfg : PipeConfig
  deriving DecidableEq, Repr

/-- The pipeline registers after reset (R49). -/
def Pipe.reset : Pipe where
  phase := .unit
  budget := 0
  unit := 0
  cfg := ⟨false, false, 4⟩

/-- `MAP[p].ROLE` (R37; the tags 0 to 6 in this order). -/
inductive Role where
  | unknown
  | pat
  | pmt
  | cat
  | emm
  | ecm
  /-- OTHER: an elementary stream. -/
  | other
  deriving DecidableEq, Repr

/-- `MAP[p].LINK` (R39): a borrowed link, an index and never an owner. -/
inductive Link where
  | none
  /-- `PROG i`. -/
  | prog (i : Nat)
  /-- `DEC d`. -/
  | dec (d : Nat)
  deriving DecidableEq, Repr

/-- An entry `MAP[p]` of the PID role table (R36). -/
structure MapEntry where
  role : Role
  /-- `REF`, the reference count. -/
  ref : Nat
  /-- `NORMAL`, the normal-packet count. -/
  normal : Nat
  /-- `UNDEC`, the undecrypted-packet count. -/
  undec : Nat
  link : Link
  deriving DecidableEq, Repr

/-- An entry that no owner uses and nothing has been counted in (R50). -/
def MapEntry.reset : MapEntry := ⟨.unknown, 0, 0, 0, .none⟩

/-- `MAP[0]` after reset: the PAT (R50). -/
def MapEntry.pat : MapEntry := ⟨.pat, 1, 0, 0, .none⟩

/-- The acquisition-phase counter of a program or a decryptor: 0, 1, 2 in this order (R42, R43). -/
inductive Settle where
  /-- 0: not yet parsed. -/
  | notParsed
  /-- 1: parsed once. -/
  | parsedOnce
  /-- 2: confirmed stable. -/
  | stable
  deriving DecidableEq, Repr

/-- A stream-list element (R41). `type` is stored and never interpreted. -/
structure StreamElem where
  pid : Pid
  type : Byte
  deriving DecidableEq, Repr

/-- A program slot `PROG[i]` (R40). -/
structure ProgSlot where
  valid : Bool
  num : Half
  pmtPid : Pid
  pcrPid : Pid
  phase : Settle
  /-- `STREAMS`, the current list. -/
  streams : List StreamElem
  /-- `OLD`, the previous list, during a PMT update. -/
  old : List StreamElem
  deriving DecidableEq, Repr

/-- A program slot after reset (R51). -/
def ProgSlot.reset : ProgSlot := ⟨false, 0, 0, 0, .notParsed, [], []⟩

/-- A decryptor slot `DEC[d]` (R43). -/
structure DecSlot where
  valid : Bool
  ecmPid : Pid
  /-- `REF`, the number of PIDs bound to the decryptor. -/
  ref : Nat
  locked : Bool
  unpurchased : Nat
  lastErr : Half
  phase : Settle
  deriving DecidableEq, Repr

/-- A decryptor slot after reset (R51). -/
def DecSlot.reset : DecSlot := ⟨false, 0, 0, false, 0, 0, .notParsed⟩

/-- Payload memory as the bytes that have been written, in one canonical form: addresses strictly rising. An address that
is not listed has not been written since hardware reset and reads as a free value (assumption 4, DESIGN CHOICE). -/
abbrev Memory := List Host.Cell

/-- The canonical form of payload memory. -/
abbrev Memory.wf (m : Memory) : Prop := Table.Rising m

/-- The state of the machine. -/
structure State where
  /-- The OPEN parameters of R9; fixed for the machine. -/
  par : Params
  /-- The contexts `CE[0 .. N_CTX-1]` (R20); one not listed is in its reset state. -/
  ce : Table Context
  /-- The pipeline registers (R32 to R35). -/
  pipe : Pipe
  /-- The PID role table `MAP[0..8191]` (R36); an entry not listed is `MapEntry.reset`. -/
  map : Table MapEntry
  /-- The program registry `PROG[0 .. N_PROG-1]` (R40); a slot not listed is invalid. -/
  prog : Table ProgSlot
  /-- The decryptor registry `DEC[0 .. N_CTX-1]` (R43); a slot not listed is invalid. -/
  dec : Table DecSlot
  /-- The payload memory PMEM (R60, R71). -/
  pmem : Memory
  /-- The command port CMD: the bytes the host has written and the block has not taken (R60, R63). -/
  cmd : List Byte
  /-- The response port RSP: the bytes the block has written and the host has not read (R60, R82). -/
  rsp : List Byte
  /-- THE MODEL'S OWN, not the spec's: which hardware reset the unwritten bytes of PMEM date from (assumption 4, DESIGN CHOICE). -/
  epoch : Nat
  deriving DecidableEq, Repr

/-- The PID role table after reset: `MAP[0]` is the PAT, every other entry is unknown (R50). -/
def mapReset : Table MapEntry := [(0, .pat)]

/-- The machine with the parameters `p` right after hardware reset number `epoch` (R48 to R52, R221). -/
def State.resetWith (p : Params) (epoch : Nat) : State where
  par := p
  ce := []
  pipe := .reset
  map := mapReset
  prog := []
  dec := []
  pmem := []
  cmd := []
  rsp := []
  epoch := epoch

/-- The machine right after reset, with the default parameters (R9). -/
def State.reset : State := State.resetWith defaults 0

/-- Why the machine stops with a fault. No command does: every command answers with a status (R190, R191). -/
inductive Fault where
  /-- Raised by `hostWrite` and `hostRead` alone, when the host names an address at or above `PMEM_SIZE` (R60, R71: no such
  address exists). Safe: the model goes no further where the spec describes nothing. -/
  | noSuchAddress (addr : Nat)
  deriving DecidableEq, Repr

/-- Why a command, or an event from outside, has no step in the model. -/
inductive Refusal where
  /-- Raised by `exec` for a command that has no meaning yet; no arm does so now. Safe: nothing is claimed of it. -/
  | notModelled (mnemonic : String)
  /-- Raised by `hostSend`, `hostSendByte`, `hostWrite` and `hostRead` alone, and by no command: the host acts while a command is
  in flight (R74; entry U4 of spec/93: `refuse`). Safe: the model has no such step, as the spec asks. -/
  | commandInFlight
  deriving DecidableEq, Repr

end Sys2Proof.Machine
end

