-- ==== Sys2Proof/Machine/Codes.lean ====
section
/-! DEFINITION. The numeric codes of status, phase, role, link, verdict and route (spec/60_exceptions.md R190, spec/10_state.md
R33 and R37, spec/43_demux_packet.md R146). -/

namespace Sys2Proof.Machine

open Sys2Proof.Config

/-- The status codes of R190. The three host-side ones are never returned (R202). -/
inductive Status where
  | ok
  | invalidParameter
  | unsetInitVector
  | unsetSystemKey
  | unsetDataKey
  | illegalCommand
  | badSequence
  /-- Host-side. -/
  | notATransportStream
  | noPatFound
  | noPmtFound
  | noEcmFound
  | outOfResources
  | decryptFailure
  /-- Host-side. -/
  | emptyCardHandle
  | ecmProcFailure
  /-- Host-side. -/
  | invalidPid
  deriving DecidableEq, Repr

/-- The STATUS byte (R190). -/
def statusCode : Status → Byte
  | .ok => 0x00
  | .invalidParameter => 0x01
  | .unsetInitVector => 0x02
  | .unsetSystemKey => 0x03
  | .unsetDataKey => 0x04
  | .illegalCommand => 0x05
  | .badSequence => 0x06
  | .notATransportStream => 0x10
  | .noPatFound => 0x11
  | .noPmtFound => 0x12
  | .noEcmFound => 0x13
  | .outOfResources => 0x14
  | .decryptFailure => 0x15
  | .emptyCardHandle => 0x16
  | .ecmProcFailure => 0x17
  | .invalidPid => 0x18

/-- The value of `PIPE.PHASE` (R33). -/
def phaseCode : Phase → Byte
  | .unit => 0
  | .pat => 1
  | .pmt => 2
  | .ecm => 3
  | .steady => 4

/-- The role tag (R37). -/
def roleCode : Role → Byte
  | .unknown => 0
  | .pat => 1
  | .pmt => 2
  | .cat => 3
  | .emm => 4
  | .ecm => 5
  | .other => 6

/-- The role that ROLE of ROLE_SET names (R91): 3 = CAT, 4 = EMM. -/
def roleOfByte (b : Byte) : Role := if b = 3 then .cat else .emm

/-- One byte that names a slot; the spec gives the byte only for an index below 256 (assumption 7, DESIGN CHOICE). -/
def slotByte (i : Nat) : Byte := if i < 256 then BitVec.ofNat 8 i else slotOverflow i

/-- `LINKK`: 0 for NONE, 1 for `PROG i`, 2 for `DEC d` (R146). -/
def linkKind : Link → Byte
  | .none => 0
  | .prog _ => 1
  | .dec _ => 2

/-- `LINKI`: the index, 0 when NONE (R146). -/
def linkIndex : Link → Byte
  | .none => 0
  | .prog i => slotByte i
  | .dec d => slotByte d

/-- `VERDICT` of DMX_PACKET (R146). -/
inductive Verdict where
  | emit
  | drop
  | hold
  | resync
  | skip1
  deriving DecidableEq, Repr

/-- The VERDICT byte (R146). -/
def verdictCode : Verdict → Byte
  | .emit => 0
  | .drop => 1
  | .hold => 2
  | .resync => 3
  | .skip1 => 4

/-- `ROUTE` of DMX_PACKET (R146). -/
inductive Route where
  | pass
  | toSection
  | cipher
  | undec
  deriving DecidableEq, Repr

/-- The ROUTE byte (R146). -/
def routeCode : Route → Byte
  | .pass => 0
  | .toSection => 1
  | .cipher => 2
  | .undec => 3

/-- `PHASE <- min(PHASE + 1, 2)` of a program or a decryptor (R177, R178, R179). -/
def settleBump : Settle → Settle
  | .notParsed => .parsedOnce
  | .parsedOnce => .stable
  | .stable => .stable

/-- The value 0, 1 or 2 of the acquisition-phase counter (R42). -/
def settleCode : Settle → Nat
  | .notParsed => 0
  | .parsedOnce => 1
  | .stable => 2

end Sys2Proof.Machine
end

