-- ==== Sys2Proof/Machine/Flags.lean ====
section
/-! DEFINITION. The prerequisite flags `ST` of a context (spec/10_state.md R29): who sets and clears each, their bit
positions, and the priority in which encrypt and decrypt report a missing one. There are no arithmetic flags (R30). -/

namespace Sys2Proof.Machine

/-- SET_INIT_VECTOR sets `ST.IV` (R29, R121). -/
def setFlagIv (f : Flags) : Flags := { f with iv := true }

/-- SET_SYSTEM_KEY sets `ST.SK` (R29, R120). -/
def setFlagSk (f : Flags) : Flags := { f with sk := true }

/-- SET_DATA_KEY sets `ST.DK` (R29, R122). -/
def setFlagDk (f : Flags) : Flags := { f with dk := true }

/-- CLEAR_DATA_KEY clears `ST.DK` (R29, R123). -/
def clearFlagDk (f : Flags) : Flags := { f with dk := false }

/-- `ST` as the 3-bit register of R29: IV in bit 0, SK in bit 1, DK in bit 2. No command reads it. -/
def flagBits (f : Flags) : BitVec 3 := BitVec.ofBool f.dk ++ BitVec.ofBool f.sk ++ BitVec.ofBool f.iv

/-- The status of a missing prerequisite, in the priority order of R130 and R196: IV, then SK, then DK. -/
def missingPrerequisite (f : Flags) : Option Status :=
  if f.iv = false then some .unsetInitVector
  else if f.sk = false then some .unsetSystemKey
  else if f.dk = false then some .unsetDataKey
  else none

end Sys2Proof.Machine
end

