-- ==== Sys2Proof/Machine/Ops.lean ====
section
/-! DEFINITION. The named operations over registers, tables and payload memory, and the response: completing a command
and ending it with an error status (spec/00_scope.md R13, spec/30_encoding.md R82, spec/60_exceptions.md R201, R204). -/

namespace Sys2Proof.Machine

open Sys2Proof.Config

/-! ### Registers and tables -/

/-- `CE[c]` (R20). -/
def State.ctx (s : State) (c : Nat) : Context := Table.get .reset s.ce c

/-- `CE[c] <- x` (R20). -/
def State.setCtx (s : State) (c : Nat) (x : Context) : State := { s with ce := Table.set .reset s.ce c x }

/-- `MAP[p]` (R36). -/
def State.mapAt (s : State) (p : Nat) : MapEntry := Table.get .reset s.map p

/-- `MAP[p] <- e` (R36). -/
def State.setMap (s : State) (p : Nat) (e : MapEntry) : State := { s with map := Table.set .reset s.map p e }

/-- `PROG[i]` (R40). -/
def State.progAt (s : State) (i : Nat) : ProgSlot := Table.get .reset s.prog i

/-- `PROG[i] <- x` (R40). -/
def State.setProg (s : State) (i : Nat) (x : ProgSlot) : State := { s with prog := Table.set .reset s.prog i x }

/-- `DEC[d]` (R43). -/
def State.decAt (s : State) (d : Nat) : DecSlot := Table.get .reset s.dec d

/-- `DEC[d] <- x` (R43). -/
def State.setDec (s : State) (d : Nat) (x : DecSlot) : State := { s with dec := Table.set .reset s.dec d x }

/-- `PIPE <- x` (R32 to R35). -/
def State.setPipe (s : State) (x : Pipe) : State := { s with pipe := x }

/-! ### Payload memory -/

/-- One byte of payload memory: what was written there last, or, when nothing has been written since hardware reset, a
free value (R52, R62, R73; assumption 4, DESIGN CHOICE). -/
def State.readByte (s : State) (a : Nat) : Byte := (Table.find s.pmem a).getD (pmemPowerUp s.epoch a)

/-- `PMEM[a] <- v` (R13). -/
def State.writeByte (s : State) (a : Nat) (v : Byte) : State := { s with pmem := Table.put s.pmem a v }

/-- `MemRead(a, n)`: `PMEM[a], ..., PMEM[a+n-1]`, lowest address first (R13). -/
def State.readBytes (s : State) (a : Nat) : Nat → List Byte
  | 0 => []
  | n + 1 => s.readByte a :: s.readBytes (a + 1) n

/-- `MemWrite(a, n, v)` with `n` the length of `v`, lowest address first (R13). -/
def State.writeBytes (s : State) (a : Nat) : List Byte → State
  | [] => s
  | v :: vs => (s.writeByte a v).writeBytes (a + 1) vs

/-- `MemRead(a, 8)` (R13, R64). -/
def State.readBytes8 (s : State) (a : Nat) : Bytes8 :=
  ⟨s.readByte a, s.readByte (a + 1), s.readByte (a + 2), s.readByte (a + 3),
   s.readByte (a + 4), s.readByte (a + 5), s.readByte (a + 6), s.readByte (a + 7)⟩

/-- `MemWrite(a, 8, v)` (R13, R64). -/
def State.writeBytes8 (s : State) (a : Nat) (v : Bytes8) : State := s.writeBytes a (bytes8List v)

/-! ### The response -/

/-- The two forms of a response (R82): a cipher-engine command's, which the decoder's own response shares, and a DX
command's. -/
inductive Port where
  | ce
  | dx
  deriving DecidableEq, Repr

/-- The block writes the bytes of a response to the response port (R60, R63). -/
def State.send (s : State) (bs : List Byte) : State := { s with rsp := s.rsp ++ bs }

/-- `respond(OK, fields)`: the command ends normally (R13). Byte 0 is the status; a DX response goes on with `PIPE.PHASE`
as it stands after the command and the result fields (R82, R95). -/
def respond (u : Port) (fields : List Byte) (s : State) : State :=
  match u with
  | .ce => s.send [statusCode .ok]
  | .dx => s.send (statusCode .ok :: phaseCode s.pipe.phase :: fields)

/-- TAKING AN EXCEPTION. `raise e`: the command ends with the error status `e`. "Trap entry" is the response (R204): no
mode, saved position, cause register or vector exists; nothing is written but the response (R201), which is the one status
byte, for a DX command followed by `PIPE.PHASE` (R82, R190). There is no RETURN FROM AN EXCEPTION to model beside it:
"there is nothing to return from and no return command" (R205); the next command starts in the state `raise` leaves. -/
def raise (u : Port) (e : Status) (s : State) : State :=
  match u with
  | .ce => s.send [statusCode e]
  | .dx => s.send [statusCode e, phaseCode s.pipe.phase]

end Sys2Proof.Machine
end

