-- ==== Sys2Proof/Machine/Chain.lean ====
section
/-! DEFINITION. Unit CE, the chaining engine: what ENCRYPT, DECRYPT and the descrambling step of DMX_PACKET share
(spec/42_chaining_commands.md R130 to R135), and the loading and clearing of data keys that SET_DATA_KEY, CLEAR_DATA_KEY and
ECM_DONE share (spec/41_key_commands.md R122, R123). -/

namespace Sys2Proof.Machine

/-! ### Key state of a context -/

/-- The context with a data key pair loaded and both work keys scheduled from the system key as it stands (R122). -/
def loadDataKey (x : Context) (key : Bytes16) : Context :=
  { x with
    dk0 := blk key.odd
    dk1 := blk key.even
    wk0 := schedule x.sk (blk key.odd)
    wk1 := schedule x.sk (blk key.even)
    st := setFlagDk x.st }

/-- The context with both data keys and both work keys invalidated and zeroed (R123). -/
def clearDataKey (x : Context) : Context :=
  { x with
    dk0 := .zero
    dk1 := .zero
    wk0 := .zero
    wk1 := .zero
    st := clearFlagDk x.st }

/-! ### The transform -/

/-- The two directions of the transform. -/
inductive Direction where
  | encrypt
  | decrypt
  deriving DecidableEq, Repr

/-- The work key `T` selects: index 1 (even) for `T = 2`, index 0 (odd) otherwise (R130, R138, R93). -/
def selectWorkKey (t : BitVec 2) (x : Context) : Words8 := if t = 2 then x.wk1 else x.wk0

/-- The checks of R130, in order: the operand fields, then the three prerequisites. -/
def chainCheck (t : BitVec 2) (c a n : Nat) (s : State) : Option Status :=
  if ctxOk s.par c && rangeOk s.par a n && tOk s.par t then missingPrerequisite (s.ctx c).st
  else some .invalidParameter

/-- One full block at address `a` (the loop bodies of R132 and R134): the chaining value after it, and the state with the
block replaced. The block is read once, then written (R135, R78). -/
def chainBlock (dir : Direction) (w : Words8) (r : Nat) (a : Nat) (cbc : Block) (s : State) : Block × State :=
  let b := blk (s.readBytes8 a)
  match dir with
  | .encrypt =>
    let c := encBlock (b.xor cbc) w r
    (c, s.writeBytes8 a (bytesBlk c))
  | .decrypt => (b, s.writeBytes8 a (bytesBlk ((decBlock b w r).xor cbc)))

/-- `q` full blocks from address `a` on, in increasing address order (R131). -/
def chainBlocks (dir : Direction) (w : Words8) (r : Nat) (q a : Nat) (cbc : Block) (s : State) : Block × State :=
  match q with
  | 0 => (cbc, s)
  | q + 1 =>
    let x := chainBlock dir w r a cbc s
    chainBlocks dir w r q (a + 8) x.1 x.2

/-- The tail bytes from address `a` on, each XORed with its keystream byte (R133). -/
def chainTail (ks : List Byte) (a : Nat) (s : State) : State :=
  match ks with
  | [] => s
  | k :: ks => chainTail ks (a + 1) (s.writeByte a (s.readByte a ^^^ k))

/-- The transform of the `n` bytes at `a` under the work key `w`, the round count `r` and the initialisation vector `iv`
(R131 to R134): full blocks, then the tail, whose keystream is the encryption of the chaining value in both directions. -/
def chainRun (dir : Direction) (w : Words8) (r : Nat) (iv : Block) (a n : Nat) (s : State) : State :=
  let x := chainBlocks dir w r (n / 8) a iv s
  if n % 8 = 0 then x.2
  else chainTail ((bytes8List (bytesBlk (encBlock x.1 w r))).take (n % 8)) (a + 8 * (n / 8)) x.2

/-- A whole encrypt or decrypt with the context `c` and the key selector `t`: the status of the first check that fails,
or the state with the payload transformed (R130 to R134). -/
def chainCommand (dir : Direction) (t : BitVec 2) (c a n : Nat) (s : State) : Except Status State :=
  match chainCheck t c a n s with
  | some e => .error e
  | none =>
    let x := s.ctx c
    .ok (chainRun dir (selectWorkKey t x) x.round.toNat x.iv a n s)

end Sys2Proof.Machine
end

