-- ==== Sys2Proof/Machine/ChainCommands.lean ====
section
/-! DEFINITION. ENCRYPT and DECRYPT (spec/42_chaining_commands.md R130 to R138). -/

namespace Sys2Proof.Machine

/-- The end of ENCRYPT and DECRYPT: the response to the outcome of the transform (R130, R132, R134). -/
def chainResponse (r : Except Status State) (s : State) : State :=
  match r with
  | .error e => raise .ce e s
  | .ok s' => respond .ce [] s'

/-- ENCRYPT.T (R132). -/
def execEncrypt (t : BitVec 2) (ctx : Byte) (addr len : Half) (s : State) : Host.Outcome State Fault Refusal :=
  .next (chainResponse (chainCommand .encrypt t ctx.toNat addr.toNat len.toNat s) s)

/-- DECRYPT.T (R134). -/
def execDecrypt (t : BitVec 2) (ctx : Byte) (addr len : Half) (s : State) : Host.Outcome State Fault Refusal :=
  .next (chainResponse (chainCommand .decrypt t ctx.toNat addr.toNat len.toNat s) s)

end Sys2Proof.Machine
end

