-- ==== Sys2Proof/Machine/Operands.lean ====
section
/-! DEFINITION. The operand forms that name a slot: which slots are valid, which is free, and the decryptor selector
(spec/30_encoding.md R90, spec/44_demux_tables.md R173). The field checks that read no register are in Fields. -/

namespace Sys2Proof.Machine

/-- `P < N_PROG` and `PROG[P].VALID` (R90). -/
def progValid (s : State) (p : Nat) : Bool := decide (p < s.par.nProg) && (s.progAt p).valid

/-- `D < N_CTX` and `DEC[D].VALID` (R90). -/
def decValid (s : State) (d : Nat) : Bool := decide (d < s.par.nCtx) && (s.decAt d).valid

/-- The valid program slots, lowest first. -/
def validProgs (s : State) : List Nat := (List.range s.par.nProg).filter fun i => (s.progAt i).valid

/-- The valid decryptor slots, lowest first. -/
def validDecs (s : State) : List Nat := (List.range s.par.nCtx).filter fun d => (s.decAt d).valid

/-- The lowest program slot that is free (R166). -/
def freeProg (s : State) : Option Nat := (List.range s.par.nProg).find? fun i => !(s.progAt i).valid

/-- The lowest decryptor slot that is free (R170). -/
def freeDec (s : State) : Option Nat := (List.range s.par.nCtx).find? fun d => !(s.decAt d).valid

/-- The valid decryptor of an ECM PID; there is at most one (R170, R45). -/
def decOfEcm (s : State) (pid : Pid) : Option Nat :=
  (List.range s.par.nCtx).find? fun d => (s.decAt d).valid && (s.decAt d).ecmPid == pid

/-- `select(D)` of STRM_BIND (R173, R90): a valid decryptor slot, 0xFF = NONE, 0xFE = SOLE; none for any other value. -/
def selectDec (s : State) (d : Byte) : Option Link :=
  if decValid s d.toNat then some (.dec d.toNat)
  else if d = 0xFF then some .none
  else if d = 0xFE then
    match validDecs s with
    | [x] => some (.dec x)
    | _ => some .none
  else none

end Sys2Proof.Machine
end

