-- ==== Sys2Proof/Machine/Topology.lean ====
section
/-! DEFINITION. What the demux commands share: the reference-count protocol (spec/44_demux_tables.md R162, R172 to R175), the
wholesale reset of the tables (R159, R165), and the phase machine (R183). -/

namespace Sys2Proof.Machine

open Sys2Proof.Config

/-- An entry given back: `ROLE UNKNOWN, REF 0, LINK NONE`, the counters kept (R167, R174, R175). -/
def vacate (e : MapEntry) : MapEntry := { e with role := .unknown, ref := 0, link := .none }

/-- One more reference on `DEC[d]` when the link names a decryptor (R172). -/
def incDecRef (l : Link) (s : State) : State :=
  match l with
  | .dec d => s.setDec d { s.decAt d with ref := (s.decAt d).ref + 1 }
  | .prog _ => s
  | .none => s

/-- One reference fewer on `DEC[d]` when the link names a decryptor (R172, R175). -/
def decDecRef (l : Link) (s : State) : State :=
  match l with
  | .dec d => s.setDec d { s.decAt d with ref := (s.decAt d).ref - 1 }
  | .prog _ => s
  | .none => s

/-- `bind(p, t)`: one reference on `MAP[p]` for a stream element linked to `t` (R172). It is not applied to an entry with
a control role, and does nothing there. -/
def bindPid (p : Nat) (t : Link) (s : State) : State :=
  let e := s.mapAt p
  match e.role with
  | .unknown => incDecRef t (s.setMap p { e with role := .other, link := t, ref := 1 })
  | .other =>
    if e.link = t then s.setMap p { e with ref := e.ref + 1 }
    else incDecRef t (decDecRef e.link (s.setMap p { e with link := t, ref := e.ref + 1 }))
  | .pat => s
  | .pmt => s
  | .cat => s
  | .emm => s
  | .ecm => s

/-- `release(p)`: one stream element's reference on `MAP[p]` given back (R175). -/
def releasePid (p : Nat) (s : State) : State :=
  let e := s.mapAt p
  if e.role = .other then
    if e.ref - 1 = 0 then decDecRef e.link (s.setMap p (vacate e))
    else s.setMap p { e with ref := e.ref - 1 }
  else s

/-- `release(e.PID)` for each element of a list, in list order (R177). -/
def releaseList (es : List StreamElem) (s : State) : State :=
  match es with
  | [] => s
  | e :: es => releaseList es (releasePid e.pid.toNat s)

/-- `destroy(d)`: the end of a decryptor (R174). -/
def destroyDec (d : Nat) (s : State) : State :=
  let p := (s.decAt d).ecmPid.toNat
  ((s.setMap p (vacate (s.mapAt p))).setDec d .reset).setCtx d .reset

/-- The sweep of PMT_END over the slots listed: a valid decryptor with `REF = 0` is destroyed (R177). -/
def sweepDecs (ds : List Nat) (s : State) : State :=
  match ds with
  | [] => s
  | d :: ds =>
    if (s.decAt d).valid = true ∧ (s.decAt d).ref = 0 then sweepDecs ds (destroyDec d s) else sweepDecs ds s

/-- The tables wiped, as PAT_BEGIN and DMX_RESET do (R159, R165): the context of every valid decryptor, every `DEC`, every
`PROG` and every `MAP` entry go to their reset state, counters included. -/
def clearTopology (s : State) : State :=
  { s with
    ce := s.ce.filter fun e => !(s.decAt e.1).valid
    map := mapReset
    prog := []
    dec := [] }

/-- `PIPE.PHASE <- ph ; PIPE.BUDGET <- 0`: every change of the phase clears the budget (R34). -/
def enterPhase (ph : Phase) (s : State) : State := s.setPipe { s.pipe with phase := ph, budget := 0 }

/-- Every valid program has been parsed at least once (R183). -/
def progsParsed (s : State) : Bool := (validProgs s).all fun i => (s.progAt i).phase != .notParsed

/-- Every valid decryptor has been parsed at least once (R183). -/
def decsParsed (s : State) : Bool := (validDecs s).all fun d => (s.decAt d).phase != .notParsed

/-- First half of `advance()`: phase 2 to 3 (R183). -/
def advancePmt (s : State) : State :=
  if s.pipe.phase = .pmt ∧ progsParsed s = true then enterPhase .ecm s else s

/-- Second half of `advance()`: phase 3 to 4 (R183). -/
def advanceEcm (s : State) : State :=
  if s.pipe.phase = .ecm ∧ decsParsed s = true then enterPhase .steady s else s

/-- `advance()` (R183): both steps can happen in one call. -/
def advance (s : State) : State := advanceEcm (advancePmt s)

/-- `PIPE.PHASE in {1, 2, 3}`: an acquisition phase (R145, R153). -/
def acquiring (ph : Phase) : Bool := ph == .pat || ph == .pmt || ph == .ecm

end Sys2Proof.Machine
end

