-- ==== Sys2Proof/Machine/EcmCommands.lean ====
section
/-! DEFINITION. The key-delivery and query commands ECM_BEGIN, ECM_DONE, EMM_OK and DMX_QUERY
(spec/44_demux_tables.md R178 to R182). -/

namespace Sys2Proof.Machine

/-- ECM_BEGIN (R178): while locked, the section short-circuits to the unpurchased outcome. -/
def execEcmBegin (d : Byte) (s : State) : Host.Outcome State Fault Refusal :=
  let i := d.toNat
  let x := s.decAt i
  if decValid s i then
    if x.locked then
      .next (respond .dx [1]
        (advance (s.setDec i { x with unpurchased := x.unpurchased + 1, phase := settleBump x.phase })))
    else .next (respond .dx [0] s)
  else .next (raise .dx .invalidParameter s)

/-- ECM_DONE (R179): purchased, unpurchased, or failure, which alone of all errors comes with a state change (R200). -/
def execEcmDone (d fail : Byte) (rc : Half) (key : Bytes16) (s : State) : Host.Outcome State Fault Refusal :=
  let i := d.toNat
  let x := s.decAt i
  if decValid s i && failOk fail then
    if fail = 1 then .next (raise .dx .ecmProcFailure (s.setCtx i (clearDataKey (s.ctx i))))
    else if rc ∈ s.par.purchasedSet then
      .next (respond .dx [0]
        (advance ((s.setCtx i (loadDataKey (s.ctx i) key)).setDec i
          { x with locked := false, phase := settleBump x.phase })))
    else
      .next (respond .dx [1]
        (advance ((s.setCtx i (clearDataKey (s.ctx i))).setDec i
          { x with locked := true, unpurchased := x.unpurchased + 1, lastErr := rc, phase := settleBump x.phase })))
  else .next (raise .dx .invalidParameter s)

/-- EMM_OK (R181): every valid decryptor is unlocked. -/
def execEmmOk (s : State) : Host.Outcome State Fault Refusal :=
  if s.pipe.cfg.emmEn then
    .next (respond .dx []
      { s with dec := Table.mapAll .reset (fun _ x => if x.valid then { x with locked := false } else x) s.dec })
  else .next (raise .dx .badSequence s)

/-- The list without repeats; each value stands where it stood first. -/
def distinct {α : Type} [DecidableEq α] : List α → List α
  | [] => []
  | x :: xs => x :: (distinct xs).filter fun y => y ≠ x

/-- `S`: the distinct PIDs of the program's current stream list (R182). -/
def queryPids (s : State) (i : Nat) : List Nat := distinct ((s.progAt i).streams.map fun e => e.pid.toNat)

/-- The decryptor an elementary stream's entry links, if any (R182). -/
def linkedDec (e : MapEntry) : Option Nat :=
  match e.role, e.link with
  | .other, .dec d => some d
  | _, _ => none

/-- `DS`: the distinct decryptors of those PIDs, in the order their first PID stands in the list (R182). -/
def queryDecs (s : State) (i : Nat) : List Nat := distinct ((queryPids s i).filterMap fun p => linkedDec (s.mapAt p))

/-- `LAST_ERR` of the first decryptor of `DS` whose code is not 0, or 0 (R182). -/
def queryLastErr (s : State) (i : Nat) : Half :=
  (((queryDecs s i).map fun d => (s.decAt d).lastErr).find? fun x => x != 0).getD 0

/-- The result fields of DMX_QUERY for a valid slot, after COUNT (R95, R182). -/
def queryFields (s : State) (i : Nat) : List Byte :=
  bytesBe16 (s.progAt i).num
    ++ bytesBe64 ((queryPids s i).map fun p => (s.mapAt p).normal + (s.mapAt p).undec).sum
    ++ bytesBe64 ((queryPids s i).map fun p => (s.mapAt p).undec).sum
    ++ bytesBe64 ((queryDecs s i).map fun d => (s.decAt d).unpurchased).sum
    ++ bytesBe16 (queryLastErr s i)

/-- DMX_QUERY (R182): it reads and never writes. -/
def execDmxQuery (slot : Byte) (s : State) : Host.Outcome State Fault Refusal :=
  let count := countByte (validProgs s).length
  if slot = 0xFF then .next (respond .dx (count :: List.replicate 28 0) s)
  else if progValid s slot.toNat then .next (respond .dx (count :: queryFields s slot.toNat) s)
  else .next (raise .dx .invalidParameter s)

end Sys2Proof.Machine
end

