-- ==== Sys2Proof/Machine/KeyCommands.lean ====
section
/-! DEFINITION. The five key and configuration commands of unit CE (spec/41_key_commands.md R120 to R126). -/

namespace Sys2Proof.Machine

/-- SET_SYSTEM_KEY (R120). The work keys are not recomputed (R230). -/
def execSetSystemKey (ctx : Byte) (imm : Bytes32) (s : State) : Host.Outcome State Fault Refusal :=
  let c := ctx.toNat
  if ctxOk s.par c then
    let x := s.ctx c
    .next (respond .ce [] (s.setCtx c { x with sk := words8Of imm, st := setFlagSk x.st }))
  else .next (raise .ce .invalidParameter s)

/-- SET_INIT_VECTOR (R121). -/
def execSetInitVector (ctx : Byte) (imm : Bytes8) (s : State) : Host.Outcome State Fault Refusal :=
  let c := ctx.toNat
  if ctxOk s.par c then
    let x := s.ctx c
    .next (respond .ce [] (s.setCtx c { x with iv := blk imm, st := setFlagIv x.st }))
  else .next (raise .ce .invalidParameter s)

/-- SET_DATA_KEY (R122). `ST.SK` is not tested (R231). -/
def execSetDataKey (ctx : Byte) (imm : Bytes16) (s : State) : Host.Outcome State Fault Refusal :=
  let c := ctx.toNat
  if ctxOk s.par c then .next (respond .ce [] (s.setCtx c (loadDataKey (s.ctx c) imm)))
  else .next (raise .ce .invalidParameter s)

/-- CLEAR_DATA_KEY (R123). -/
def execClearDataKey (ctx : Byte) (s : State) : Host.Outcome State Fault Refusal :=
  let c := ctx.toNat
  if ctxOk s.par c then .next (respond .ce [] (s.setCtx c (clearDataKey (s.ctx c))))
  else .next (raise .ce .invalidParameter s)

/-- SET_ROUND (R124). -/
def execSetRound (ctx n : Byte) (s : State) : Host.Outcome State Fault Refusal :=
  let c := ctx.toNat
  if ctxOk s.par c && roundOk n then .next (respond .ce [] (s.setCtx c { s.ctx c with round := n }))
  else .next (raise .ce .invalidParameter s)

end Sys2Proof.Machine
end

