-- ==== Sys2Proof/Machine/Packet.lean ====
section
/-! DEFINITION. DMX_PACKET: the transport packet header, the payload position, and the classification of a packet
(spec/43_demux_packet.md R140 to R156). -/

namespace Sys2Proof.Machine

open Sys2Proof.Config

/-- The fields of the 4 header bytes (R140). `prio` and `cc` are parsed and never used. -/
structure PacketHeader where
  sync : Byte
  tei : Bool
  pusi : Bool
  prio : Bool
  pid : Pid
  /-- Scrambling control. -/
  sc : BitVec 2
  /-- Adaptation-field control. -/
  afc : BitVec 2
  cc : BitVec 4
  deriving DecidableEq, Repr

/-- The header of the bytes `h0 .. h3` (R140). -/
def parseHeader (h0 h1 h2 h3 : Byte) : PacketHeader where
  sync := h0
  tei := h1.getLsbD 7
  pusi := h1.getLsbD 6
  prio := h1.getLsbD 5
  pid := h1.extractLsb' 0 5 ++ h2
  sc := h3.extractLsb' 6 2
  afc := h3.extractLsb' 4 2
  cc := h3.extractLsb' 0 4

/-- The header of the packet at `a`. -/
def headerAt (s : State) (a : Nat) : PacketHeader :=
  parseHeader (s.readByte a) (s.readByte (a + 1)) (s.readByte (a + 2)) (s.readByte (a + 3))

/-- Where the payload of a packet lies (R141). -/
structure PayloadSpan where
  /-- `off`, counted from the sync byte. -/
  off : Nat
  corrupt : Bool
  /-- `PLEN`. -/
  len : Nat
  deriving DecidableEq, Repr

/-- R141, from the adaptation-field control and the byte at `a+4`: `n = 188 - off` is taken in the integers. -/
def payloadSpan (afc : BitVec 2) (afl : Byte) : PayloadSpan :=
  let off : Nat := if afc.getLsbD 1 then 5 + afl.toNat else 4
  let n : Int := 188 - (off : Int)
  { off := off
    corrupt := decide (n < 0) || (afc.getLsbD 0 && decide (n < 1))
    len := if afc.getLsbD 0 then n.toNat else 0 }

/-- The payload span of the packet at `a`; the byte at `a+4` counts only when `AFC[1] = 1` (R141). -/
def spanAt (s : State) (a : Nat) (h : PacketHeader) : PayloadSpan :=
  payloadSpan h.afc (if h.afc.getLsbD 1 then s.readByte (a + 4) else 0)

/-- R142: a packet is scrambled when `SC` is 2 or 3 and the payload is not empty. -/
def scrambled (h : PacketHeader) (p : PayloadSpan) : Bool := h.sc.getLsbD 1 && decide (1 ≤ p.len)

/-- The result fields of a DMX_PACKET response (R95, R146). -/
structure PacketReply where
  verdict : Verdict
  route : Route
  role : Role
  link : Link
  pusi : Bool
  /-- `PADDR = a + off`. -/
  paddr : Nat
  plen : Nat
  deriving DecidableEq, Repr

/-- A verdict with every other field 0 (R145, R146). -/
def bareReply (v : Verdict) : PacketReply := ⟨v, .pass, .unknown, .none, false, 0, 0⟩

/-- PADDR in its 16 bits (R146); when it does not fit, a free value (assumption 6, DESIGN CHOICE). -/
def paddrField (p : Nat) : Half := if p < 65536 then BitVec.ofNat 16 p else paddrOverflow p

/-- The nine bytes of R146 after STATUS and PHASE. -/
def replyBytes (r : PacketReply) : List Byte :=
  [verdictCode r.verdict, routeCode r.route, roleCode r.role, linkKind r.link, linkIndex r.link,
    (BitVec.ofBool r.pusi).zeroExtend 8] ++ bytesBe16 (paddrField r.paddr) ++ [BitVec.ofNat 8 r.plen]

/-- `limit(PIPE.PHASE)` and the status of a used-up budget (R153, R197); none outside the acquisition phases. -/
def budgetLimit (p : Params) (ph : Phase) : Option (Nat × Status) :=
  match ph with
  | .unit => none
  | .pat => some (p.budgetPat, .noPatFound)
  | .pmt => some (p.budgetPmt, .noPmtFound)
  | .ecm => some (p.budgetEcm, .noEcmFound)
  | .steady => none

/-- The status of step 5: the budget of the phase would be exceeded by charging a whole unit (R153). -/
def budgetError (s : State) : Option Status :=
  match budgetLimit s.par s.pipe.phase with
  | some (lim, e) => if s.pipe.budget + s.pipe.unit.toNat > lim then some e else none
  | none => none

/-- `PIPE.BUDGET <- PIPE.BUDGET + n` in an acquisition phase; nothing otherwise (R153). -/
def charge (n : Nat) (s : State) : State :=
  if acquiring s.pipe.phase then s.setPipe { s.pipe with budget := s.pipe.budget + n } else s

/-- R153: the acquisition scan routes only the sections its phase waits for. -/
def scanRoute (s : State) (e : MapEntry) (scr : Bool) (plen : Nat) : Route :=
  if scr = true ∨ plen = 0 then .pass
  else
    match s.pipe.phase with
    | .unit => .pass
    | .pat => if e.role = .pat then .toSection else .pass
    | .pmt =>
      match e.role, e.link with
      | .pmt, .prog i => if settleCode (s.progAt i).phase < 2 then .toSection else .pass
      | _, _ => .pass
    | .ecm =>
      match e.role, e.link with
      | .ecm, .dec d => if settleCode (s.decAt d).phase < 2 then .toSection else .pass
      | _, _ => .pass
    | .steady => .pass

/-- R152: the route of a packet that is not scrambled, in the steady state. -/
def clearRoute (s : State) (e : MapEntry) (plen : Nat) : Route :=
  if plen = 0 then .pass
  else
    match e.role with
    | .pat => .toSection
    | .pmt => .toSection
    | .ecm => .toSection
    | .cat => if s.pipe.cfg.emmEn then .toSection else .pass
    | .emm => if s.pipe.cfg.emmEn then .toSection else .pass
    | .unknown => .pass
    | .other => .pass

/-- The decryptor that can descramble a packet of the entry `e` (R150): `ROLE = OTHER`, `LINK = DEC d` and
`CE[d].ST.DK = 1`. -/
def descrambler (s : State) (e : MapEntry) : Option Nat :=
  match e.role, e.link with
  | .other, .dec d => if (s.ctx d).st.dk then some d else none
  | _, _ => none

/-- `MAP[p].NORMAL <- MAP[p].NORMAL + 1` (R151). -/
def countNormal (p : Nat) (s : State) : State := s.setMap p { s.mapAt p with normal := (s.mapAt p).normal + 1 }

/-- `MAP[p].UNDEC <- MAP[p].UNDEC + 1` (R151). -/
def countUndec (p : Nat) (s : State) : State := s.setMap p { s.mapAt p with undec := (s.mapAt p).undec + 1 }

/-- `DECRYPT.SC d, a+off, PLEN`, the clearing of the scrambling-control bits, and the count (R150); the DECRYPT's error
status if it fails. -/
def descramble (a d : Nat) (h : PacketHeader) (p : PayloadSpan) (s : State) : Except Status State :=
  match chainCommand .decrypt h.sc d (a + p.off) p.len s with
  | .error e => .error e
  | .ok s' => .ok (countNormal h.pid.toNat (s'.writeByte (a + 3) (s.readByte (a + 3) &&& 0x3F)))

/-- Step 11 of R145, in the steady state: descramble, count and route; the status when the DECRYPT fails. -/
def steadyPacket (a : Nat) (h : PacketHeader) (p : PayloadSpan) (s : State) : Except Status (Route × State) :=
  let e := s.mapAt h.pid.toNat
  if scrambled h p then
    match descrambler s e with
    | some d =>
      match descramble a d h p s with
      | .error _ => .error .decryptFailure
      | .ok s' => .ok (.cipher, s')
    | none => .ok (.undec, countUndec h.pid.toNat s)
  else .ok (clearRoute s e p.len, countNormal h.pid.toNat s)

/-- Steps 8 to 12 of R145: the packet passed the sync, budget, TEI and null-packet tests. -/
def classifyPacket (a : Nat) (h : PacketHeader) (s : State) : State :=
  let p := spanAt s a h
  if p.corrupt then respond .dx (replyBytes (bareReply .skip1)) (charge 1 s)
  else
    let e := s.mapAt h.pid.toNat
    let reply := fun v r => replyBytes ⟨v, r, e.role, e.link, h.pusi, a + p.off, p.len⟩
    if acquiring s.pipe.phase then
      respond .dx (reply .hold (scanRoute s e (scrambled h p) p.len)) (charge s.pipe.unit.toNat s)
    else
      match steadyPacket a h p s with
      | .error st => raise .dx st s
      | .ok (r, s') => respond .dx (reply .emit r) s'

/-- Steps 4 to 7 of R145: the sync byte, the byte budget, the transport error indicator and the null packet. -/
def examinePacket (a : Nat) (s : State) : State :=
  let h := headerAt s a
  if h.sync ≠ 0x47 then respond .dx (replyBytes (bareReply .resync)) s
  else
    match budgetError s with
    | some e => raise .dx e s
    | none =>
      if h.tei then
        respond .dx (replyBytes (bareReply (if acquiring s.pipe.phase then .hold else .emit)))
          (charge s.pipe.unit.toNat s)
      else if acquiring s.pipe.phase = false ∧ h.pid = s.par.nullPid ∧ s.pipe.cfg.stripNull = true then
        respond .dx (replyBytes (bareReply .drop)) s
      else classifyPacket a h s

/-- DMX_PACKET (R145). -/
def execDmxPacket (addr : Half) (s : State) : Host.Outcome State Fault Refusal :=
  let a := addr.toNat
  if packetOk s.par a then
    if s.pipe.phase = .unit then .next (raise .dx .badSequence s)
    else if (advance s).pipe.phase ≠ s.pipe.phase then
      .next (respond .dx (replyBytes (bareReply .hold)) (advance s))
    else .next (examinePacket a s)
  else .next (raise .dx .invalidParameter s)

end Sys2Proof.Machine
end

