-- ==== Sys2Proof/Machine/PipeCommands.lean ====
section
/-! DEFINITION. The pipeline control commands DMX_RESET, DMX_CONFIG and DMX_UNIT (spec/43_demux_packet.md R157 to R159). -/

namespace Sys2Proof.Machine

/-- DMX_RESET (R159). `PIPE.CFG`, the contexts of no valid decryptor and PMEM are kept. -/
def execDmxReset (s : State) : Host.Outcome State Fault Refusal :=
  .next (respond .dx [] ((clearTopology s).setPipe { s.pipe with phase := .unit, budget := 0, unit := 0 }))

/-- DMX_CONFIG (R158). -/
def execDmxConfig (flags n : Byte) (s : State) : Host.Outcome State Fault Refusal :=
  if flagsOk flags && roundOk n then
    let cfg : PipeConfig := { stripNull := flags.getLsbD 0, emmEn := flags.getLsbD 1, round := n }
    .next (respond .dx [] (s.setPipe { s.pipe with cfg := cfg }))
  else .next (raise .dx .invalidParameter s)

/-- DMX_UNIT (R157). -/
def execDmxUnit (size : Half) (s : State) : Host.Outcome State Fault Refusal :=
  if sizeOk size then
    if s.pipe.phase = .unit then
      .next (respond .dx [] (s.setPipe { s.pipe with unit := size, phase := .pat, budget := 0 }))
    else .next (raise .dx .badSequence s)
  else .next (raise .dx .invalidParameter s)

end Sys2Proof.Machine
end

