-- ==== Sys2Proof/Machine/TableCommands.lean ====
section
/-! DEFINITION. The topology commands PAT_BEGIN, PROG_ADD, ROLE_SET, PMT_BEGIN, DEC_OPEN, STRM_BIND and PMT_END
(spec/44_demux_tables.md R160 to R177). -/

namespace Sys2Proof.Machine

/-- PAT_BEGIN (R165). -/
def execPatBegin (s : State) : Host.Outcome State Fault Refusal :=
  if s.pipe.phase = .unit then .next (raise .dx .badSequence s)
  else
    let s1 := clearTopology s
    .next (respond .dx [] (if acquiring s1.pipe.phase then enterPhase .pmt s1 else s1))

/-- PROG_ADD (R166): operand, then sequence, then the role of the PID, then resources (R196). -/
def execProgAdd (num pid : Half) (s : State) : Host.Outcome State Fault Refusal :=
  let p := (pidOf pid).toNat
  if pidOk pid = false then .next (raise .dx .invalidParameter s)
  else if s.pipe.phase = .unit ∨ s.pipe.phase = .pat then .next (raise .dx .badSequence s)
  else if (s.mapAt p).role ≠ .unknown then .next (raise .dx .invalidParameter s)
  else
    match freeProg s with
    | none => .next (raise .dx .outOfResources s)
    | some i =>
      let s1 := s.setProg i
        { valid := true, num := num, pmtPid := pidOf pid, pcrPid := 0, phase := .notParsed, streams := [], old := [] }
      .next (respond .dx [slotByte i] (s1.setMap p { s.mapAt p with role := .pmt, ref := 1, link := .prog i }))

/-- ROLE_SET (R167): every other PID that holds the role is released first. -/
def execRoleSet (pid : Half) (role : Byte) (s : State) : Host.Outcome State Fault Refusal :=
  let p := (pidOf pid).toNat
  let r := roleOfByte role
  if pidOk pid && roleOk role then
    if (s.mapAt p).role ≠ .unknown ∧ (s.mapAt p).role ≠ r then .next (raise .dx .invalidParameter s)
    else
      let others := Table.mapAll .reset (fun q e => if q ≠ p ∧ e.role = r then vacate e else e) s.map
      let s1 : State := { s with map := others }
      .next (respond .dx [] (s1.setMap p { s.mapAt p with role := r, ref := 1, link := .none }))
  else .next (raise .dx .invalidParameter s)

/-- PMT_BEGIN (R169). -/
def execPmtBegin (slot : Byte) (pcr : Half) (s : State) : Host.Outcome State Fault Refusal :=
  let i := slot.toNat
  let g := s.progAt i
  if progValid s i && pidOk pcr then
    if g.old ≠ [] then .next (raise .dx .badSequence s)
    else .next (respond .dx [] (s.setProg i { g with old := g.streams, streams := [], pcrPid := pidOf pcr }))
  else .next (raise .dx .invalidParameter s)

/-- DEC_OPEN (R170): an existing decryptor is found before the role of the PID is tested (R196). -/
def execDecOpen (pid : Half) (s : State) : Host.Outcome State Fault Refusal :=
  let p := (pidOf pid).toNat
  if pidOk pid then
    match decOfEcm s (pidOf pid) with
    | some d => .next (respond .dx [slotByte d, 0] s)
    | none =>
      if (s.mapAt p).role ≠ .unknown then .next (raise .dx .invalidParameter s)
      else
        match freeDec s with
        | none => .next (raise .dx .outOfResources s)
        | some d =>
          let s1 := s.setDec d { DecSlot.reset with valid := true, ecmPid := pidOf pid }
          let s2 := s1.setCtx d { Context.reset with round := s.pipe.cfg.round }
          .next (respond .dx [slotByte d, 1]
            (s2.setMap p { s.mapAt p with role := .ecm, ref := 1, link := .dec d }))
  else .next (raise .dx .invalidParameter s)

/-- The roles that a stream may not take over (R171). -/
def controlRole (r : Role) : Bool :=
  match r with
  | .unknown => false
  | .pat => true
  | .pmt => true
  | .cat => true
  | .emm => true
  | .ecm => true
  | .other => false

/-- DSEL of the STRM_BIND response: the slot the stream was bound to, 0xFF when to none (R95). -/
def bindSelector (t : Link) : Byte :=
  match t with
  | .dec d => slotByte d
  | .prog _ => 0xFF
  | .none => 0xFF

/-- STRM_BIND (R171): a PID with a control role is skipped before the list length is tested (R196). -/
def execStrmBind (slot : Byte) (pid : Half) (type d : Byte) (s : State) : Host.Outcome State Fault Refusal :=
  let i := slot.toNat
  let p := (pidOf pid).toNat
  if progValid s i && pidOk pid then
    match selectDec s d with
    | none => .next (raise .dx .invalidParameter s)
    | some t =>
      if controlRole (s.mapAt p).role then .next (respond .dx [0xFD] s)
      else if (s.progAt i).streams.length ≥ s.par.nStrm then .next (raise .dx .outOfResources s)
      else
        let g := s.progAt i
        .next (respond .dx [bindSelector t]
          ((bindPid p t s).setProg i { g with streams := g.streams ++ [⟨pidOf pid, type⟩] }))
  else .next (raise .dx .invalidParameter s)

/-- PMT_END (R177): the old list is released, the program counted as parsed, and every decryptor bound by nothing
destroyed. -/
def execPmtEnd (slot : Byte) (s : State) : Host.Outcome State Fault Refusal :=
  let i := slot.toNat
  let g := s.progAt i
  if progValid s i then
    let s1 := (releaseList g.old s).setProg i { g with old := [], phase := settleBump g.phase }
    .next (respond .dx [] (advance (sweepDecs (List.range s.par.nCtx) s1)))
  else .next (raise .dx .invalidParameter s)

end Sys2Proof.Machine
end

