-- ==== Sys2Proof/Machine/Dispatch.lean ====
section
/-! DEFINITION. One arm per command: the meaning of each (spec/30_encoding.md R84). -/

namespace Sys2Proof.Machine

def exec (i : Instr) (s : State) : Host.Outcome State Fault Refusal :=
  match i with
  | .setSystemKey ctx imm => Sys2Proof.Machine.execSetSystemKey ctx imm s
  | .setInitVector ctx imm => Sys2Proof.Machine.execSetInitVector ctx imm s
  | .setDataKey ctx imm => Sys2Proof.Machine.execSetDataKey ctx imm s
  | .clearDataKey ctx => Sys2Proof.Machine.execClearDataKey ctx s
  | .setRound ctx n => Sys2Proof.Machine.execSetRound ctx n s
  | .encrypt t ctx addr len => Sys2Proof.Machine.execEncrypt t ctx addr len s
  | .decrypt t ctx addr len => Sys2Proof.Machine.execDecrypt t ctx addr len s
  | .dmxReset => Sys2Proof.Machine.execDmxReset s
  | .dmxConfig flags n => Sys2Proof.Machine.execDmxConfig flags n s
  | .dmxUnit size => Sys2Proof.Machine.execDmxUnit size s
  | .dmxPacket addr => Sys2Proof.Machine.execDmxPacket addr s
  | .patBegin => Sys2Proof.Machine.execPatBegin s
  | .progAdd num pid => Sys2Proof.Machine.execProgAdd num pid s
  | .roleSet pid role => Sys2Proof.Machine.execRoleSet pid role s
  | .pmtBegin p pcr => Sys2Proof.Machine.execPmtBegin p pcr s
  | .decOpen pid => Sys2Proof.Machine.execDecOpen pid s
  | .strmBind p pid type d => Sys2Proof.Machine.execStrmBind p pid type d s
  | .pmtEnd p => Sys2Proof.Machine.execPmtEnd p s
  | .ecmBegin d => Sys2Proof.Machine.execEcmBegin d s
  | .ecmDone d fail rc key => Sys2Proof.Machine.execEcmDone d fail rc key s
  | .emmOk => Sys2Proof.Machine.execEmmOk s
  | .dmxQuery p => Sys2Proof.Machine.execDmxQuery p s

end Sys2Proof.Machine
end

