-- ==== Sys2Proof/Machine/Step.lean ====
section
/-! DEFINITION. One step of the block: it takes the next command off the command port and runs it to completion
(spec/00_scope.md R15, spec/10_state.md R28, spec/20_memory.md R63, R73). -/

namespace Sys2Proof.Machine

/-- One step. A whole command is taken off the port and runs to its response (R15, R63). A reserved opcode byte is consumed
alone and answered with `IllegalCommand` (R92). While the bytes of a command have not all arrived, nothing is taken and
nothing happens (R83). -/
def step (s : State) : Host.Outcome State Fault Refusal :=
  match decode s.cmd with
  | .command i rest => exec i { s with cmd := rest }
  | .reserved _ rest => .next (raise .ce .illegalCommand { s with cmd := rest })
  | .incomplete => .next s

/-- The state with the command of an opcode-table word as the next bytes of the command port, before any that already
wait there; nothing else changes. -/
def State.withFetchWord (s : State) (nbits w : Nat) : State := { s with cmd := tableCommand nbits w ++ s.cmd }

end Sys2Proof.Machine
end

