-- ==== Sys2Proof/Machine/HostPort.lean ====
section
/-! DEFINITION. What the outside world does to the block between two of its steps: the host's access to the ports and to
payload memory (spec/20_memory.md R60 to R63, R74), and hardware reset (spec/70_reset_and_hazards.md R220, R221). The host and
the block alternate (R74): while a command is in flight a host access to payload memory and a further command byte are
REFUSED by name, as entry U4 of spec/93 asks ("the model has no such step"). -/

namespace Sys2Proof.Machine

/-- A command is in flight (R63, R74): all its bytes have arrived and its response has not been written yet, that is, a whole
command, or a reserved opcode byte, stands on the command port. While a command is incomplete it is not taken and has no
effect (R83, entry U7 of spec/93), and the host goes on to send its bytes. -/
def inFlight (s : State) : Bool :=
  match decode s.cmd with
  | .command _ _ => true
  | .reserved _ _ => true
  | .incomplete => false

/-- The host writes one byte to the command port (R60, R80); refused while a command is in flight (R74, U4). -/
def hostSendByte (b : Byte) (s : State) : Host.Outcome State Fault Refusal :=
  if inFlight s then .refused .commandInFlight else .next { s with cmd := s.cmd ++ [b] }

/-- The host writes bytes to the command port, one after the other, with no step of the block between them; so they are the
bytes of one command at most (R60: "one whole command ... and nothing else"; R74). -/
def hostSend : List Byte → State → Host.Outcome State Fault Refusal
  | [], s => .next s
  | b :: bs, s =>
    match hostSendByte b s with
    | .next t => hostSend bs t
    | .fault r => .fault r
    | .refused r => .refused r

/-- The host reads the response port: the bytes that were there, and the state without them (R60). -/
def hostTake (s : State) : List Byte × State := (s.rsp, { s with rsp := [] })

/-- The host writes one byte of payload memory, "but only between commands" (R61): with nothing of a command on the command
port. Otherwise it is refused (R74, U4; assumption 14, DEDUCED). -/
def hostWrite (a : Nat) (v : Byte) (s : State) : Host.Outcome State Fault Refusal :=
  if s.cmd ≠ [] then .refused .commandInFlight
  else if a < s.par.pmemSize then .next (s.writeByte a v)
  else .fault (.noSuchAddress a)

/-- The host reads one byte of payload memory, "but only between commands" (R61): with nothing of a command on the command
port. Otherwise it is refused (R74, U4; assumption 14, DEDUCED). A read changes nothing (R70). -/
def hostRead (a : Nat) (s : State) : Host.Outcome Byte Fault Refusal :=
  if s.cmd ≠ [] then .refused .commandInFlight
  else if a < s.par.pmemSize then .next (s.readByte a)
  else .fault (.noSuchAddress a)

/-- Hardware reset (R220, R221): every register, flag and table entry goes to its reset value, payload memory is
unspecified afresh, the decoder is at a command boundary and no response is pending. -/
def hardwareReset (s : State) : State := State.resetWith s.par (s.epoch + 1)

end Sys2Proof.Machine
end

