-- ==== Sys2Proof/Safety/Frame.lean ====
section
/-! DEFINITION. The words statements use for what a command leaves unchanged and what it answers. -/

namespace Sys2Proof.Safety

open Sys2Proof.Machine

/-- Every byte of payload memory reads as before. -/
def SameMemory (s t : State) : Prop := ∀ a, t.readByte a = s.readByte a

/-- Every byte of payload memory outside `[a, a+n)` reads as before. -/
def SameMemoryOutside (a n : Nat) (s t : State) : Prop := ∀ b, (b < a ∨ a + n ≤ b) → t.readByte b = s.readByte b

/-- Every cipher-engine context but `c` is as before. -/
def SameContextsBut (c : Nat) (s t : State) : Prop := ∀ c', c' ≠ c → t.ctx c' = s.ctx c'

/-- Every cipher-engine context is as before. -/
def SameContexts (s t : State) : Prop := ∀ c, t.ctx c = s.ctx c

/-- Every entry of the PID role table but that of `p` is as before. -/
def SameMapBut (p : Nat) (s t : State) : Prop := ∀ q, q ≠ p → t.mapAt q = s.mapAt q

/-- The PID role table is as before. -/
def SameMap (s t : State) : Prop := ∀ q, t.mapAt q = s.mapAt q

/-- Every program slot but `i` is as before. -/
def SameProgsBut (i : Nat) (s t : State) : Prop := ∀ j, j ≠ i → t.progAt j = s.progAt j

/-- Every program slot is as before. -/
def SameProgs (s t : State) : Prop := ∀ j, t.progAt j = s.progAt j

/-- Every decryptor slot but `d` is as before. -/
def SameDecsBut (d : Nat) (s t : State) : Prop := ∀ j, j ≠ d → t.decAt j = s.decAt j

/-- Every decryptor slot is as before. -/
def SameDecs (s t : State) : Prop := ∀ j, t.decAt j = s.decAt j

/-- The tables of unit DX are as before. -/
def SameTables (s t : State) : Prop := SameMap s t ∧ SameProgs s t ∧ SameDecs s t

/-- What no command changes: the parameters of the machine, the reset count, and the commands still waiting. -/
def SameRest (s t : State) : Prop := t.par = s.par ∧ t.epoch = s.epoch ∧ t.cmd = s.cmd

/-- The response of the command is `bs`, after whatever the host has not read yet. -/
def Answers (bs : List Byte) (s t : State) : Prop := t.rsp = s.rsp ++ bs

/-- The command ends with an error of unit CE: the response is the one byte `st` and nothing else changes. -/
def FailsCe (st : Byte) (i : Instr) (s : State) : Prop := exec i s = .next { s with rsp := s.rsp ++ [st] }

/-- The command ends with an error of unit DX: the response is `st` and the phase, and nothing else changes. -/
def FailsDx (st : Byte) (i : Instr) (s : State) : Prop :=
  exec i s = .next { s with rsp := s.rsp ++ [st, phaseCode s.pipe.phase] }

/-- Whether a command belongs to unit CE: the opcode bytes below 0x20 (R82, R84). -/
def isCe : Instr → Bool
  | .setSystemKey _ _ => true
  | .setInitVector _ _ => true
  | .setDataKey _ _ => true
  | .clearDataKey _ => true
  | .setRound _ _ => true
  | .encrypt _ _ _ _ => true
  | .decrypt _ _ _ _ => true
  | .dmxReset => false
  | .dmxConfig _ _ => false
  | .dmxUnit _ => false
  | .dmxPacket _ => false
  | .patBegin => false
  | .progAdd _ _ => false
  | .roleSet _ _ => false
  | .pmtBegin _ _ => false
  | .decOpen _ => false
  | .strmBind _ _ _ _ => false
  | .pmtEnd _ => false
  | .ecmBegin _ => false
  | .ecmDone _ _ _ _ => false
  | .emmOk => false
  | .dmxQuery _ => false

/-- The number of result bytes a DX command answers after STATUS and PHASE when it ends with OK (R95). -/
def resultLength : Instr → Nat
  | .setSystemKey _ _ => 0
  | .setInitVector _ _ => 0
  | .setDataKey _ _ => 0
  | .clearDataKey _ => 0
  | .setRound _ _ => 0
  | .encrypt _ _ _ _ => 0
  | .decrypt _ _ _ _ => 0
  | .dmxReset => 0
  | .dmxConfig _ _ => 0
  | .dmxUnit _ => 0
  | .dmxPacket _ => 9
  | .patBegin => 0
  | .progAdd _ _ => 1
  | .roleSet _ _ => 0
  | .pmtBegin _ _ => 0
  | .decOpen _ => 2
  | .strmBind _ _ _ _ => 1
  | .pmtEnd _ => 0
  | .ecmBegin _ => 1
  | .ecmDone _ _ _ _ => 1
  | .emmOk => 0
  | .dmxQuery _ => 29

/-- The checks of R130 pass: the operand fields, then the three prerequisites. -/
def ChainReady (t : BitVec 2) (c a n : Nat) (s : State) : Prop :=
  c < s.par.nCtx ∧ 1 ≤ n ∧ a + n ≤ s.par.pmemSize ∧ (t = 2 ∨ t = 3 ∨ s.par.reservedT = .index0) ∧
    (s.ctx c).st.iv = true ∧ (s.ctx c).st.sk = true ∧ (s.ctx c).st.dk = true

end Sys2Proof.Safety
end

