-- ==== Sys2Proof/Safety/Payload.lean ====
section
/-! DEFINITION. What ENCRYPT and DECRYPT do to a payload, as functions of its bytes alone: the equations that
spec/42_chaining_commands.md R131 to R134 quote, without the memory and without the order of accesses. Statements compare the
machine's in-place loop with these. -/

namespace Sys2Proof.Safety

open Sys2Proof.Machine

/-- The tail: each byte XORed with the keystream `bytes_blk(enc_block(CBC, W, r))`, first byte with first byte (R133). -/
def payloadTail (w : Words8) (r : Nat) (cbc : Block) (tail : List Byte) : List Byte :=
  List.zipWith (· ^^^ ·) tail (bytes8List (bytesBlk (encBlock cbc w r)))

/-- "ciphertext[i] = Encrypt(plaintext[i] XOR ciphertext[i-1]), with ciphertext[-1] = IV", then the tail (R132). -/
def payloadEncrypt (w : Words8) (r : Nat) (cbc : Block) : List Byte → List Byte
  | b0 :: b1 :: b2 :: b3 :: b4 :: b5 :: b6 :: b7 :: rest =>
    let c := encBlock ((blk ⟨b0, b1, b2, b3, b4, b5, b6, b7⟩).xor cbc) w r
    bytes8List (bytesBlk c) ++ payloadEncrypt w r c rest
  | tail => payloadTail w r cbc tail

/-- "plaintext[i] = Decrypt(ciphertext[i]) XOR ciphertext[i-1]" with ciphertext[-1] = IV, then the tail (R134). -/
def payloadDecrypt (w : Words8) (r : Nat) (cbc : Block) : List Byte → List Byte
  | b0 :: b1 :: b2 :: b3 :: b4 :: b5 :: b6 :: b7 :: rest =>
    let c := blk ⟨b0, b1, b2, b3, b4, b5, b6, b7⟩
    bytes8List (bytesBlk ((decBlock c w r).xor cbc)) ++ payloadDecrypt w r c rest
  | tail => payloadTail w r cbc tail

end Sys2Proof.Safety
end

