-- ==== Sys2Proof/Safety.lean ====
section
/-! DEFINITION. What every run of the block keeps: the canonical form of the stored data, and the invariants that
spec/10_state.md (R31 to R45, R48) and spec/44_demux_tables.md (R162) give the registers and tables. -/

namespace Sys2Proof.Safety

open Sys2Proof.Machine Sys2Proof.Config

/-- The stored data is in its one canonical form: indices strictly rising and in range, and no default listed. -/
structure Canonical (s : State) : Prop where
  pmemRising : Table.Rising s.pmem
  pmemBelow : Table.Below s.par.pmemSize s.pmem
  ceRising : Table.Rising s.ce
  ceBelow : Table.Below s.par.nCtx s.ce
  ceNoDefault : Table.NoDefault Context.reset s.ce
  mapRising : Table.Rising s.map
  mapBelow : Table.Below 8192 s.map
  mapNoDefault : Table.NoDefault MapEntry.reset s.map
  progRising : Table.Rising s.prog
  progBelow : Table.Below s.par.nProg s.prog
  progNoDefault : Table.NoDefault ProgSlot.reset s.prog
  decRising : Table.Rising s.dec
  decBelow : Table.Below s.par.nCtx s.dec
  decNoDefault : Table.NoDefault DecSlot.reset s.dec

/-- What a context always satisfies: the round count is legal (R31), and a register whose flag is 0 holds its reset value
(R48, R123). -/
structure ContextOk (x : Context) : Prop where
  round : x.round ≠ 0
  noIv : x.st.iv = false → x.iv = .zero
  noSk : x.st.sk = false → x.sk = .zero
  noDk : x.st.dk = false → x.dk0 = .zero ∧ x.dk1 = .zero ∧ x.wk0 = .zero ∧ x.wk1 = .zero

/-- Every context is in order, and so is the round count given to new decryptors (R31, R32). -/
def ContextsOk (s : State) : Prop := (∀ c, ContextOk (s.ctx c)) ∧ s.pipe.cfg.round ≠ 0

/-- The pipeline registers agree with the phase: UNIT is 0 in phase 0 and at least 188 otherwise (R35), BUDGET is 0 outside
the acquisition phases (R34) and never above the limit of its phase (R153). -/
structure PipeOk (s : State) : Prop where
  unitPhase : s.pipe.phase = .unit → s.pipe.unit = 0 ∧ s.pipe.budget = 0
  unitSize : s.pipe.phase ≠ .unit → 188 ≤ s.pipe.unit.toNat
  patBudget : s.pipe.phase = .pat → s.pipe.budget ≤ s.par.budgetPat
  pmtBudget : s.pipe.phase = .pmt → s.pipe.budget ≤ s.par.budgetPmt
  ecmBudget : s.pipe.phase = .ecm → s.pipe.budget ≤ s.par.budgetEcm
  steadyBudget : s.pipe.phase = .steady → s.pipe.budget = 0

/-- How often a PID stands in a stream list. -/
def listRefs (p : Nat) (es : List StreamElem) : Nat := es.countP fun e => decide (e.pid.toNat = p)

/-- How often a PID stands in the lists `STREAMS` and `OLD` of the valid programs (R162 (a)). -/
def streamRefs (s : State) (p : Nat) : Nat :=
  ((validProgs s).map fun i => listRefs p (s.progAt i).streams + listRefs p (s.progAt i).old).sum

/-- The number of `MAP` entries with `ROLE = OTHER` and `LINK = DEC d` (R162 (c)). -/
def boundPids (s : State) (d : Nat) : Nat := s.map.countP fun e => decide (e.2.role = .other ∧ e.2.link = .dec d)

/-- What an entry of the PID role table always satisfies (R38 (b), R39, R162 (a), (b), (d)). -/
def EntryOk (s : State) (p : Nat) (e : MapEntry) : Prop :=
  match e.role with
  | .unknown => e.ref = 0 ∧ e.link = .none ∧ streamRefs s p = 0
  | .pat => p = 0 ∧ e.ref = 1 ∧ e.link = .none ∧ streamRefs s p = 0
  | .cat => e.ref = 1 ∧ e.link = .none ∧ streamRefs s p = 0
  | .emm => e.ref = 1 ∧ e.link = .none ∧ streamRefs s p = 0
  | .pmt =>
    e.ref = 1 ∧ streamRefs s p = 0 ∧
      ∃ i, e.link = .prog i ∧ progValid s i = true ∧ (s.progAt i).pmtPid.toNat = p
  | .ecm =>
    e.ref = 1 ∧ streamRefs s p = 0 ∧
      ∃ d, e.link = .dec d ∧ decValid s d = true ∧ (s.decAt d).ecmPid.toNat = p
  | .other =>
    1 ≤ e.ref ∧ e.ref = streamRefs s p ∧ (e.link = .none ∨ ∃ d, e.link = .dec d ∧ decValid s d = true)

/-- The invariants of the tables `MAP`, `PROG` and `DEC` (R36 to R45, R50, R51, R162, R167). -/
structure TopologyOk (s : State) : Prop where
  /-- Every entry is in order. -/
  entry : ∀ p, EntryOk s p (s.mapAt p)
  /-- PID 0 is the PAT (R50). -/
  patPid : (s.mapAt 0).role = .pat
  /-- At most one PID holds the CAT role (R167). -/
  oneCat : ∀ p q, (s.mapAt p).role = .cat → (s.mapAt q).role = .cat → p = q
  /-- At most one PID holds the EMM role (R167). -/
  oneEmm : ∀ p q, (s.mapAt p).role = .emm → (s.mapAt q).role = .emm → p = q
  /-- A valid program holds the PMT role of its PMT PID (R39, R166). -/
  progRole : ∀ i, (s.progAt i).valid = true →
    i < s.par.nProg ∧ (s.mapAt (s.progAt i).pmtPid.toNat).role = .pmt ∧
      (s.mapAt (s.progAt i).pmtPid.toNat).link = .prog i
  /-- A valid decryptor holds the ECM role of its ECM PID (R39, R170), so that no two have the same (R45). -/
  decRole : ∀ d, (s.decAt d).valid = true →
    d < s.par.nCtx ∧ (s.mapAt (s.decAt d).ecmPid.toNat).role = .ecm ∧
      (s.mapAt (s.decAt d).ecmPid.toNat).link = .dec d
  /-- `DEC[d].REF` counts the PIDs linked to `d` (R162 (c)). -/
  decRef : ∀ d, (s.decAt d).valid = true → (s.decAt d).ref = boundPids s d
  /-- A slot that is not valid holds its reset value (R51). -/
  progFree : ∀ i, (s.progAt i).valid = false → s.progAt i = .reset
  /-- A slot that is not valid holds its reset value (R51). -/
  decFree : ∀ d, (s.decAt d).valid = false → s.decAt d = .reset
  /-- Neither list of a program is longer than `N_STRM` (R40). -/
  listLength : ∀ i, (s.progAt i).streams.length ≤ s.par.nStrm ∧ (s.progAt i).old.length ≤ s.par.nStrm

/-- All of it together. -/
structure Sound (s : State) : Prop where
  canonical : Canonical s
  contexts : ContextsOk s
  pipe : PipeOk s
  topology : TopologyOk s

end Sys2Proof.Safety
end

