-- ==== Sys2Proof/Safety/Demux.lean ====
section
/-! DEFINITION. The words statements use for unit DX, written from the spec's prose and not from the model's searches: which
slot a selector names (spec/30_encoding.md R90, spec/44_demux_tables.md R173), when a phase is complete and what `advance()`
then does (R183), which packets are examined (spec/43_demux_packet.md R145), and the response fields (R146). -/

namespace Sys2Proof.Safety

open Sys2Proof.Machine

/-! ### Slots -/

/-- `P` names a valid program slot (R90). -/
def ProgAt (s : State) (i : Nat) : Prop := i < s.par.nProg ∧ (s.progAt i).valid = true

/-- `D` names a valid decryptor slot (R90). -/
def DecAt (s : State) (d : Nat) : Prop := d < s.par.nCtx ∧ (s.decAt d).valid = true

/-- `i` is the lowest free program slot (R166). -/
def LowestFreeProg (s : State) (i : Nat) : Prop :=
  i < s.par.nProg ∧ (s.progAt i).valid = false ∧ ∀ j, j < i → (s.progAt j).valid = true

/-- `d` is the lowest free decryptor slot (R170). -/
def LowestFreeDec (s : State) (d : Nat) : Prop :=
  d < s.par.nCtx ∧ (s.decAt d).valid = false ∧ ∀ j, j < d → (s.decAt j).valid = true

/-- Exactly one decryptor slot is valid, and it is `x` (R173, SOLE). -/
def SoleDec (s : State) (x : Nat) : Prop := DecAt s x ∧ ∀ y, DecAt s y → y = x

/-- The selector `d` of STRM_BIND stands for the link `l` (R173): a valid slot, else 0xFF = NONE, else 0xFE = SOLE. -/
def Selects (s : State) (d : Byte) (l : Link) : Prop :=
  (DecAt s d.toNat ∧ l = .dec d.toNat) ∨
  (¬ DecAt s d.toNat ∧ d = 0xFF ∧ l = .none) ∨
  (¬ DecAt s d.toNat ∧ d = 0xFE ∧ ((∃ x, SoleDec s x ∧ l = .dec x) ∨ ((∀ x, ¬ SoleDec s x) ∧ l = .none)))

/-! ### The phase machine -/

/-- Every valid program has been parsed at least once (R183). -/
def AllProgsParsed (s : State) : Prop := ∀ i, ProgAt s i → (s.progAt i).phase ≠ .notParsed

/-- Every valid decryptor has been parsed at least once (R183). -/
def AllDecsParsed (s : State) : Prop := ∀ d, DecAt s d → (s.decAt d).phase ≠ .notParsed

/-- `advance()` would change the phase (R183). -/
def AdvanceDue (s : State) : Prop :=
  (s.pipe.phase = .pmt ∧ AllProgsParsed s) ∨ (s.pipe.phase = .ecm ∧ AllDecsParsed s)

/-- The pipeline registers of `t` are those of `s` after `advance()` over the tables of `t` (R183): phase 2 to 3 when every
program is parsed, then 3 to 4 when every decryptor is, each with `BUDGET` cleared; otherwise nothing. -/
def Advanced (s t : State) : Prop :=
  (s.pipe.phase = .pmt → AllProgsParsed t → ¬ AllDecsParsed t → t.pipe = { s.pipe with phase := .ecm, budget := 0 }) ∧
  (s.pipe.phase = .pmt → AllProgsParsed t → AllDecsParsed t → t.pipe = { s.pipe with phase := .steady, budget := 0 }) ∧
  (s.pipe.phase = .pmt → ¬ AllProgsParsed t → t.pipe = s.pipe) ∧
  (s.pipe.phase = .ecm → AllDecsParsed t → t.pipe = { s.pipe with phase := .steady, budget := 0 }) ∧
  (s.pipe.phase = .ecm → ¬ AllDecsParsed t → t.pipe = s.pipe) ∧
  (s.pipe.phase ≠ .pmt → s.pipe.phase ≠ .ecm → t.pipe = s.pipe)

/-- An acquisition phase: 1, 2 or 3 (R145). -/
def Acquiring (s : State) : Prop := s.pipe.phase = .pat ∨ s.pipe.phase = .pmt ∨ s.pipe.phase = .ecm

/-! ### Packets -/

/-- DMX_PACKET at `a` reaches step 4 of R145: the packet is in bounds, a unit size is known, and no phase change is due. -/
def Submitted (a : Nat) (s : State) : Prop := a + 188 ≤ s.par.pmemSize ∧ s.pipe.phase ≠ .unit ∧ ¬ AdvanceDue s

/-- Charging one unit keeps the budget of the phase (R153). -/
def WithinBudget (s : State) : Prop :=
  (s.pipe.phase = .pat → s.pipe.budget + s.pipe.unit.toNat ≤ s.par.budgetPat) ∧
  (s.pipe.phase = .pmt → s.pipe.budget + s.pipe.unit.toNat ≤ s.par.budgetPmt) ∧
  (s.pipe.phase = .ecm → s.pipe.budget + s.pipe.unit.toNat ≤ s.par.budgetEcm)

/-- DMX_PACKET at `a` reaches step 6 of R145: the sync byte is there and the budget is not used up. -/
def Examined (a : Nat) (s : State) : Prop := Submitted a s ∧ (headerAt s a).sync = 0x47 ∧ WithinBudget s

/-- A null packet that the steady state drops (R148, step 7). -/
def NullDropped (a : Nat) (s : State) : Prop :=
  s.pipe.phase = .steady ∧ (headerAt s a).pid = s.par.nullPid ∧ s.pipe.cfg.stripNull = true

/-- DMX_PACKET at `a` reaches step 9 of R145: neither TEI, nor a dropped null packet, nor corrupt. -/
def Classified (a : Nat) (s : State) : Prop :=
  Examined a s ∧ (headerAt s a).tei = false ∧ ¬ NullDropped a s ∧ (spanAt s a (headerAt s a)).corrupt = false

/-- Scrambled (R142): `SC` is 2 or 3 and the payload is not empty. -/
def Scrambled (a : Nat) (s : State) : Prop :=
  ((headerAt s a).sc = 2 ∨ (headerAt s a).sc = 3) ∧ 1 ≤ (spanAt s a (headerAt s a)).len

/-- The entry of a packet's PID. -/
def entryAt (s : State) (a : Nat) : MapEntry := s.mapAt (headerAt s a).pid.toNat

/-- The three conditions under which a scrambled packet is descrambled with decryptor `d` (R150). -/
def Resolves (a d : Nat) (s : State) : Prop :=
  (entryAt s a).role = .other ∧ (entryAt s a).link = .dec d ∧ (s.ctx d).st.dk = true

/-- The acquisition scan routes the packet to a section reassembler (R153). -/
def ScanWanted (a : Nat) (s : State) : Prop :=
  ¬ Scrambled a s ∧ 1 ≤ (spanAt s a (headerAt s a)).len ∧
    ((s.pipe.phase = .pat ∧ (entryAt s a).role = .pat) ∨
     (s.pipe.phase = .pmt ∧ (entryAt s a).role = .pmt ∧
        ∃ i, (entryAt s a).link = .prog i ∧ (s.progAt i).phase ≠ .stable) ∨
     (s.pipe.phase = .ecm ∧ (entryAt s a).role = .ecm ∧
        ∃ d, (entryAt s a).link = .dec d ∧ (s.decAt d).phase ≠ .stable))

/-- The steady state routes the clear packet to a section reassembler (R152). -/
def SectionWanted (a : Nat) (s : State) : Prop :=
  1 ≤ (spanAt s a (headerAt s a)).len ∧
    ((entryAt s a).role = .pat ∨ (entryAt s a).role = .pmt ∨ (entryAt s a).role = .ecm ∨
      (((entryAt s a).role = .cat ∨ (entryAt s a).role = .emm) ∧ s.pipe.cfg.emmEn = true))

/-- The nine result bytes of DMX_PACKET (R146) for the packet at `a`: VERDICT, ROUTE, ROLE, LINKK, LINKI, PUSI, PADDR, PLEN.
A PADDR of 65536 or more and a slot index of 256 or more give free values (assumptions 6 and 7). -/
def packetFields (verdict route : Byte) (a : Nat) (s : State) : List Byte :=
  [verdict, route, roleCode (entryAt s a).role, linkKind (entryAt s a).link, linkIndex (entryAt s a).link,
    if (headerAt s a).pusi then 1 else 0] ++
    bytesBe16 (paddrField (a + (spanAt s a (headerAt s a)).off)) ++
    [BitVec.ofNat 8 (spanAt s a (headerAt s a)).len]

/-- A verdict with "others 0" (R146). -/
def bareFields (verdict : Byte) : List Byte := [verdict, 0, 0, 0, 0, 0, 0, 0, 0]

/-! ### Queries -/

/-- The PIDs of a stream list, in order (R182). -/
def listedPids (s : State) (i : Nat) : List Nat := (s.progAt i).streams.map fun e => e.pid.toNat

/-- The decryptors the entries of a stream list link, in the order of the list (R182). -/
def listedDecs (s : State) (i : Nat) : List Nat :=
  (listedPids s i).filterMap fun p =>
    match (s.mapAt p).role, (s.mapAt p).link with
    | .other, .dec d => some d
    | _, _ => none

/-! ### What may change -/

/-- The addresses of payload memory a command may read (R61). -/
def InReach (i : Instr) (b : Nat) : Prop :=
  (∃ t c a n, (i = .encrypt t c a n ∨ i = .decrypt t c a n) ∧ a.toNat ≤ b ∧ b < a.toNat + n.toNat) ∨
  (∃ a, i = .dmxPacket a ∧ a.toNat ≤ b ∧ b < a.toNat + 188)

/-- The addresses of payload memory a command may write in the state `s` (R61): for DMX_PACKET the byte that holds the
scrambling control, and the payload. -/
def MayWrite (i : Instr) (s : State) (b : Nat) : Prop :=
  (∃ t c a n, (i = .encrypt t c a n ∨ i = .decrypt t c a n) ∧ a.toNat ≤ b ∧ b < a.toNat + n.toNat) ∨
  (∃ a, i = .dmxPacket a ∧
    (b = a.toNat + 3 ∨ a.toNat + (spanAt s a.toNat (headerAt s a.toNat)).off ≤ b ∧ b < a.toNat + 188))

/-- Every register of a context but its round count has the reset value (R44). -/
def Reinitialised (x : Context) : Prop := ∃ r, x = { Context.reset with round := r }

/-- The commands that re-initialise contexts of decryptors (R220). -/
def reinitialises : Instr → Prop
  | .setSystemKey _ _ => False
  | .setInitVector _ _ => False
  | .setDataKey _ _ => False
  | .clearDataKey _ => False
  | .setRound _ _ => False
  | .encrypt _ _ _ _ => False
  | .decrypt _ _ _ _ => False
  | .dmxReset => True
  | .dmxConfig _ _ => False
  | .dmxUnit _ => False
  | .dmxPacket _ => False
  | .patBegin => True
  | .progAdd _ _ => False
  | .roleSet _ _ => False
  | .pmtBegin _ _ => False
  | .decOpen _ => True
  | .strmBind _ _ _ _ => False
  | .pmtEnd _ => True
  | .ecmBegin _ => False
  | .ecmDone _ _ _ _ => False
  | .emmOk => False
  | .dmxQuery _ => False

/-- The statuses the table of R190 lets a command return, DMX_PACKET's budget errors in their phase only. -/
def returns (ph : Phase) : Instr → List Status
  | .setSystemKey _ _ => [.ok, .invalidParameter]
  | .setInitVector _ _ => [.ok, .invalidParameter]
  | .setDataKey _ _ => [.ok, .invalidParameter]
  | .clearDataKey _ => [.ok, .invalidParameter]
  | .setRound _ _ => [.ok, .invalidParameter]
  | .encrypt _ _ _ _ => [.ok, .invalidParameter, .unsetInitVector, .unsetSystemKey, .unsetDataKey]
  | .decrypt _ _ _ _ => [.ok, .invalidParameter, .unsetInitVector, .unsetSystemKey, .unsetDataKey]
  | .dmxReset => [.ok]
  | .dmxConfig _ _ => [.ok, .invalidParameter]
  | .dmxUnit _ => [.ok, .invalidParameter, .badSequence]
  | .dmxPacket _ =>
    match ph with
    | .unit => [.invalidParameter, .badSequence]
    | .pat => [.ok, .invalidParameter, .noPatFound]
    | .pmt => [.ok, .invalidParameter, .noPmtFound]
    | .ecm => [.ok, .invalidParameter, .noEcmFound]
    | .steady => [.ok, .invalidParameter, .decryptFailure]
  | .patBegin => [.ok, .badSequence]
  | .progAdd _ _ => [.ok, .invalidParameter, .badSequence, .outOfResources]
  | .roleSet _ _ => [.ok, .invalidParameter]
  | .pmtBegin _ _ => [.ok, .invalidParameter, .badSequence]
  | .decOpen _ => [.ok, .invalidParameter, .outOfResources]
  | .strmBind _ _ _ _ => [.ok, .invalidParameter, .outOfResources]
  | .pmtEnd _ => [.ok, .invalidParameter]
  | .ecmBegin _ => [.ok, .invalidParameter]
  | .ecmDone _ _ _ _ => [.ok, .invalidParameter, .ecmProcFailure]
  | .emmOk => [.ok, .badSequence]
  | .dmxQuery _ => [.ok, .invalidParameter]

/-- PMT_END of program `i` gives PID `p` back: the `OLD` list of `i` holds every reference on it (R175, R177). -/
def GivenBack (s : State) (i p : Nat) : Prop :=
  (s.mapAt p).role = .other ∧ (s.mapAt p).ref = listRefs p (s.progAt i).old

/-- The number of PIDs linked to decryptor `d` that PMT_END of program `i` gives back (R175, R177). -/
def lostPids (s : State) (i d : Nat) : Nat :=
  s.map.countP fun e => decide
    (e.2.role = .other ∧ e.2.link = .dec d ∧ e.2.ref = listRefs e.1 (s.progAt i).old)

/-- PMT_END of program `i` destroys decryptor `d` (R174, R177): every PID linked to it is given back. -/
def Destroyed (s : State) (i d : Nat) : Prop := DecAt s d ∧ (s.decAt d).ref = lostPids s i d

end Sys2Proof.Safety
end

