-- ==== Sys2Proof/WellFormed.lean ====
section
/-! DEFINITION. Which commands are well formed: every operand field has a value its rule allows
(spec/30_encoding.md R85 to R91), as far as that can be told without reading a register. -/

namespace Sys2Proof

open Sys2Proof.Config Sys2Proof.Machine

/-- The field rules of each command (R84, R85 to R91), under the parameters `p`. Whether a slot is valid is state and is
checked by the command itself (R90, R94). -/
def wellFormed (p : Params) (i : Instr) : Bool :=
  match i with
  | .setSystemKey ctx _ => ctxOk p ctx.toNat
  | .setInitVector ctx _ => ctxOk p ctx.toNat
  | .setDataKey ctx _ => ctxOk p ctx.toNat
  | .clearDataKey ctx => ctxOk p ctx.toNat
  | .setRound ctx n => ctxOk p ctx.toNat && roundOk n
  | .encrypt t ctx addr len => ctxOk p ctx.toNat && rangeOk p addr.toNat len.toNat && tOk p t
  | .decrypt t ctx addr len => ctxOk p ctx.toNat && rangeOk p addr.toNat len.toNat && tOk p t
  | .dmxReset => true
  | .dmxConfig flags n => flagsOk flags && roundOk n
  | .dmxUnit size => sizeOk size
  | .dmxPacket addr => packetOk p addr.toNat
  | .patBegin => true
  | .progAdd _ pid => pidOk pid
  | .roleSet pid role => pidOk pid && roleOk role
  | .pmtBegin slot pcr => progFieldOk p slot && pidOk pcr
  | .decOpen pid => pidOk pid
  | .strmBind slot pid _ d => progFieldOk p slot && pidOk pid && selFieldOk p d
  | .pmtEnd slot => progFieldOk p slot
  | .ecmBegin d => decFieldOk p d
  | .ecmDone d fail _ _ => decFieldOk p d && failOk fail
  | .emmOk => true
  | .dmxQuery slot => queryFieldOk p slot

end Sys2Proof
end

