-- ==== Sys2Proof/Certificates/Slice0/Obligations.lean ====
section
/-! DEFINITION. The statements for the provers. Each says which rule of the spec it formalises; the words they use are in
Sys2Proof/Safety.lean and Sys2Proof/Safety/. -/

section

open Sys2Proof Sys2Proof.Machine Sys2Proof.Config Sys2Proof.Safety

/-! ### Commands and responses -/

/-- R80, R81, R84: the bytes of a command decode to it, whatever follows them, for every value of every operand field. -/
def Obligations.DecodeOfEncode : Prop := ∀ (i : Instr) (rest : List Byte), decode (encode i ++ rest) = .command i rest

/-- R80, R81, R84: every byte of a command that decodes is accounted for: the bytes taken are the command's encoding. -/
def Obligations.EncodeOfDecode : Prop :=
  ∀ (bs : List Byte) (i : Instr) (rest : List Byte), decode bs = .command i rest → bs = encode i ++ rest

/-- R83: the opcode byte alone fixes how many bytes a command has; with fewer it is not taken, and the step has no effect;
with as many it is. -/
def Obligations.OpcodeByteFixesLength : Prop :=
  ∀ (s : State) (b : Byte) (r : List Byte), s.cmd = b :: r →
    (s.cmd.length < commandLength b → step s = .next s) ∧
    (commandLength b ≤ s.cmd.length → opcodeRow b ≠ none →
      ∃ i, decode s.cmd = .command i (s.cmd.drop (commandLength b)) ∧ encode i = s.cmd.take (commandLength b)) ∧
    (opcodeRow b = none → commandLength b = 1)

/-- R92: which opcode bytes are reserved, and what each does: it is consumed alone, answered with `IllegalCommand` (0x05),
and changes no state and no memory. -/
def Obligations.ReservedOpcodeIsIllegalCommand : Prop :=
  ∀ (s : State) (b : Byte) (r : List Byte), s.cmd = b :: r →
    (b = 0x00 ∨ (0x06 ≤ b.toNat ∧ b.toNat ≤ 0x0F) ∨ (0x18 ≤ b.toNat ∧ b.toNat ≤ 0x1F) ∨ 0x2F ≤ b.toNat →
      step s = .next { s with cmd := r, rsp := s.rsp ++ [0x05] }) ∧
    (¬ (b = 0x00 ∨ (0x06 ≤ b.toNat ∧ b.toNat ≤ 0x0F) ∨ (0x18 ≤ b.toNat ∧ b.toNat ≤ 0x1F) ∨ 0x2F ≤ b.toNat) →
      ∃ row, row ∈ opcodeTable ∧ b &&& row.mask = row.pattern ∧
        ∀ other, other ∈ opcodeTable → b &&& other.mask = other.pattern → other = row)

/-- R15, R63: when the bytes at the front of the command port decode to a command, the step takes them off the port and is
that command's effect; when they are not yet a whole command, nothing happens (R83). -/
def Obligations.StepRunsDecodedCommand : Prop :=
  ∀ s : State,
    (∀ i rest, decode s.cmd = .command i rest → step s = exec i { s with cmd := rest }) ∧
    (decode s.cmd = .incomplete → step s = .next s)

/-- Worked examples of the spec (R96, R124, R145, R157, R165, R166, R170, R171): the bytes printed there are the commands
printed there. -/
def Obligations.PublishedBytesDecode : Prop :=
  decode [0x16, 0x00, 0x01, 0x04, 0x00, 0xB8] = .command (.decrypt 2 0x00 0x0104 0x00B8) [] ∧
  decode [0x05, 0x00, 0x10] = .command (.setRound 0x00 0x10) [] ∧
  decode [0x23, 0x03, 0x00] = .command (.dmxPacket 0x0300) [] ∧
  decode [0x22, 0x00, 0xBC] = .command (.dmxUnit 0x00BC) [] ∧
  decode [0x24] = .command .patBegin [] ∧
  decode [0x25, 0x00, 0x64, 0x00, 0x20] = .command (.progAdd 0x0064 0x0020) [] ∧
  decode [0x28, 0x00, 0x30] = .command (.decOpen 0x0030) [] ∧
  decode [0x29, 0x00, 0x00, 0x41, 0x02, 0x00] = .command (.strmBind 0x00 0x0041 0x02 0x00) []

/-- R15, R190, R191: a command never stops the machine. Every command in every state, and every step, answers a next
state. -/
def Obligations.EveryCommandAnswers : Prop :=
  (∀ (i : Instr) (s : State), ∃ t, exec i s = .next t) ∧ (∀ s : State, ∃ t, step s = .next t)

/-- R82, R95: one response per command, appended to what the host has not read: one byte for a command of unit CE; for a DX
command the status, the phase as it stands after the command, and the result fields when the status is OK. -/
def Obligations.ResponseForm : Prop :=
  ∀ (i : Instr) (s t : State), exec i s = .next t →
    (isCe i = true → ∃ st, t.rsp = s.rsp ++ [st]) ∧
    (isCe i = false → ∃ st fields, t.rsp = s.rsp ++ (st :: phaseCode t.pipe.phase :: fields) ∧
      fields.length = if st = 0x00 then resultLength i else 0)

/-- R201: a command that answers a status other than OK leaves the state as it was, but for its response; the one exception
is ECM_DONE with FAIL = 1, which clears the data key and nothing else (R200). -/
def Obligations.ErrorHasNoEffect : Prop :=
  ∀ (i : Instr) (s t : State) (st : Byte) (r : List Byte),
    exec i s = .next t → t.rsp = s.rsp ++ st :: r → st ≠ 0x00 →
      t = { s with rsp := t.rsp } ∨
      ∃ d rc key, i = .ecmDone d 1 rc key ∧ st = 0x17 ∧ DecAt s d.toNat ∧
        t = { s.setCtx d.toNat (clearDataKey (s.ctx d.toNat)) with rsp := t.rsp }

/-- R190, R202: a command answers only a status that the table of R190 gives it; no host-side code is ever answered. -/
def Obligations.StatusesOfEachCommand : Prop :=
  ∀ (i : Instr) (s t : State), exec i s = .next t →
    ∃ st r, t.rsp = s.rsp ++ statusCode st :: r ∧ st ∈ returns s.pipe.phase i ∧
      st ≠ .notATransportStream ∧ st ≠ .emptyCardHandle ∧ st ≠ .invalidPid

/-- R93, R192: no reserved operand value is accepted: a command with an ill-formed operand field ends with
`InvalidParameter` and nothing else happens. `T` = 0 and 1 are legal only under `RESERVED_T_POLICY = index0`, where they run
as `T` = 3 does. -/
def Obligations.ReservedOperandsAreInvalid : Prop :=
  (∀ (i : Instr) (s : State), wellFormed s.par i = false →
    (isCe i = true → FailsCe 0x01 i s) ∧ (isCe i = false → FailsDx 0x01 i s)) ∧
  (∀ (t : BitVec 2) (c : Byte) (a n : Half) (s : State), t.toNat < 2 →
    (s.par.reservedT = .fault → FailsCe 0x01 (.encrypt t c a n) s ∧ FailsCe 0x01 (.decrypt t c a n) s) ∧
    (s.par.reservedT = .index0 →
      exec (.encrypt t c a n) s = exec (.encrypt 3 c a n) s ∧ exec (.decrypt t c a n) s = exec (.decrypt 3 c a n) s))

/-! ### Unit CC -/

/-- R107: each round function is its own inverse for a fixed key. -/
def Obligations.RoundFunctionsSelfInverse : Prop :=
  (∀ b, pi1 (pi1 b) = b) ∧ (∀ b k, pi2 (pi2 b k) k = b) ∧ (∀ b k2 k3, pi3 (pi3 b k2 k3) k2 k3 = b) ∧
    ∀ b k, pi4 (pi4 b k) k = b

/-- R112: block decryption undoes block encryption and the other way round, for every work key and every round count; so
block encryption is a bijection on blocks. -/
def Obligations.BlockRoundTrip : Prop :=
  ∀ (w : Words8) (n : Nat),
    (∀ b, decBlock (encBlock b w n) w n = b) ∧ (∀ b, encBlock (decBlock b w n) w n = b) ∧
      Function.Bijective fun b => encBlock b w n

/-- R101: `rol32(x, 1) - x` is `x` when bit 31 of `x` is 0, and `x + 1` when it is 1. -/
def Obligations.RotateByOneMinusSelf : Prop :=
  ∀ x : Word, rol32 x 1 - x = if x.getLsbD 31 then x + 1 else x

/-! ### Unit CE: keys and configuration -/

/-- R120, R81, R88. SET_SYSTEM_KEY: its bytes in their order, its effect on `SK` and `ST.SK`, its frame, and its one error. -/
def Obligations.SetSystemKey : Prop :=
  ∀ (ctx : Byte) (k : Bytes32) (s : State),
    encode (.setSystemKey ctx k) =
      [0x01, ctx, k.q0.b0, k.q0.b1, k.q0.b2, k.q0.b3, k.q0.b4, k.q0.b5, k.q0.b6, k.q0.b7,
        k.q1.b0, k.q1.b1, k.q1.b2, k.q1.b3, k.q1.b4, k.q1.b5, k.q1.b6, k.q1.b7,
        k.q2.b0, k.q2.b1, k.q2.b2, k.q2.b3, k.q2.b4, k.q2.b5, k.q2.b6, k.q2.b7,
        k.q3.b0, k.q3.b1, k.q3.b2, k.q3.b3, k.q3.b4, k.q3.b5, k.q3.b6, k.q3.b7] ∧
    (ctx.toNat < s.par.nCtx → ∃ t, exec (.setSystemKey ctx k) s = .next t ∧
      t.ctx ctx.toNat =
        { s.ctx ctx.toNat with
          sk := ⟨be32 k.q0.b0 k.q0.b1 k.q0.b2 k.q0.b3, be32 k.q0.b4 k.q0.b5 k.q0.b6 k.q0.b7,
            be32 k.q1.b0 k.q1.b1 k.q1.b2 k.q1.b3, be32 k.q1.b4 k.q1.b5 k.q1.b6 k.q1.b7,
            be32 k.q2.b0 k.q2.b1 k.q2.b2 k.q2.b3, be32 k.q2.b4 k.q2.b5 k.q2.b6 k.q2.b7,
            be32 k.q3.b0 k.q3.b1 k.q3.b2 k.q3.b3, be32 k.q3.b4 k.q3.b5 k.q3.b6 k.q3.b7⟩
          st := { (s.ctx ctx.toNat).st with sk := true } } ∧
      SameContextsBut ctx.toNat s t ∧ SameMemory s t ∧ SameTables s t ∧ t.pipe = s.pipe ∧ SameRest s t ∧
      Answers [0x00] s t) ∧
    (s.par.nCtx ≤ ctx.toNat → FailsCe 0x01 (.setSystemKey ctx k) s)

/-- R121, R81, R88. SET_INIT_VECTOR: its bytes in their order, its effect on `IV` and `ST.IV`, its frame, and its one error. -/
def Obligations.SetInitVector : Prop :=
  ∀ (ctx : Byte) (v : Bytes8) (s : State),
    encode (.setInitVector ctx v) = [0x02, ctx, v.b0, v.b1, v.b2, v.b3, v.b4, v.b5, v.b6, v.b7] ∧
    (ctx.toNat < s.par.nCtx → ∃ t, exec (.setInitVector ctx v) s = .next t ∧
      t.ctx ctx.toNat =
        { s.ctx ctx.toNat with
          iv := ⟨be32 v.b0 v.b1 v.b2 v.b3, be32 v.b4 v.b5 v.b6 v.b7⟩
          st := { (s.ctx ctx.toNat).st with iv := true } } ∧
      SameContextsBut ctx.toNat s t ∧ SameMemory s t ∧ SameTables s t ∧ t.pipe = s.pipe ∧ SameRest s t ∧
      Answers [0x00] s t) ∧
    (s.par.nCtx ≤ ctx.toNat → FailsCe 0x01 (.setInitVector ctx v) s)

/-- R122, R81, R88. SET_DATA_KEY: its bytes in their order, its effect on `DK`, `WK` and `ST.DK` (whether or not `ST.SK` is set), its frame, and its
one error. -/
def Obligations.SetDataKey : Prop :=
  ∀ (ctx : Byte) (k : Bytes16) (s : State),
    encode (.setDataKey ctx k) =
      [0x03, ctx, k.odd.b0, k.odd.b1, k.odd.b2, k.odd.b3, k.odd.b4, k.odd.b5, k.odd.b6, k.odd.b7,
        k.even.b0, k.even.b1, k.even.b2, k.even.b3, k.even.b4, k.even.b5, k.even.b6, k.even.b7] ∧
    (ctx.toNat < s.par.nCtx → ∃ t d0 d1, exec (.setDataKey ctx k) s = .next t ∧
      d0 = Block.mk (be32 k.odd.b0 k.odd.b1 k.odd.b2 k.odd.b3) (be32 k.odd.b4 k.odd.b5 k.odd.b6 k.odd.b7) ∧
      d1 = Block.mk (be32 k.even.b0 k.even.b1 k.even.b2 k.even.b3) (be32 k.even.b4 k.even.b5 k.even.b6 k.even.b7) ∧
      t.ctx ctx.toNat =
        { s.ctx ctx.toNat with
          dk0 := d0
          dk1 := d1
          wk0 := schedule (s.ctx ctx.toNat).sk d0
          wk1 := schedule (s.ctx ctx.toNat).sk d1
          st := { (s.ctx ctx.toNat).st with dk := true } } ∧
      SameContextsBut ctx.toNat s t ∧ SameMemory s t ∧ SameTables s t ∧ t.pipe = s.pipe ∧ SameRest s t ∧
      Answers [0x00] s t) ∧
    (s.par.nCtx ≤ ctx.toNat → FailsCe 0x01 (.setDataKey ctx k) s)

/-- R123. CLEAR_DATA_KEY: its bytes, its effect on `DK`, `WK` and `ST.DK`, its frame, and its one error. -/
def Obligations.ClearDataKey : Prop :=
  ∀ (ctx : Byte) (s : State),
    encode (.clearDataKey ctx) = [0x04, ctx] ∧
    (ctx.toNat < s.par.nCtx → ∃ t, exec (.clearDataKey ctx) s = .next t ∧
      t.ctx ctx.toNat =
        { s.ctx ctx.toNat with
          dk0 := ⟨0, 0⟩
          dk1 := ⟨0, 0⟩
          wk0 := ⟨0, 0, 0, 0, 0, 0, 0, 0⟩
          wk1 := ⟨0, 0, 0, 0, 0, 0, 0, 0⟩
          st := { (s.ctx ctx.toNat).st with dk := false } } ∧
      SameContextsBut ctx.toNat s t ∧ SameMemory s t ∧ SameTables s t ∧ t.pipe = s.pipe ∧ SameRest s t ∧
      Answers [0x00] s t) ∧
    (s.par.nCtx ≤ ctx.toNat → FailsCe 0x01 (.clearDataKey ctx) s)

/-- R124. SET_ROUND: its bytes, its effect on `ROUND` alone, its frame, and its errors. -/
def Obligations.SetRound : Prop :=
  ∀ (ctx n : Byte) (s : State),
    encode (.setRound ctx n) = [0x05, ctx, n] ∧
    (ctx.toNat < s.par.nCtx → n ≠ 0 → ∃ t, exec (.setRound ctx n) s = .next t ∧
      t.ctx ctx.toNat = { s.ctx ctx.toNat with round := n } ∧
      SameContextsBut ctx.toNat s t ∧ SameMemory s t ∧ SameTables s t ∧ t.pipe = s.pipe ∧ SameRest s t ∧
      Answers [0x00] s t) ∧
    (s.par.nCtx ≤ ctx.toNat ∨ n = 0 → FailsCe 0x01 (.setRound ctx n) s)

/-! ### Unit CE: ENCRYPT and DECRYPT -/

/-- R130, R193, R196: the first failing check of ENCRYPT and DECRYPT decides the status, and nothing but the response
changes. -/
def Obligations.ChainCheckOrder : Prop :=
  ∀ (t : BitVec 2) (c : Byte) (a n : Half) (s : State) (i : Instr), i = .encrypt t c a n ∨ i = .decrypt t c a n →
    (s.par.nCtx ≤ c.toNat ∨ n.toNat = 0 ∨ s.par.pmemSize < a.toNat + n.toNat ∨
        (t.toNat < 2 ∧ s.par.reservedT = .fault) → FailsCe 0x01 i s) ∧
    (c.toNat < s.par.nCtx → 1 ≤ n.toNat → a.toNat + n.toNat ≤ s.par.pmemSize →
        (t = 2 ∨ t = 3 ∨ s.par.reservedT = .index0) →
      ((s.ctx c.toNat).st.iv = false → FailsCe 0x02 i s) ∧
      ((s.ctx c.toNat).st.iv = true → (s.ctx c.toNat).st.sk = false → FailsCe 0x03 i s) ∧
      ((s.ctx c.toNat).st.iv = true → (s.ctx c.toNat).st.sk = true → (s.ctx c.toNat).st.dk = false →
        FailsCe 0x04 i s))

/-- R132. ENCRYPT: "ciphertext[i] = Encrypt(plaintext[i] XOR ciphertext[i-1]), with ciphertext[-1] = IV" over the `n` bytes
at `a`, then the tail of R133, with the work key that R130 selects; no other byte and no register changes. -/
def Obligations.EncryptTransformsPayload : Prop :=
  ∀ (t : BitVec 2) (c : Byte) (a n : Half) (s : State),
    encode (.encrypt t c a n) = (0x10 ||| t.setWidth 8) :: c :: (bytesBe16 a ++ bytesBe16 n) ∧
    (ChainReady t c.toNat a.toNat n.toNat s → ∃ u, exec (.encrypt t c a n) s = .next u ∧
      u.readBytes a.toNat n.toNat =
        payloadEncrypt (if t = 2 then (s.ctx c.toNat).wk1 else (s.ctx c.toNat).wk0) (s.ctx c.toNat).round.toNat
          (s.ctx c.toNat).iv (s.readBytes a.toNat n.toNat) ∧
      SameMemoryOutside a.toNat n.toNat s u ∧ SameContexts s u ∧ SameTables s u ∧ u.pipe = s.pipe ∧ SameRest s u ∧
      Answers [0x00] s u)

/-- R134. DECRYPT: "plaintext[i] = Decrypt(ciphertext[i]) XOR ciphertext[i-1]" with ciphertext[-1] = IV over the `n` bytes at
`a`, then the tail of R133, with the work key that R130 selects; no other byte and no register changes. -/
def Obligations.DecryptTransformsPayload : Prop :=
  ∀ (t : BitVec 2) (c : Byte) (a n : Half) (s : State),
    encode (.decrypt t c a n) = (0x14 ||| t.setWidth 8) :: c :: (bytesBe16 a ++ bytesBe16 n) ∧
    (ChainReady t c.toNat a.toNat n.toNat s → ∃ u, exec (.decrypt t c a n) s = .next u ∧
      u.readBytes a.toNat n.toNat =
        payloadDecrypt (if t = 2 then (s.ctx c.toNat).wk1 else (s.ctx c.toNat).wk0) (s.ctx c.toNat).round.toNat
          (s.ctx c.toNat).iv (s.readBytes a.toNat n.toNat) ∧
      SameMemoryOutside a.toNat n.toNat s u ∧ SameContexts s u ∧ SameTables s u ∧ u.pipe = s.pipe ∧ SameRest s u ∧
      Answers [0x00] s u)

/-- R136, R70: DECRYPT after ENCRYPT with the same operands restores every byte, and ENCRYPT after DECRYPT does too. -/
def Obligations.ChainRoundTrip : Prop :=
  ∀ (t : BitVec 2) (c : Byte) (a n : Half) (s : State), t = 2 ∨ t = 3 → ChainReady t c.toNat a.toNat n.toNat s →
    (∃ u v, exec (.encrypt t c a n) s = .next u ∧ exec (.decrypt t c a n) u = .next v ∧ SameMemory s v) ∧
    (∃ u v, exec (.decrypt t c a n) s = .next u ∧ exec (.encrypt t c a n) u = .next v ∧ SameMemory s v)

/-- R137: the payload a command leaves depends on the `IV`, the selected work key, the round count and the payload alone: not
on the address, on another byte, on another register, or on any earlier command. -/
def Obligations.ChainCallsIndependent : Prop :=
  ∀ (t t' : BitVec 2) (c c' : Byte) (a a' n : Half) (s s' u u' : State),
    ChainReady t c.toNat a.toNat n.toNat s → ChainReady t' c'.toNat a'.toNat n.toNat s' →
    (s'.ctx c'.toNat).iv = (s.ctx c.toNat).iv → (s'.ctx c'.toNat).round = (s.ctx c.toNat).round →
    selectWorkKey t' (s'.ctx c'.toNat) = selectWorkKey t (s.ctx c.toNat) →
    s'.readBytes a'.toNat n.toNat = s.readBytes a.toNat n.toNat →
    (exec (.encrypt t c a n) s = .next u → exec (.encrypt t' c' a' n) s' = .next u' →
      u'.readBytes a'.toNat n.toNat = u.readBytes a.toNat n.toNat) ∧
    (exec (.decrypt t c a n) s = .next u → exec (.decrypt t' c' a' n) s' = .next u' →
      u'.readBytes a'.toNat n.toNat = u.readBytes a.toNat n.toNat)

/-- R132 (corner case): for a payload of fewer than 8 bytes ENCRYPT and DECRYPT are the same function. -/
def Obligations.ShortPayloadSameBothWays : Prop :=
  ∀ (t : BitVec 2) (c : Byte) (a n : Half) (s : State), n.toNat < 8 →
    exec (.encrypt t c a n) s = exec (.decrypt t c a n) s

/-! ### Unit DX: pipeline control -/

/-- R157. DMX_UNIT: the unit size is taken in phase 0 alone. -/
def Obligations.DmxUnit : Prop :=
  ∀ (size : Half) (s : State),
    encode (.dmxUnit size) = 0x22 :: bytesBe16 size ∧
    (188 ≤ size.toNat → s.pipe.phase = .unit → ∃ t, exec (.dmxUnit size) s = .next t ∧
      t.pipe = { s.pipe with unit := size, phase := .pat, budget := 0 } ∧
      SameContexts s t ∧ SameMemory s t ∧ SameTables s t ∧ SameRest s t ∧ Answers [0x00, 1] s t) ∧
    (size.toNat < 188 → FailsDx 0x01 (.dmxUnit size) s) ∧
    (188 ≤ size.toNat → s.pipe.phase ≠ .unit → FailsDx 0x06 (.dmxUnit size) s)

/-- R158. DMX_CONFIG: the three fields of `PIPE.CFG` are written, in every phase; nothing else is. -/
def Obligations.DmxConfig : Prop :=
  ∀ (flags n : Byte) (s : State),
    encode (.dmxConfig flags n) = [0x21, flags, n] ∧
    (flags.toNat < 4 → n ≠ 0 → ∃ t, exec (.dmxConfig flags n) s = .next t ∧
      t.pipe = { s.pipe with
        cfg := { stripNull := decide (flags.toNat % 2 = 1), emmEn := decide (2 ≤ flags.toNat), round := n } } ∧
      SameContexts s t ∧ SameMemory s t ∧ SameTables s t ∧ SameRest s t ∧
      Answers [0x00, phaseCode s.pipe.phase] s t) ∧
    (4 ≤ flags.toNat ∨ n = 0 → FailsDx 0x01 (.dmxConfig flags n) s)

/-- R159. DMX_RESET: the tables and the contexts of valid decryptors go to their reset state, the pipeline to phase 0;
`PIPE.CFG`, the other contexts and payload memory are kept. It succeeds in every state. -/
def Obligations.DmxReset : Prop :=
  encode .dmxReset = [0x20] ∧
  ∀ s : State, ∃ t, exec .dmxReset s = .next t ∧
    (∀ c, t.ctx c = if (s.decAt c).valid then Context.reset else s.ctx c) ∧
    (∀ p, t.mapAt p = if p = 0 then ⟨.pat, 1, 0, 0, .none⟩ else ⟨.unknown, 0, 0, 0, .none⟩) ∧
    (∀ i, t.progAt i = ⟨false, 0, 0, 0, .notParsed, [], []⟩) ∧
    (∀ d, t.decAt d = ⟨false, 0, 0, false, 0, 0, .notParsed⟩) ∧
    t.pipe = { s.pipe with phase := .unit, budget := 0, unit := 0 } ∧
    SameMemory s t ∧ SameRest s t ∧ Answers [0x00, 0] s t

/-! ### Unit DX: the topology commands -/

/-- R165. PAT_BEGIN: the tables and the contexts of valid decryptors go to their reset state; an acquisition phase goes to
phase 2 with the budget cleared, the steady state stays. -/
def Obligations.PatBegin : Prop :=
  encode .patBegin = [0x24] ∧
  ∀ s : State,
    (s.pipe.phase = .unit → FailsDx 0x06 .patBegin s) ∧
    (s.pipe.phase ≠ .unit → ∃ t, exec .patBegin s = .next t ∧
      (∀ c, t.ctx c = if (s.decAt c).valid then Context.reset else s.ctx c) ∧
      (∀ p, t.mapAt p = if p = 0 then ⟨.pat, 1, 0, 0, .none⟩ else ⟨.unknown, 0, 0, 0, .none⟩) ∧
      (∀ i, t.progAt i = ⟨false, 0, 0, 0, .notParsed, [], []⟩) ∧
      (∀ d, t.decAt d = ⟨false, 0, 0, false, 0, 0, .notParsed⟩) ∧
      (s.pipe.phase = .steady → t.pipe = s.pipe ∧ Answers [0x00, 4] s t) ∧
      (s.pipe.phase ≠ .steady → t.pipe = { s.pipe with phase := .pmt, budget := 0 } ∧ Answers [0x00, 2] s t) ∧
      SameMemory s t ∧ SameRest s t)

/-- From R166. PROG_ADD: the lowest free slot takes the program and the PID takes the PMT role, its counters kept; and its
errors in their order. The model's choice in it: SLOT is a free value from slot 256 on (`slotByte`, log entry 7). -/
def Obligations.ProgAdd : Prop :=
  ∀ (num pid : Half) (s : State),
    encode (.progAdd num pid) = 0x25 :: (bytesBe16 num ++ bytesBe16 pid) ∧
    (8192 ≤ pid.toNat → FailsDx 0x01 (.progAdd num pid) s) ∧
    (pid.toNat < 8192 → s.pipe.phase = .unit ∨ s.pipe.phase = .pat → FailsDx 0x06 (.progAdd num pid) s) ∧
    (pid.toNat < 8192 → s.pipe.phase ≠ .unit → s.pipe.phase ≠ .pat →
      ((s.mapAt pid.toNat).role ≠ .unknown → FailsDx 0x01 (.progAdd num pid) s) ∧
      ((s.mapAt pid.toNat).role = .unknown → (∀ j, j < s.par.nProg → (s.progAt j).valid = true) →
        FailsDx 0x14 (.progAdd num pid) s) ∧
      (∀ i, (s.mapAt pid.toNat).role = .unknown → LowestFreeProg s i →
        ∃ t, exec (.progAdd num pid) s = .next t ∧
          t.progAt i = ⟨true, num, pid.setWidth 13, 0, .notParsed, [], []⟩ ∧ SameProgsBut i s t ∧
          t.mapAt pid.toNat = { s.mapAt pid.toNat with role := .pmt, ref := 1, link := .prog i } ∧
          SameMapBut pid.toNat s t ∧
          SameDecs s t ∧ SameContexts s t ∧ SameMemory s t ∧ t.pipe = s.pipe ∧ SameRest s t ∧
          Answers [0x00, phaseCode s.pipe.phase, slotByte i] s t))

/-- R167. ROLE_SET: the PID takes the CAT or the EMM role and every other PID that had it gives it back, all counters kept;
and its errors. -/
def Obligations.RoleSet : Prop :=
  ∀ (pid : Half) (role : Byte) (s : State), Canonical s →
    encode (.roleSet pid role) = 0x26 :: (bytesBe16 pid ++ [role]) ∧
    (8192 ≤ pid.toNat ∨ (role ≠ 3 ∧ role ≠ 4) → FailsDx 0x01 (.roleSet pid role) s) ∧
    (∀ r, pid.toNat < 8192 → (role = 3 ∧ r = Role.cat) ∨ (role = 4 ∧ r = Role.emm) →
      ((s.mapAt pid.toNat).role ≠ .unknown → (s.mapAt pid.toNat).role ≠ r → FailsDx 0x01 (.roleSet pid role) s) ∧
      ((s.mapAt pid.toNat).role = .unknown ∨ (s.mapAt pid.toNat).role = r →
        ∃ t, exec (.roleSet pid role) s = .next t ∧
          t.mapAt pid.toNat = { s.mapAt pid.toNat with role := r, ref := 1, link := .none } ∧
          (∀ q, q ≠ pid.toNat → t.mapAt q =
            if (s.mapAt q).role = r then { s.mapAt q with role := .unknown, ref := 0, link := .none }
            else s.mapAt q) ∧
          SameProgs s t ∧ SameDecs s t ∧ SameContexts s t ∧ SameMemory s t ∧ t.pipe = s.pipe ∧ SameRest s t ∧
          Answers [0x00, phaseCode s.pipe.phase] s t))

/-- R169. PMT_BEGIN: the current list becomes the old one and a new one is begun; no reference count changes. -/
def Obligations.PmtBegin : Prop :=
  ∀ (p : Byte) (pcr : Half) (s : State),
    encode (.pmtBegin p pcr) = 0x27 :: p :: bytesBe16 pcr ∧
    (¬ ProgAt s p.toNat ∨ 8192 ≤ pcr.toNat → FailsDx 0x01 (.pmtBegin p pcr) s) ∧
    (ProgAt s p.toNat → pcr.toNat < 8192 → (s.progAt p.toNat).old ≠ [] → FailsDx 0x06 (.pmtBegin p pcr) s) ∧
    (ProgAt s p.toNat → pcr.toNat < 8192 → (s.progAt p.toNat).old = [] →
      ∃ t, exec (.pmtBegin p pcr) s = .next t ∧
        t.progAt p.toNat =
          { s.progAt p.toNat with old := (s.progAt p.toNat).streams, streams := [], pcrPid := pcr.setWidth 13 } ∧
        SameProgsBut p.toNat s t ∧ SameMap s t ∧ SameDecs s t ∧ SameContexts s t ∧ SameMemory s t ∧
        t.pipe = s.pipe ∧ SameRest s t ∧ Answers [0x00, phaseCode s.pipe.phase] s t)

/-- From R170. DEC_OPEN: the decryptor of the ECM PID is found, or the lowest free slot becomes one, with its context in the reset
state but for the round count of `PIPE.CFG`; and its errors in their order. The model's choice in it: SLOT is a free value from
slot 256 on (`slotByte`, log entry 7). -/
def Obligations.DecOpen : Prop :=
  ∀ (pid : Half) (s : State),
    encode (.decOpen pid) = 0x28 :: bytesBe16 pid ∧
    (8192 ≤ pid.toNat → FailsDx 0x01 (.decOpen pid) s) ∧
    (pid.toNat < 8192 →
      (∀ d, DecAt s d → (s.decAt d).ecmPid.toNat = pid.toNat →
          (∀ j, j < d → DecAt s j → (s.decAt j).ecmPid.toNat ≠ pid.toNat) →
        exec (.decOpen pid) s =
          .next { s with rsp := s.rsp ++ [0x00, phaseCode s.pipe.phase, slotByte d, 0] }) ∧
      ((∀ d, DecAt s d → (s.decAt d).ecmPid.toNat ≠ pid.toNat) →
        ((s.mapAt pid.toNat).role ≠ .unknown → FailsDx 0x01 (.decOpen pid) s) ∧
        ((s.mapAt pid.toNat).role = .unknown → (∀ j, j < s.par.nCtx → (s.decAt j).valid = true) →
          FailsDx 0x14 (.decOpen pid) s) ∧
        (∀ d, (s.mapAt pid.toNat).role = .unknown → LowestFreeDec s d →
          ∃ t, exec (.decOpen pid) s = .next t ∧
            t.decAt d = ⟨true, pid.setWidth 13, 0, false, 0, 0, .notParsed⟩ ∧ SameDecsBut d s t ∧
            t.ctx d = { Context.reset with round := s.pipe.cfg.round } ∧ SameContextsBut d s t ∧
            t.mapAt pid.toNat = { s.mapAt pid.toNat with role := .ecm, ref := 1, link := .dec d } ∧
            SameMapBut pid.toNat s t ∧
            SameProgs s t ∧ SameMemory s t ∧ t.pipe = s.pipe ∧ SameRest s t ∧
            Answers [0x00, phaseCode s.pipe.phase, slotByte d, 1] s t)))

/-- From R171, R172 and R173. STRM_BIND: its errors, the skipped control PID, and the stream added to the new list with its
PID bound to the selected decryptor: one more reference on the PID, and `DEC.REF` moved with the link. The model's choices in
it: DSEL is a free value from slot 256 on (`slotByte`, log entry 7), a valid slot comes before 0xFF and 0xFE (`Selects`, log
entry 10), and a `DEC.REF` of 0 less 1 stays 0 (log entry 11); the last happens in no state that keeps the protocol of R162, as
the clause under `TopologyOk` says, so that there R172's subtraction is exact. -/
def Obligations.StrmBind : Prop :=
  ∀ (p : Byte) (pid : Half) (type d : Byte) (s : State),
    encode (.strmBind p pid type d) = 0x29 :: p :: (bytesBe16 pid ++ [type, d]) ∧
    (¬ ProgAt s p.toNat ∨ 8192 ≤ pid.toNat ∨ (∀ l, ¬ Selects s d l) → FailsDx 0x01 (.strmBind p pid type d) s) ∧
    (∀ l e, ProgAt s p.toNat → pid.toNat < 8192 → Selects s d l → e = s.mapAt pid.toNat →
      (e.role ≠ .unknown → e.role ≠ .other →
        exec (.strmBind p pid type d) s = .next { s with rsp := s.rsp ++ [0x00, phaseCode s.pipe.phase, 0xFD] }) ∧
      (e.role = .unknown ∨ e.role = .other → (s.progAt p.toNat).streams.length = s.par.nStrm →
        FailsDx 0x14 (.strmBind p pid type d) s) ∧
      (e.role = .unknown ∨ e.role = .other → (s.progAt p.toNat).streams.length < s.par.nStrm →
        ∃ t, exec (.strmBind p pid type d) s = .next t ∧
          t.progAt p.toNat =
            { s.progAt p.toNat with streams := (s.progAt p.toNat).streams ++ [⟨pid.setWidth 13, type⟩] } ∧
          SameProgsBut p.toNat s t ∧
          t.mapAt pid.toNat =
            { e with role := .other, link := l, ref := if e.role = .unknown then 1 else e.ref + 1 } ∧
          SameMapBut pid.toNat s t ∧
          (∀ x, t.decAt x = { s.decAt x with
            ref := (s.decAt x).ref - (if e.role = .other ∧ e.link = .dec x ∧ l ≠ .dec x then 1 else 0) +
              (if l = .dec x ∧ (e.role = .unknown ∨ e.link ≠ .dec x) then 1 else 0) }) ∧
          (TopologyOk s → ∀ x, e.role = .other → e.link = .dec x → l ≠ .dec x → 1 ≤ (s.decAt x).ref) ∧
          SameContexts s t ∧ SameMemory s t ∧ t.pipe = s.pipe ∧ SameRest s t ∧
          (∀ x, l = .dec x → Answers [0x00, phaseCode s.pipe.phase, slotByte x] s t) ∧
          (l = .none → Answers [0x00, phaseCode s.pipe.phase, 0xFF] s t)))

/-- R177, with R174, R175 and R183. PMT_END in a state that keeps the reference-count protocol: every PID of the old list
loses the references that list holds and is given back when it held no other; the program counts as parsed; every decryptor
left with no PID is destroyed with its context, and its ECM PID given back; then the phase machine. -/
def Obligations.PmtEnd : Prop :=
  ∀ (p : Byte) (s : State),
    encode (.pmtEnd p) = [0x2A, p] ∧
    (¬ ProgAt s p.toNat → FailsDx 0x01 (.pmtEnd p) s) ∧
    (Canonical s → TopologyOk s → ProgAt s p.toNat → ∃ t ph, exec (.pmtEnd p) s = .next t ∧
      settleCode ph = min (settleCode (s.progAt p.toNat).phase + 1) 2 ∧
      t.progAt p.toNat = { s.progAt p.toNat with old := [], phase := ph } ∧
      SameProgsBut p.toNat s t ∧
      (∀ q, (GivenBack s p.toNat q ∨ ∃ d, Destroyed s p.toNat d ∧ (s.decAt d).ecmPid.toNat = q) →
        t.mapAt q = { s.mapAt q with role := .unknown, ref := 0, link := .none }) ∧
      (∀ q, ¬ (GivenBack s p.toNat q ∨ ∃ d, Destroyed s p.toNat d ∧ (s.decAt d).ecmPid.toNat = q) →
        t.mapAt q = { s.mapAt q with ref := (s.mapAt q).ref - listRefs q (s.progAt p.toNat).old }) ∧
      (∀ d, Destroyed s p.toNat d → t.decAt d = .reset ∧ t.ctx d = .reset) ∧
      (∀ d, ¬ Destroyed s p.toNat d →
        t.decAt d = { s.decAt d with ref := (s.decAt d).ref - lostPids s p.toNat d } ∧ t.ctx d = s.ctx d) ∧
      Advanced s t ∧ SameMemory s t ∧ SameRest s t ∧ Answers [0x00, phaseCode t.pipe.phase] s t)

/-! ### Unit DX: key delivery and query -/

/-- R178. ECM_BEGIN: a locked decryptor short-circuits to the unpurchased outcome; otherwise nothing changes and the host is
told to query. -/
def Obligations.EcmBegin : Prop :=
  ∀ (d : Byte) (s : State),
    encode (.ecmBegin d) = [0x2B, d] ∧
    (¬ DecAt s d.toNat → FailsDx 0x01 (.ecmBegin d) s) ∧
    (DecAt s d.toNat → (s.decAt d.toNat).locked = false →
      exec (.ecmBegin d) s = .next { s with rsp := s.rsp ++ [0x00, phaseCode s.pipe.phase, 0] }) ∧
    (DecAt s d.toNat → (s.decAt d.toNat).locked = true → ∃ t ph, exec (.ecmBegin d) s = .next t ∧
      settleCode ph = min (settleCode (s.decAt d.toNat).phase + 1) 2 ∧
      t.decAt d.toNat =
        { s.decAt d.toNat with unpurchased := (s.decAt d.toNat).unpurchased + 1, phase := ph } ∧
      SameDecsBut d.toNat s t ∧ SameMap s t ∧ SameProgs s t ∧ SameContexts s t ∧ Advanced s t ∧ SameMemory s t ∧
      SameRest s t ∧ Answers [0x00, phaseCode t.pipe.phase, 1] s t)

/-- R179. ECM_DONE: the failure clears the data key and answers `EcmProcFailure`; a purchased answer loads the data keys as
SET_DATA_KEY does and unlocks; any other locks, counts, records the code and clears the data key as CLEAR_DATA_KEY does; then
the phase machine. -/
def Obligations.EcmDone : Prop :=
  ∀ (d fail : Byte) (rc : Half) (key : Bytes16) (s : State),
    encode (.ecmDone d fail rc key) = 0x2C :: d :: fail :: (bytesBe16 rc ++ bytes16List key) ∧
    (¬ DecAt s d.toNat ∨ 1 < fail.toNat → FailsDx 0x01 (.ecmDone d fail rc key) s) ∧
    (DecAt s d.toNat → fail = 1 → ∃ t, exec (.ecmDone d fail rc key) s = .next t ∧
      exec (.clearDataKey d) s = .next { t with rsp := s.rsp ++ [0x00] } ∧
      Answers [0x17, phaseCode s.pipe.phase] s t) ∧
    (DecAt s d.toNat → fail = 0 → rc ∈ s.par.purchasedSet →
      ∃ t u ph, exec (.ecmDone d fail rc key) s = .next t ∧ exec (.setDataKey d key) s = .next u ∧
        (∀ c, t.ctx c = u.ctx c) ∧
        settleCode ph = min (settleCode (s.decAt d.toNat).phase + 1) 2 ∧
        t.decAt d.toNat = { s.decAt d.toNat with locked := false, phase := ph } ∧
        SameDecsBut d.toNat s t ∧ SameMap s t ∧ SameProgs s t ∧ Advanced s t ∧ SameMemory s t ∧ SameRest s t ∧
        Answers [0x00, phaseCode t.pipe.phase, 0] s t) ∧
    (DecAt s d.toNat → fail = 0 → rc ∉ s.par.purchasedSet →
      ∃ t u ph, exec (.ecmDone d fail rc key) s = .next t ∧ exec (.clearDataKey d) s = .next u ∧
        (∀ c, t.ctx c = u.ctx c) ∧
        settleCode ph = min (settleCode (s.decAt d.toNat).phase + 1) 2 ∧
        t.decAt d.toNat =
          { s.decAt d.toNat with
            locked := true
            unpurchased := (s.decAt d.toNat).unpurchased + 1
            lastErr := rc
            phase := ph } ∧
        SameDecsBut d.toNat s t ∧ SameMap s t ∧ SameProgs s t ∧ Advanced s t ∧ SameMemory s t ∧ SameRest s t ∧
        Answers [0x00, phaseCode t.pipe.phase, 1] s t)

/-- R181. EMM_OK: every valid decryptor is unlocked, when EMM processing is enabled; nothing else changes. -/
def Obligations.EmmOk : Prop :=
  encode .emmOk = [0x2D] ∧
  ∀ s : State, Canonical s →
    (s.pipe.cfg.emmEn = false → FailsDx 0x06 .emmOk s) ∧
    (s.pipe.cfg.emmEn = true → ∃ t, exec .emmOk s = .next t ∧
      (∀ d, t.decAt d = if (s.decAt d).valid then { s.decAt d with locked := false } else s.decAt d) ∧
      SameMap s t ∧ SameProgs s t ∧ SameContexts s t ∧ SameMemory s t ∧ t.pipe = s.pipe ∧ SameRest s t ∧
      Answers [0x00, phaseCode s.pipe.phase] s t)

/-- From R182 and R95. DMX_QUERY: it writes nothing; 0xFF asks for the number of valid programs alone; a valid slot gives the program
number, the sums over its distinct PIDs and over their distinct decryptors, and the first error code that is not 0. Read from
the spec by inference: COUNT is 255 for more than 255 programs, and 0xFF comes before a slot of that number (log entry 10). -/
def Obligations.DmxQuery : Prop :=
  ∀ (p : Byte) (s : State) (count : Byte),
    count = BitVec.ofNat 8 (min ((Finset.range s.par.nProg).filter fun i => (s.progAt i).valid = true).card 255) →
    encode (.dmxQuery p) = [0x2E, p] ∧
    (p = 0xFF → exec (.dmxQuery p) s =
      .next { s with rsp := s.rsp ++ (0x00 :: phaseCode s.pipe.phase :: count :: List.replicate 28 0x00) }) ∧
    (p ≠ 0xFF → ¬ ProgAt s p.toNat → FailsDx 0x01 (.dmxQuery p) s) ∧
    (p ≠ 0xFF → ProgAt s p.toNat → exec (.dmxQuery p) s =
      .next { s with rsp := s.rsp ++ (0x00 :: phaseCode s.pipe.phase :: count ::
        (bytesBe16 (s.progAt p.toNat).num ++
          bytesBe64 ((listedPids s p.toNat).toFinset.sum fun q => (s.mapAt q).normal + (s.mapAt q).undec) ++
          bytesBe64 ((listedPids s p.toNat).toFinset.sum fun q => (s.mapAt q).undec) ++
          bytesBe64 ((listedDecs s p.toNat).toFinset.sum fun d => (s.decAt d).unpurchased) ++
          bytesBe16 ((((listedDecs s p.toNat).map fun d => (s.decAt d).lastErr).find? fun x => x != 0).getD 0))) })

/-! ### Unit DX: packets -/

/-- R140: the fields of the four header bytes. -/
def Obligations.PacketHeaderFields : Prop :=
  ∀ (s : State) (a : Nat),
    (headerAt s a).sync = s.readByte a ∧
    ((headerAt s a).tei = true ↔ 128 ≤ (s.readByte (a + 1)).toNat) ∧
    ((headerAt s a).pusi = true ↔ 64 ≤ (s.readByte (a + 1)).toNat % 128) ∧
    ((headerAt s a).prio = true ↔ 32 ≤ (s.readByte (a + 1)).toNat % 64) ∧
    (headerAt s a).pid.toNat = (s.readByte (a + 1)).toNat % 32 * 256 + (s.readByte (a + 2)).toNat ∧
    (headerAt s a).sc.toNat = (s.readByte (a + 3)).toNat / 64 ∧
    (headerAt s a).afc.toNat = (s.readByte (a + 3)).toNat / 16 % 4 ∧
    (headerAt s a).cc.toNat = (s.readByte (a + 3)).toNat % 16

/-- R141: where the payload of a packet lies, when the packet is corrupt, and that a packet that is not has its payload
within its 188 bytes. -/
def Obligations.PayloadPosition : Prop :=
  ∀ (s : State) (a off : Nat) (h : PacketHeader) (n : Int),
    off = (if 2 ≤ h.afc.toNat then 5 + (s.readByte (a + 4)).toNat else 4) → n = 188 - (off : Int) →
    (spanAt s a h).off = off ∧
    ((spanAt s a h).corrupt = true ↔ n < 0 ∨ (h.afc.toNat % 2 = 1 ∧ n < 1)) ∧
    ((spanAt s a h).corrupt = false →
      ((spanAt s a h).len : Int) = (if h.afc.toNat % 2 = 1 then n else 0) ∧
        (spanAt s a h).off + (spanAt s a h).len ≤ 188)

/-- R145 (steps 1, 2 and 5), R153, R197: when DMX_PACKET is refused, and with which status; nothing else changes. -/
def Obligations.PacketRefused : Prop :=
  ∀ (addr : Half) (s : State),
    encode (.dmxPacket addr) = 0x23 :: bytesBe16 addr ∧
    (s.par.pmemSize < addr.toNat + 188 → FailsDx 0x01 (.dmxPacket addr) s) ∧
    (addr.toNat + 188 ≤ s.par.pmemSize → s.pipe.phase = .unit → FailsDx 0x06 (.dmxPacket addr) s) ∧
    (Submitted addr.toNat s → (headerAt s addr.toNat).sync = 0x47 →
      (s.pipe.phase = .pat → s.par.budgetPat < s.pipe.budget + s.pipe.unit.toNat →
        FailsDx 0x11 (.dmxPacket addr) s) ∧
      (s.pipe.phase = .pmt → s.par.budgetPmt < s.pipe.budget + s.pipe.unit.toNat →
        FailsDx 0x12 (.dmxPacket addr) s) ∧
      (s.pipe.phase = .ecm → s.par.budgetEcm < s.pipe.budget + s.pipe.unit.toNat →
        FailsDx 0x13 (.dmxPacket addr) s))

/-- R145 (step 3), R183: when a phase change is due, DMX_PACKET makes it, whatever the packet, and answers HOLD. -/
def Obligations.PacketAdvancesPhase : Prop :=
  ∀ (addr : Half) (s : State), addr.toNat + 188 ≤ s.par.pmemSize → AdvanceDue s →
    ∃ t, exec (.dmxPacket addr) s = .next t ∧ Advanced s t ∧ t.pipe.phase ≠ s.pipe.phase ∧
      SameContexts s t ∧ SameMemory s t ∧ SameTables s t ∧ SameRest s t ∧
      Answers (0x00 :: phaseCode t.pipe.phase :: bareFields 2) s t

/-- R145 (steps 4, 6, 7 and 8), R147, R148, R149: the four verdicts given without classifying the packet: RESYNC, the
transport error indicator, the dropped null packet, and the corrupt packet. -/
def Obligations.PacketNotClassified : Prop :=
  ∀ (addr : Half) (s : State),
    (Submitted addr.toNat s → (headerAt s addr.toNat).sync ≠ 0x47 → exec (.dmxPacket addr) s =
      .next { s with rsp := s.rsp ++ (0x00 :: phaseCode s.pipe.phase :: bareFields 3) }) ∧
    (Examined addr.toNat s → (headerAt s addr.toNat).tei = true →
      (s.pipe.phase = .steady → exec (.dmxPacket addr) s =
        .next { s with rsp := s.rsp ++ (0x00 :: 4 :: bareFields 0) }) ∧
      (Acquiring s → exec (.dmxPacket addr) s =
        .next { s with
          pipe := { s.pipe with budget := s.pipe.budget + s.pipe.unit.toNat }
          rsp := s.rsp ++ (0x00 :: phaseCode s.pipe.phase :: bareFields 2) })) ∧
    (Examined addr.toNat s → (headerAt s addr.toNat).tei = false → NullDropped addr.toNat s →
      exec (.dmxPacket addr) s = .next { s with rsp := s.rsp ++ (0x00 :: 4 :: bareFields 1) }) ∧
    (Examined addr.toNat s → (headerAt s addr.toNat).tei = false → ¬ NullDropped addr.toNat s →
        (spanAt s addr.toNat (headerAt s addr.toNat)).corrupt = true →
      (s.pipe.phase = .steady → exec (.dmxPacket addr) s =
        .next { s with rsp := s.rsp ++ (0x00 :: 4 :: bareFields 4) }) ∧
      (Acquiring s → exec (.dmxPacket addr) s =
        .next { s with
          pipe := { s.pipe with budget := s.pipe.budget + 1 }
          rsp := s.rsp ++ (0x00 :: phaseCode s.pipe.phase :: bareFields 4) }))

/-- R153: in an acquisition phase a packet is held, charged to the budget and routed when its phase waits for its section;
nothing else changes. PADDR from 65536 on and
LINKI from slot 256 on are free values (log entries 6 and 7). -/
def Obligations.PacketHeld : Prop :=
  ∀ (addr : Half) (s : State) (route : Byte), Classified addr.toNat s → Acquiring s →
    (ScanWanted addr.toNat s ∧ route = 1) ∨ (¬ ScanWanted addr.toNat s ∧ route = 0) →
    exec (.dmxPacket addr) s = .next { s with
      pipe := { s.pipe with budget := s.pipe.budget + s.pipe.unit.toNat }
      rsp := s.rsp ++ (0x00 :: phaseCode s.pipe.phase :: packetFields 2 route addr.toNat s) }

/-- R151, R152: in the steady state a packet that is not scrambled is emitted, counted in `NORMAL` of its PID, and routed by
the role of the PID; nothing else changes. PADDR from 65536 on and
LINKI from slot 256 on are free values (log entries 6 and 7). -/
def Obligations.PacketClear : Prop :=
  ∀ (addr : Half) (s : State) (route : Byte), Classified addr.toNat s → s.pipe.phase = .steady →
    ¬ Scrambled addr.toNat s →
    (SectionWanted addr.toNat s ∧ route = 1) ∨ (¬ SectionWanted addr.toNat s ∧ route = 0) →
    ∃ t, exec (.dmxPacket addr) s = .next t ∧
      t.mapAt (headerAt s addr.toNat).pid.toNat =
        { entryAt s addr.toNat with normal := (entryAt s addr.toNat).normal + 1 } ∧
      SameMapBut (headerAt s addr.toNat).pid.toNat s t ∧ SameProgs s t ∧ SameDecs s t ∧ SameContexts s t ∧
      SameMemory s t ∧ t.pipe = s.pipe ∧ SameRest s t ∧
      Answers (0x00 :: 4 :: packetFields 0 route addr.toNat s) s t

/-- R150: in the steady state a scrambled packet whose PID resolves to a decryptor with a data key is decrypted in place with
that decryptor's context (`T` is the packet's scrambling control), its scrambling-control bits are cleared, it is counted in
`NORMAL`, and emitted; nothing else changes. PADDR from 65536 on and
LINKI from slot 256 on are free values (log entries 6 and 7). -/
def Obligations.PacketDescrambled : Prop :=
  ∀ (addr : Half) (s : State) (d : Nat), Classified addr.toNat s → s.pipe.phase = .steady →
    Scrambled addr.toNat s → Resolves addr.toNat d s → d < s.par.nCtx →
    (s.ctx d).st.iv = true → (s.ctx d).st.sk = true →
    ∃ t, exec (.dmxPacket addr) s = .next t ∧
      t.readBytes (addr.toNat + (spanAt s addr.toNat (headerAt s addr.toNat)).off)
          (spanAt s addr.toNat (headerAt s addr.toNat)).len =
        payloadDecrypt (if (headerAt s addr.toNat).sc = 2 then (s.ctx d).wk1 else (s.ctx d).wk0)
          (s.ctx d).round.toNat (s.ctx d).iv
          (s.readBytes (addr.toNat + (spanAt s addr.toNat (headerAt s addr.toNat)).off)
            (spanAt s addr.toNat (headerAt s addr.toNat)).len) ∧
      t.readByte (addr.toNat + 3) = s.readByte (addr.toNat + 3) &&& 0x3F ∧
      (∀ b, b ≠ addr.toNat + 3 →
        (b < addr.toNat + (spanAt s addr.toNat (headerAt s addr.toNat)).off ∨ addr.toNat + 188 ≤ b) →
        t.readByte b = s.readByte b) ∧
      t.mapAt (headerAt s addr.toNat).pid.toNat =
        { entryAt s addr.toNat with normal := (entryAt s addr.toNat).normal + 1 } ∧
      SameMapBut (headerAt s addr.toNat).pid.toNat s t ∧ SameProgs s t ∧ SameDecs s t ∧ SameContexts s t ∧
      t.pipe = s.pipe ∧ SameRest s t ∧ Answers (0x00 :: 4 :: packetFields 0 2 addr.toNat s) s t

/-- R150, R199: in the steady state a scrambled packet that does not resolve is left scrambled and counted in `UNDEC`; one
that resolves to a context with no IV or no system key ends with `DecryptFailure`, and nothing changes. PADDR from 65536 on and
LINKI from slot 256 on are free values (log entries 6 and 7). -/
def Obligations.PacketLeftScrambled : Prop :=
  ∀ (addr : Half) (s : State), Classified addr.toNat s → s.pipe.phase = .steady → Scrambled addr.toNat s →
    ((∀ d, ¬ Resolves addr.toNat d s) → ∃ t, exec (.dmxPacket addr) s = .next t ∧
      t.mapAt (headerAt s addr.toNat).pid.toNat =
        { entryAt s addr.toNat with undec := (entryAt s addr.toNat).undec + 1 } ∧
      SameMapBut (headerAt s addr.toNat).pid.toNat s t ∧ SameProgs s t ∧ SameDecs s t ∧ SameContexts s t ∧
      SameMemory s t ∧ t.pipe = s.pipe ∧ SameRest s t ∧
      Answers (0x00 :: 4 :: packetFields 0 3 addr.toNat s) s t) ∧
    (∀ d, Resolves addr.toNat d s → (s.ctx d).st.iv = false ∨ (s.ctx d).st.sk = false →
      FailsDx 0x15 (.dmxPacket addr) s)

/-- R156: DMX_PACKET never changes `ROLE`, `REF` or `LINK` of an entry, a `PROG` or `DEC` field, `PIPE.CFG`, `PIPE.UNIT` or a
register of a context; at most one counter goes up, by 1, and it is one of the packet's PID (R145). It depends on at most one
context: the one its PID links. -/
def Obligations.PacketFrame : Prop :=
  ∀ (addr : Half) (s t : State), exec (.dmxPacket addr) s = .next t →
    (∀ p, (t.mapAt p).role = (s.mapAt p).role ∧ (t.mapAt p).ref = (s.mapAt p).ref ∧
      (t.mapAt p).link = (s.mapAt p).link) ∧
    SameProgs s t ∧ SameDecs s t ∧ SameContexts s t ∧ t.pipe.cfg = s.pipe.cfg ∧ t.pipe.unit = s.pipe.unit ∧
    SameRest s t ∧
    (SameMap s t ∨ ∃ p, p = (headerAt s addr.toNat).pid.toNat ∧ SameMapBut p s t ∧
      (t.mapAt p = { s.mapAt p with normal := (s.mapAt p).normal + 1 } ∨
        t.mapAt p = { s.mapAt p with undec := (s.mapAt p).undec + 1 })) ∧
    (∀ s' : State, s' = { s with ce := s'.ce } →
      (∀ d, (entryAt s addr.toNat).link = .dec d → s'.ctx d = s.ctx d) →
      exec (.dmxPacket addr) s' = .next { t with ce := s'.ce })

/-! ### The whole machine -/

/-- R183, R34: every transition of the phase, what causes it and under which condition; the budget is cleared at each. -/
def Obligations.PhaseTransitions : Prop :=
  ∀ (i : Instr) (s t : State), exec i s = .next t → t.pipe.phase ≠ s.pipe.phase →
    t.pipe.budget = 0 ∧
    ((s.pipe.phase = .unit ∧ t.pipe.phase = .pat ∧ ∃ size : Half, i = .dmxUnit size ∧ 188 ≤ size.toNat) ∨
     ((s.pipe.phase = .pat ∨ s.pipe.phase = .ecm) ∧ t.pipe.phase = .pmt ∧ i = .patBegin) ∨
     (((s.pipe.phase = .pmt ∧ AllProgsParsed t ∧
          (t.pipe.phase = .ecm ∧ ¬ AllDecsParsed t ∨ t.pipe.phase = .steady ∧ AllDecsParsed t)) ∨
        (s.pipe.phase = .ecm ∧ t.pipe.phase = .steady ∧ AllDecsParsed t)) ∧
       ((∃ p, i = .pmtEnd p) ∨ (∃ d, i = .ecmBegin d) ∨ (∃ d rc key, i = .ecmDone d 0 rc key) ∨
         ∃ a, i = .dmxPacket a)) ∨
     (t.pipe.phase = .unit ∧ i = .dmxReset))

/-- R61: no byte of payload memory changes but those a command may write. -/
def Obligations.MemoryWriters : Prop :=
  ∀ (i : Instr) (s t : State) (b : Nat), exec i s = .next t → ¬ MayWrite i s b → t.readByte b = s.readByte b

/-- R62: "No command reads a byte outside the ranges of rule R61, so bytes outside them never influence a result": two states
that differ only in payload memory, and there only outside a command's reach, get the same response, the same registers and
tables, and the same bytes within its reach. -/
def Obligations.MemoryReaders : Prop :=
  ∀ (i : Instr) (s s' t : State), s' = { s with pmem := s'.pmem, epoch := s'.epoch } →
    (∀ b, InReach i b → s'.readByte b = s.readByte b) → exec i s = .next t →
    ∃ t', exec i s' = .next t' ∧ t' = { t with pmem := t'.pmem, epoch := t'.epoch } ∧
      ∀ b, InReach i b → t'.readByte b = t.readByte b

/-- R26: no register of a context can be read back: two states that differ only in the contexts, and there not in the flags,
get the same response, the same pipeline registers and tables, the same flags, and, from every command but ENCRYPT, DECRYPT
and DMX_PACKET, the same payload memory. -/
def Obligations.KeysCannotBeReadBack : Prop :=
  ∀ (i : Instr) (s s' t : State), s' = { s with ce := s'.ce } → (∀ c, (s'.ctx c).st = (s.ctx c).st) →
    exec i s = .next t →
    ∃ t', exec i s' = .next t' ∧ t' = { t with ce := t'.ce, pmem := t'.pmem } ∧
      (∀ c, (t'.ctx c).st = (t.ctx c).st) ∧ ((∀ b, ¬ InReach i b) → t'.pmem = t.pmem)

/-- R20 to R24, R29, R31: which commands write which register of which context: a setter its own, in its own context;
ECM_DONE the data keys, work keys and `ST.DK` of its decryptor; and the commands that re-initialise a decryptor's context. -/
def Obligations.ContextRegisterWriters : Prop :=
  ∀ (i : Instr) (s t : State) (c : Nat), exec i s = .next t →
    (reinitialises i ∧ Reinitialised (t.ctx c)) ∨
    (((t.ctx c).sk = (s.ctx c).sk ∧ (t.ctx c).st.sk = (s.ctx c).st.sk ∨
        ∃ x k, i = .setSystemKey x k ∧ x.toNat = c) ∧
     ((t.ctx c).iv = (s.ctx c).iv ∧ (t.ctx c).st.iv = (s.ctx c).st.iv ∨
        ∃ x v, i = .setInitVector x v ∧ x.toNat = c) ∧
     ((t.ctx c).dk0 = (s.ctx c).dk0 ∧ (t.ctx c).dk1 = (s.ctx c).dk1 ∧ (t.ctx c).wk0 = (s.ctx c).wk0 ∧
          (t.ctx c).wk1 = (s.ctx c).wk1 ∧ (t.ctx c).st.dk = (s.ctx c).st.dk ∨
        (∃ x k, i = .setDataKey x k ∧ x.toNat = c) ∨ (∃ x, i = .clearDataKey x ∧ x.toNat = c) ∨
        ∃ x f rc k, i = .ecmDone x f rc k ∧ x.toNat = c) ∧
     ((t.ctx c).round = (s.ctx c).round ∨ ∃ x n, i = .setRound x n ∧ x.toNat = c))

/-- R38: what every command keeps of the PID role table: an entry has a role exactly when it has a reference; without a role
it has no link; no command overwrites an active role with another; and the counters never go down, but for DMX_RESET and
PAT_BEGIN. -/
def Obligations.RoleTableInvariants : Prop :=
  ∀ (i : Instr) (s t : State) (p : Nat), Canonical s → TopologyOk s → exec i s = .next t →
    ((t.mapAt p).role = .unknown ↔ (t.mapAt p).ref = 0) ∧
    ((t.mapAt p).role = .unknown → (t.mapAt p).link = .none) ∧
    ((s.mapAt p).role ≠ .unknown → (t.mapAt p).role ≠ .unknown → (t.mapAt p).role = (s.mapAt p).role) ∧
    (i = .dmxReset ∨ i = .patBegin ∨
      (s.mapAt p).normal ≤ (t.mapAt p).normal ∧ (s.mapAt p).undec ≤ (t.mapAt p).undec)

/-! ### Invariants and reset -/

/-- Every step keeps the stored data in its one canonical form, so that equal machines are equal data. -/
def Obligations.CanonicalFormKept : Prop := ∀ s t : State, Canonical s → step s = .next t → Canonical t

/-- R31, R34, R35, R48, R153: every step keeps the round counts legal, a register whose flag is 0 at its reset value, and the
unit size and the budget as the phase says. -/
def Obligations.RegistersStayLegal : Prop :=
  ∀ s t : State, step s = .next t → (ContextsOk s → ContextsOk t) ∧ (PipeOk s → PipeOk t)

/-- R36 to R45, R51, R162, R167: every step keeps the tables consistent: each reference count counts exactly what it should,
each role has its owner, and a slot that is not valid holds its reset value. -/
def Obligations.TopologyKept : Prop :=
  ∀ s t : State, Canonical s → TopologyOk s → step s = .next t → TopologyOk t

/-- The four invariants hold right after reset, with every legal choice of the parameters and with the default ones. -/
def Obligations.SoundAtReset : Prop :=
  (∀ (p : Params) (n : Nat), p.Legal → Sound (State.resetWith p n)) ∧ Sound State.reset

/-- R48, R49, R50: the reset values, after every hardware reset (R221): contexts, pipeline registers and the PID role table;
and no response is pending and no command byte waits. -/
def Obligations.ResetValues : Prop :=
  ∀ s r : State, r = hardwareReset s ∨ (s = State.reset ∧ r = State.reset) →
    (∀ c, r.ctx c =
      ⟨⟨0, 0, 0, 0, 0, 0, 0, 0⟩, ⟨0, 0⟩, ⟨0, 0⟩, ⟨0, 0⟩, ⟨0, 0, 0, 0, 0, 0, 0, 0⟩, ⟨0, 0, 0, 0, 0, 0, 0, 0⟩,
        ⟨false, false, false⟩, 4⟩) ∧
    r.pipe = ⟨.unit, 0, 0, ⟨false, false, 4⟩⟩ ∧
    (∀ p, r.mapAt p = if p = 0 then ⟨.pat, 1, 0, 0, .none⟩ else ⟨.unknown, 0, 0, 0, .none⟩) ∧
    (∀ i, (r.progAt i).valid = false) ∧ (∀ d, (r.decAt d).valid = false) ∧
    r.cmd = [] ∧ r.rsp = [] ∧ r.par = s.par

end
end

