-- ==== Sys2Proof/Laws/Bytes.lean ====
section
/-! SUPPORT. Byte order: assembling and taking apart are inverse (spec/00_scope.md R12). -/

namespace Sys2Proof.Machine

/-- Which byte a bit of a word comes from (R12). -/
theorem getLsbD_be32 (b0 b1 b2 b3 : Byte) (i : Nat) :
    (be32 b0 b1 b2 b3).getLsbD i =
      if i < 8 then b3.getLsbD i else if i < 16 then b2.getLsbD (i - 8)
      else if i < 24 then b1.getLsbD (i - 16) else b0.getLsbD (i - 24) := by
  change (b0 ++ b1 ++ b2 ++ b3 : BitVec (8 + 8 + 8 + 8)).getLsbD i = _
  rw [BitVec.getLsbD_append, BitVec.getLsbD_append, BitVec.getLsbD_append]
  by_cases h1 : i < 8
  · simp [h1]
  · by_cases h2 : i < 16
    · simp [h1, h2, show i - 8 < 8 by omega]
    · by_cases h3 : i < 24
      · simp [h1, h2, h3, show ¬ i - 8 < 8 by omega, show i - 8 - 8 = i - 16 by omega]
        omega
      · simp [h1, h2, h3, show ¬ i - 8 < 8 by omega, show ¬ i - 8 - 8 < 8 by omega, show i - 8 - 8 - 8 = i - 24 by omega]

/-- Which byte a bit of a 16-bit field comes from (R65). -/
theorem getLsbD_be16 (hi lo : Byte) (i : Nat) :
    (be16 hi lo).getLsbD i = if i < 8 then lo.getLsbD i else hi.getLsbD (i - 8) := by
  change (hi ++ lo : BitVec (8 + 8)).getLsbD i = _
  rw [BitVec.getLsbD_append]

/-- A bit of byte `i` of a word (R12). -/
theorem getLsbD_byteOf (w : Word) (i j : Nat) :
    (byteOf w i).getLsbD j = (decide (j < 8) && w.getLsbD (24 - 8 * i + j)) := by
  simp [byteOf]

theorem be32_byteOf (w : Word) : be32 (byteOf w 0) (byteOf w 1) (byteOf w 2) (byteOf w 3) = w := by
  apply BitVec.eq_of_getLsbD_eq
  intro i hi
  rw [getLsbD_be32]
  simp only [getLsbD_byteOf]
  split
  · next h => simp [h]
  · split
    · next h1 h2 => simp [show i - 8 < 8 by omega, show 8 + (i - 8) = i by omega]
    · split
      · next h1 h2 h3 => simp [show i - 16 < 8 by omega, show 16 + (i - 16) = i by omega]
      · next h1 h2 h3 => simp [show i - 24 < 8 by omega, show 24 + (i - 24) = i by omega]

theorem byteOf_be32 (b0 b1 b2 b3 : Byte) :
    byteOf (be32 b0 b1 b2 b3) 0 = b0 ∧ byteOf (be32 b0 b1 b2 b3) 1 = b1 ∧
      byteOf (be32 b0 b1 b2 b3) 2 = b2 ∧ byteOf (be32 b0 b1 b2 b3) 3 = b3 := by
  refine ⟨?_, ?_, ?_, ?_⟩ <;>
    · apply BitVec.eq_of_getLsbD_eq
      intro i hi
      rw [getLsbD_byteOf, getLsbD_be32]
      simp [hi, show ¬ 24 + i < 8 by omega, show ¬ 24 + i < 16 by omega, show ¬ 16 + i < 16 by omega,
        show ¬ 16 + i < 8 by omega, show 16 + i < 24 by omega, show 8 + i < 16 by omega]

/-- A block stored and read back is the block. -/
@[simp] theorem blk_bytesBlk (x : Block) : blk (bytesBlk x) = x := by
  simp [blk, bytesBlk, be32_byteOf]

/-- Eight bytes read as a block and stored back are the bytes. -/
@[simp] theorem bytesBlk_blk (b : Bytes8) : bytesBlk (blk b) = b := by
  obtain ⟨h0, h1, h2, h3⟩ := byteOf_be32 b.b0 b.b1 b.b2 b.b3
  obtain ⟨h4, h5, h6, h7⟩ := byteOf_be32 b.b4 b.b5 b.b6 b.b7
  simp [blk, bytesBlk, h0, h1, h2, h3, h4, h5, h6, h7]

/-- A 16-bit field taken apart and put together is the field. -/
theorem be16_bytes (h : Half) : be16 (h.extractLsb' 8 8) (h.extractLsb' 0 8) = h := by
  apply BitVec.eq_of_getLsbD_eq
  intro i hi
  rw [getLsbD_be16]
  split
  · next h1 => simp [h1]
  · next h1 => simp [show i - 8 < 8 by omega, show 8 + (i - 8) = i by omega]

/-- Two bytes put together and taken apart are the bytes. -/
theorem bytesBe16_be16 (hi lo : Byte) : bytesBe16 (be16 hi lo) = [hi, lo] := by
  have h1 : (be16 hi lo).extractLsb' 8 8 = hi := by
    apply BitVec.eq_of_getLsbD_eq
    intro i h
    simp [getLsbD_be16, h]
  have h2 : (be16 hi lo).extractLsb' 0 8 = lo := by
    apply BitVec.eq_of_getLsbD_eq
    intro i h
    simp [getLsbD_be16, h]
  simp [bytesBe16, h1, h2]

@[simp] theorem bytesBe16_length (h : Half) : (bytesBe16 h).length = 2 := rfl

@[simp] theorem bytesBe64_length (n : Nat) : (bytesBe64 n).length = 8 := rfl

end Sys2Proof.Machine
end

