-- ==== Sys2Proof/Laws/State.lean ====
section
/-! SUPPORT. The small lemmas of the state record: what each named update and each response leaves of every field and of
every accessor. All are true by unfolding; none needs to be unfolded again. -/

namespace Sys2Proof.Machine

variable (s : State)

/-! ### `State.setCtx` -/

@[simp] theorem State.setCtx_par (k : Nat) (x : Context) : (s.setCtx k x).par = s.par := rfl
@[simp] theorem State.setCtx_pipe (k : Nat) (x : Context) : (s.setCtx k x).pipe = s.pipe := rfl
@[simp] theorem State.setCtx_map (k : Nat) (x : Context) : (s.setCtx k x).map = s.map := rfl
@[simp] theorem State.setCtx_prog (k : Nat) (x : Context) : (s.setCtx k x).prog = s.prog := rfl
@[simp] theorem State.setCtx_dec (k : Nat) (x : Context) : (s.setCtx k x).dec = s.dec := rfl
@[simp] theorem State.setCtx_pmem (k : Nat) (x : Context) : (s.setCtx k x).pmem = s.pmem := rfl
@[simp] theorem State.setCtx_cmd (k : Nat) (x : Context) : (s.setCtx k x).cmd = s.cmd := rfl
@[simp] theorem State.setCtx_rsp (k : Nat) (x : Context) : (s.setCtx k x).rsp = s.rsp := rfl
@[simp] theorem State.setCtx_epoch (k : Nat) (x : Context) : (s.setCtx k x).epoch = s.epoch := rfl
@[simp] theorem State.setCtx_mapAt (k : Nat) (x : Context) (p : Nat) : (s.setCtx k x).mapAt p = s.mapAt p := rfl
@[simp] theorem State.setCtx_progAt (k : Nat) (x : Context) (i : Nat) : (s.setCtx k x).progAt i = s.progAt i := rfl
@[simp] theorem State.setCtx_decAt (k : Nat) (x : Context) (d : Nat) : (s.setCtx k x).decAt d = s.decAt d := rfl
@[simp] theorem State.setCtx_readByte (k : Nat) (x : Context) (a : Nat) : (s.setCtx k x).readByte a = s.readByte a := rfl

/-! ### `State.setMap` -/

@[simp] theorem State.setMap_par (k : Nat) (x : MapEntry) : (s.setMap k x).par = s.par := rfl
@[simp] theorem State.setMap_ce (k : Nat) (x : MapEntry) : (s.setMap k x).ce = s.ce := rfl
@[simp] theorem State.setMap_pipe (k : Nat) (x : MapEntry) : (s.setMap k x).pipe = s.pipe := rfl
@[simp] theorem State.setMap_prog (k : Nat) (x : MapEntry) : (s.setMap k x).prog = s.prog := rfl
@[simp] theorem State.setMap_dec (k : Nat) (x : MapEntry) : (s.setMap k x).dec = s.dec := rfl
@[simp] theorem State.setMap_pmem (k : Nat) (x : MapEntry) : (s.setMap k x).pmem = s.pmem := rfl
@[simp] theorem State.setMap_cmd (k : Nat) (x : MapEntry) : (s.setMap k x).cmd = s.cmd := rfl
@[simp] theorem State.setMap_rsp (k : Nat) (x : MapEntry) : (s.setMap k x).rsp = s.rsp := rfl
@[simp] theorem State.setMap_epoch (k : Nat) (x : MapEntry) : (s.setMap k x).epoch = s.epoch := rfl
@[simp] theorem State.setMap_ctx (k : Nat) (x : MapEntry) (c : Nat) : (s.setMap k x).ctx c = s.ctx c := rfl
@[simp] theorem State.setMap_progAt (k : Nat) (x : MapEntry) (i : Nat) : (s.setMap k x).progAt i = s.progAt i := rfl
@[simp] theorem State.setMap_decAt (k : Nat) (x : MapEntry) (d : Nat) : (s.setMap k x).decAt d = s.decAt d := rfl
@[simp] theorem State.setMap_readByte (k : Nat) (x : MapEntry) (a : Nat) : (s.setMap k x).readByte a = s.readByte a := rfl

/-! ### `State.setProg` -/

@[simp] theorem State.setProg_par (k : Nat) (x : ProgSlot) : (s.setProg k x).par = s.par := rfl
@[simp] theorem State.setProg_ce (k : Nat) (x : ProgSlot) : (s.setProg k x).ce = s.ce := rfl
@[simp] theorem State.setProg_pipe (k : Nat) (x : ProgSlot) : (s.setProg k x).pipe = s.pipe := rfl
@[simp] theorem State.setProg_map (k : Nat) (x : ProgSlot) : (s.setProg k x).map = s.map := rfl
@[simp] theorem State.setProg_dec (k : Nat) (x : ProgSlot) : (s.setProg k x).dec = s.dec := rfl
@[simp] theorem State.setProg_pmem (k : Nat) (x : ProgSlot) : (s.setProg k x).pmem = s.pmem := rfl
@[simp] theorem State.setProg_cmd (k : Nat) (x : ProgSlot) : (s.setProg k x).cmd = s.cmd := rfl
@[simp] theorem State.setProg_rsp (k : Nat) (x : ProgSlot) : (s.setProg k x).rsp = s.rsp := rfl
@[simp] theorem State.setProg_epoch (k : Nat) (x : ProgSlot) : (s.setProg k x).epoch = s.epoch := rfl
@[simp] theorem State.setProg_ctx (k : Nat) (x : ProgSlot) (c : Nat) : (s.setProg k x).ctx c = s.ctx c := rfl
@[simp] theorem State.setProg_mapAt (k : Nat) (x : ProgSlot) (p : Nat) : (s.setProg k x).mapAt p = s.mapAt p := rfl
@[simp] theorem State.setProg_decAt (k : Nat) (x : ProgSlot) (d : Nat) : (s.setProg k x).decAt d = s.decAt d := rfl
@[simp] theorem State.setProg_readByte (k : Nat) (x : ProgSlot) (a : Nat) : (s.setProg k x).readByte a = s.readByte a := rfl

/-! ### `State.setDec` -/

@[simp] theorem State.setDec_par (k : Nat) (x : DecSlot) : (s.setDec k x).par = s.par := rfl
@[simp] theorem State.setDec_ce (k : Nat) (x : DecSlot) : (s.setDec k x).ce = s.ce := rfl
@[simp] theorem State.setDec_pipe (k : Nat) (x : DecSlot) : (s.setDec k x).pipe = s.pipe := rfl
@[simp] theorem State.setDec_map (k : Nat) (x : DecSlot) : (s.setDec k x).map = s.map := rfl
@[simp] theorem State.setDec_prog (k : Nat) (x : DecSlot) : (s.setDec k x).prog = s.prog := rfl
@[simp] theorem State.setDec_pmem (k : Nat) (x : DecSlot) : (s.setDec k x).pmem = s.pmem := rfl
@[simp] theorem State.setDec_cmd (k : Nat) (x : DecSlot) : (s.setDec k x).cmd = s.cmd := rfl
@[simp] theorem State.setDec_rsp (k : Nat) (x : DecSlot) : (s.setDec k x).rsp = s.rsp := rfl
@[simp] theorem State.setDec_epoch (k : Nat) (x : DecSlot) : (s.setDec k x).epoch = s.epoch := rfl
@[simp] theorem State.setDec_ctx (k : Nat) (x : DecSlot) (c : Nat) : (s.setDec k x).ctx c = s.ctx c := rfl
@[simp] theorem State.setDec_mapAt (k : Nat) (x : DecSlot) (p : Nat) : (s.setDec k x).mapAt p = s.mapAt p := rfl
@[simp] theorem State.setDec_progAt (k : Nat) (x : DecSlot) (i : Nat) : (s.setDec k x).progAt i = s.progAt i := rfl
@[simp] theorem State.setDec_readByte (k : Nat) (x : DecSlot) (a : Nat) : (s.setDec k x).readByte a = s.readByte a := rfl

/-! ### `State.setPipe` -/

@[simp] theorem State.setPipe_par (x : Pipe) : (s.setPipe x).par = s.par := rfl
@[simp] theorem State.setPipe_ce (x : Pipe) : (s.setPipe x).ce = s.ce := rfl
@[simp] theorem State.setPipe_map (x : Pipe) : (s.setPipe x).map = s.map := rfl
@[simp] theorem State.setPipe_prog (x : Pipe) : (s.setPipe x).prog = s.prog := rfl
@[simp] theorem State.setPipe_dec (x : Pipe) : (s.setPipe x).dec = s.dec := rfl
@[simp] theorem State.setPipe_pmem (x : Pipe) : (s.setPipe x).pmem = s.pmem := rfl
@[simp] theorem State.setPipe_cmd (x : Pipe) : (s.setPipe x).cmd = s.cmd := rfl
@[simp] theorem State.setPipe_rsp (x : Pipe) : (s.setPipe x).rsp = s.rsp := rfl
@[simp] theorem State.setPipe_epoch (x : Pipe) : (s.setPipe x).epoch = s.epoch := rfl
@[simp] theorem State.setPipe_ctx (x : Pipe) (c : Nat) : (s.setPipe x).ctx c = s.ctx c := rfl
@[simp] theorem State.setPipe_mapAt (x : Pipe) (p : Nat) : (s.setPipe x).mapAt p = s.mapAt p := rfl
@[simp] theorem State.setPipe_progAt (x : Pipe) (i : Nat) : (s.setPipe x).progAt i = s.progAt i := rfl
@[simp] theorem State.setPipe_decAt (x : Pipe) (d : Nat) : (s.setPipe x).decAt d = s.decAt d := rfl
@[simp] theorem State.setPipe_readByte (x : Pipe) (a : Nat) : (s.setPipe x).readByte a = s.readByte a := rfl

/-! ### `State.writeByte` -/

@[simp] theorem State.writeByte_par (k : Nat) (x : Byte) : (s.writeByte k x).par = s.par := rfl
@[simp] theorem State.writeByte_ce (k : Nat) (x : Byte) : (s.writeByte k x).ce = s.ce := rfl
@[simp] theorem State.writeByte_pipe (k : Nat) (x : Byte) : (s.writeByte k x).pipe = s.pipe := rfl
@[simp] theorem State.writeByte_map (k : Nat) (x : Byte) : (s.writeByte k x).map = s.map := rfl
@[simp] theorem State.writeByte_prog (k : Nat) (x : Byte) : (s.writeByte k x).prog = s.prog := rfl
@[simp] theorem State.writeByte_dec (k : Nat) (x : Byte) : (s.writeByte k x).dec = s.dec := rfl
@[simp] theorem State.writeByte_cmd (k : Nat) (x : Byte) : (s.writeByte k x).cmd = s.cmd := rfl
@[simp] theorem State.writeByte_rsp (k : Nat) (x : Byte) : (s.writeByte k x).rsp = s.rsp := rfl
@[simp] theorem State.writeByte_epoch (k : Nat) (x : Byte) : (s.writeByte k x).epoch = s.epoch := rfl
@[simp] theorem State.writeByte_ctx (k : Nat) (x : Byte) (c : Nat) : (s.writeByte k x).ctx c = s.ctx c := rfl
@[simp] theorem State.writeByte_mapAt (k : Nat) (x : Byte) (p : Nat) : (s.writeByte k x).mapAt p = s.mapAt p := rfl
@[simp] theorem State.writeByte_progAt (k : Nat) (x : Byte) (i : Nat) : (s.writeByte k x).progAt i = s.progAt i := rfl
@[simp] theorem State.writeByte_decAt (k : Nat) (x : Byte) (d : Nat) : (s.writeByte k x).decAt d = s.decAt d := rfl

/-! ### `State.send` -/

@[simp] theorem State.send_par (x : List Byte) : (s.send x).par = s.par := rfl
@[simp] theorem State.send_ce (x : List Byte) : (s.send x).ce = s.ce := rfl
@[simp] theorem State.send_pipe (x : List Byte) : (s.send x).pipe = s.pipe := rfl
@[simp] theorem State.send_map (x : List Byte) : (s.send x).map = s.map := rfl
@[simp] theorem State.send_prog (x : List Byte) : (s.send x).prog = s.prog := rfl
@[simp] theorem State.send_dec (x : List Byte) : (s.send x).dec = s.dec := rfl
@[simp] theorem State.send_pmem (x : List Byte) : (s.send x).pmem = s.pmem := rfl
@[simp] theorem State.send_cmd (x : List Byte) : (s.send x).cmd = s.cmd := rfl
@[simp] theorem State.send_epoch (x : List Byte) : (s.send x).epoch = s.epoch := rfl
@[simp] theorem State.send_ctx (x : List Byte) (c : Nat) : (s.send x).ctx c = s.ctx c := rfl
@[simp] theorem State.send_mapAt (x : List Byte) (p : Nat) : (s.send x).mapAt p = s.mapAt p := rfl
@[simp] theorem State.send_progAt (x : List Byte) (i : Nat) : (s.send x).progAt i = s.progAt i := rfl
@[simp] theorem State.send_decAt (x : List Byte) (d : Nat) : (s.send x).decAt d = s.decAt d := rfl
@[simp] theorem State.send_readByte (x : List Byte) (a : Nat) : (s.send x).readByte a = s.readByte a := rfl

@[simp] theorem State.setPipe_pipe (x : Pipe) : (s.setPipe x).pipe = x := rfl
@[simp] theorem State.send_rsp (x : List Byte) : (s.send x).rsp = s.rsp ++ x := rfl

/-! ### `respond` -/

@[simp] theorem respond_par (u : Port) (fs : List Byte) : (respond u fs s).par = s.par := by cases u <;> rfl
@[simp] theorem respond_ce (u : Port) (fs : List Byte) : (respond u fs s).ce = s.ce := by cases u <;> rfl
@[simp] theorem respond_pipe (u : Port) (fs : List Byte) : (respond u fs s).pipe = s.pipe := by cases u <;> rfl
@[simp] theorem respond_map (u : Port) (fs : List Byte) : (respond u fs s).map = s.map := by cases u <;> rfl
@[simp] theorem respond_prog (u : Port) (fs : List Byte) : (respond u fs s).prog = s.prog := by cases u <;> rfl
@[simp] theorem respond_dec (u : Port) (fs : List Byte) : (respond u fs s).dec = s.dec := by cases u <;> rfl
@[simp] theorem respond_pmem (u : Port) (fs : List Byte) : (respond u fs s).pmem = s.pmem := by cases u <;> rfl
@[simp] theorem respond_cmd (u : Port) (fs : List Byte) : (respond u fs s).cmd = s.cmd := by cases u <;> rfl
@[simp] theorem respond_epoch (u : Port) (fs : List Byte) : (respond u fs s).epoch = s.epoch := by cases u <;> rfl
@[simp] theorem respond_ctx (u : Port) (fs : List Byte) (c : Nat) : (respond u fs s).ctx c = s.ctx c := by cases u <;> rfl
@[simp] theorem respond_mapAt (u : Port) (fs : List Byte) (p : Nat) : (respond u fs s).mapAt p = s.mapAt p := by cases u <;> rfl
@[simp] theorem respond_progAt (u : Port) (fs : List Byte) (i : Nat) : (respond u fs s).progAt i = s.progAt i := by cases u <;> rfl
@[simp] theorem respond_decAt (u : Port) (fs : List Byte) (d : Nat) : (respond u fs s).decAt d = s.decAt d := by cases u <;> rfl
@[simp] theorem respond_readByte (u : Port) (fs : List Byte) (a : Nat) : (respond u fs s).readByte a = s.readByte a := by cases u <;> rfl

/-! ### `raise` -/

@[simp] theorem raise_par (u : Port) (e : Status) : (raise u e s).par = s.par := by cases u <;> rfl
@[simp] theorem raise_ce (u : Port) (e : Status) : (raise u e s).ce = s.ce := by cases u <;> rfl
@[simp] theorem raise_pipe (u : Port) (e : Status) : (raise u e s).pipe = s.pipe := by cases u <;> rfl
@[simp] theorem raise_map (u : Port) (e : Status) : (raise u e s).map = s.map := by cases u <;> rfl
@[simp] theorem raise_prog (u : Port) (e : Status) : (raise u e s).prog = s.prog := by cases u <;> rfl
@[simp] theorem raise_dec (u : Port) (e : Status) : (raise u e s).dec = s.dec := by cases u <;> rfl
@[simp] theorem raise_pmem (u : Port) (e : Status) : (raise u e s).pmem = s.pmem := by cases u <;> rfl
@[simp] theorem raise_cmd (u : Port) (e : Status) : (raise u e s).cmd = s.cmd := by cases u <;> rfl
@[simp] theorem raise_epoch (u : Port) (e : Status) : (raise u e s).epoch = s.epoch := by cases u <;> rfl
@[simp] theorem raise_ctx (u : Port) (e : Status) (c : Nat) : (raise u e s).ctx c = s.ctx c := by cases u <;> rfl
@[simp] theorem raise_mapAt (u : Port) (e : Status) (p : Nat) : (raise u e s).mapAt p = s.mapAt p := by cases u <;> rfl
@[simp] theorem raise_progAt (u : Port) (e : Status) (i : Nat) : (raise u e s).progAt i = s.progAt i := by cases u <;> rfl
@[simp] theorem raise_decAt (u : Port) (e : Status) (d : Nat) : (raise u e s).decAt d = s.decAt d := by cases u <;> rfl
@[simp] theorem raise_readByte (u : Port) (e : Status) (a : Nat) : (raise u e s).readByte a = s.readByte a := by cases u <;> rfl

/-! ### Taking a command off the port -/

@[simp] theorem State.takeCommand_ctx (bs : List Byte) (c : Nat) : ({ s with cmd := bs } : State).ctx c = s.ctx c := rfl
@[simp] theorem State.takeCommand_mapAt (bs : List Byte) (p : Nat) : ({ s with cmd := bs } : State).mapAt p = s.mapAt p := rfl
@[simp] theorem State.takeCommand_progAt (bs : List Byte) (i : Nat) : ({ s with cmd := bs } : State).progAt i = s.progAt i := rfl
@[simp] theorem State.takeCommand_decAt (bs : List Byte) (d : Nat) : ({ s with cmd := bs } : State).decAt d = s.decAt d := rfl
@[simp] theorem State.takeCommand_readByte (bs : List Byte) (a : Nat) : ({ s with cmd := bs } : State).readByte a = s.readByte a := rfl

/-! ### The reset state -/

@[simp] theorem State.resetWith_ctx (p : Config.Params) (n c : Nat) : (State.resetWith p n).ctx c = Context.reset := rfl
@[simp] theorem State.resetWith_progAt (p : Config.Params) (n i : Nat) : (State.resetWith p n).progAt i = ProgSlot.reset := rfl
@[simp] theorem State.resetWith_decAt (p : Config.Params) (n d : Nat) : (State.resetWith p n).decAt d = DecSlot.reset := rfl
@[simp] theorem State.resetWith_par (p : Config.Params) (n : Nat) : (State.resetWith p n).par = p := rfl
@[simp] theorem State.resetWith_pipe (p : Config.Params) (n : Nat) : (State.resetWith p n).pipe = .reset := rfl

end Sys2Proof.Machine
end

