-- ==== Sys2Proof/Laws/Table.lean ====
section
/-! SUPPORT. The laws of sparse tables: a read after a write gives the value written, a write leaves every other index
alone, and every operation keeps the canonical form. -/

namespace Sys2Proof.Machine

variable {α : Type}

/-! ### Reading -/

@[simp] theorem Table.find_nil (k : Nat) : Table.find ([] : Table α) k = none := rfl

@[simp] theorem Table.find_cons (j k : Nat) (v : α) (t : Table α) :
    Table.find ((j, v) :: t) k = if j = k then some v else Table.find t k := rfl

@[simp] theorem Table.get_nil (d : α) (k : Nat) : Table.get d ([] : Table α) k = d := rfl

@[simp] theorem Table.get_cons (d : α) (j k : Nat) (v : α) (t : Table α) :
    Table.get d ((j, v) :: t) k = if j = k then v else Table.get d t k := by
  unfold Table.get
  rw [Table.find_cons]
  split <;> rfl

/-- A filter that looks at the index alone. -/
theorem Table.find_filter_key (f : Nat → Bool) (t : Table α) (k : Nat) :
    Table.find (t.filter fun e => f e.1) k = if f k then Table.find t k else none := by
  induction t with
  | nil => simp
  | cons e t ih =>
    obtain ⟨j, v⟩ := e
    by_cases hj : f j = true
    · rw [List.filter_cons_of_pos (by simpa using hj), Table.find_cons, Table.find_cons, ih]
      by_cases hk : j = k
      · subst hk; simp [hj]
      · simp [hk]
    · rw [List.filter_cons_of_neg (by simpa using hj), ih, Table.find_cons]
      by_cases hk : j = k
      · subst hk; simp [hj]
      · simp [hk]

theorem Table.get_filter_key (d : α) (f : Nat → Bool) (t : Table α) (k : Nat) :
    Table.get d (t.filter fun e => f e.1) k = if f k then Table.get d t k else d := by
  unfold Table.get
  rw [Table.find_filter_key]
  split <;> rfl

theorem Table.find_erase (t : Table α) (j k : Nat) :
    Table.find (Table.erase t j) k = if k = j then none else Table.find t k := by
  unfold Table.erase
  rw [Table.find_filter_key (fun i => i != j)]
  by_cases h : k = j <;> simp [h]

theorem Table.find_insert_self (t : Table α) (k : Nat) (v : α) (h : Table.find t k = none) :
    Table.find (Table.insert t k v) k = some v := by
  induction t with
  | nil => simp [Table.insert]
  | cons e t ih =>
    obtain ⟨j, w⟩ := e
    have hj : j ≠ k := by
      intro hj
      simp [hj] at h
    have ht : Table.find t k = none := by simpa [hj] using h
    unfold Table.insert
    split
    · simp
    · simp [hj, ih ht]

theorem Table.find_insert_ne (t : Table α) (j k : Nat) (v : α) (h : k ≠ j) :
    Table.find (Table.insert t j v) k = Table.find t k := by
  induction t with
  | nil => simp [Table.insert, Ne.symm h]
  | cons e t ih =>
    obtain ⟨i, w⟩ := e
    unfold Table.insert
    split
    · simp [Ne.symm h]
    · simp [ih]

/-- What is listed after `put`. -/
theorem Table.find_put (t : Table α) (j k : Nat) (v : α) :
    Table.find (Table.put t j v) k = if k = j then some v else Table.find t k := by
  unfold Table.put
  split
  · next h => subst h; exact Table.find_insert_self _ _ _ (by simp [Table.find_erase])
  · next h => rw [Table.find_insert_ne _ _ _ _ h, Table.find_erase, if_neg h]

/-- What is read after `set`: the value written at its index, every other index as before. -/
theorem Table.get_set [DecidableEq α] (d : α) (t : Table α) (j k : Nat) (v : α) :
    Table.get d (Table.set d t j v) k = if k = j then v else Table.get d t k := by
  unfold Table.set Table.get
  split
  · next h =>
    rw [Table.find_erase]
    split <;> simp [h]
  · rw [Table.find_put]
    split <;> simp

@[simp] theorem Table.get_set_self [DecidableEq α] (d : α) (t : Table α) (k : Nat) (v : α) :
    Table.get d (Table.set d t k v) k = v := by simp [Table.get_set]

theorem Table.get_set_ne [DecidableEq α] (d : α) (t : Table α) (j k : Nat) (v : α) (h : k ≠ j) :
    Table.get d (Table.set d t j v) k = Table.get d t k := by simp [Table.get_set, h]

/-! ### Entries of a canonical table -/

/-- In a table with rising indices, an entry is exactly what is found at its index. -/
theorem Table.mem_iff_find {t : Table α} (h : Table.Rising t) (k : Nat) (v : α) :
    (k, v) ∈ t ↔ Table.find t k = some v := by
  induction t with
  | nil => simp
  | cons e t ih =>
    obtain ⟨j, w⟩ := e
    have h2 : (∀ e ∈ t, j < e.1) ∧ Table.Rising t := by
      simpa [Table.Rising, List.pairwise_cons] using h
    rw [List.mem_cons, Table.find_cons, ih h2.2]
    constructor
    · rintro (he | he)
      · obtain ⟨rfl, rfl⟩ := Prod.mk.inj he
        simp
      · have hm := (ih h2.2).mpr he
        have := h2.1 _ hm
        rw [if_neg (by simp at this; omega)]
        exact he
    · intro he
      split at he
      · next hj => exact Or.inl (by simp_all)
      · exact Or.inr he

theorem Table.find_mem {t : Table α} {k : Nat} {v : α} (h : Table.find t k = some v) : (k, v) ∈ t := by
  induction t with
  | nil => simp at h
  | cons e t ih =>
    obtain ⟨j, w⟩ := e
    rw [Table.find_cons] at h
    split at h
    · next hj => subst hj; simp_all
    · exact List.mem_cons_of_mem _ (ih h)

theorem Table.find_mapAll [DecidableEq α] (d : α) (f : Nat → α → α) {t : Table α} (h : Table.Rising t) (k : Nat) :
    Table.find (Table.mapAll d f t) k =
      (Table.find t k).bind fun v => if f k v = d then none else some (f k v) := by
  induction t with
  | nil => rfl
  | cons e t ih =>
    obtain ⟨j, v⟩ := e
    have h2 : (∀ e ∈ t, j < e.1) ∧ Table.Rising t := by
      simpa [Table.Rising, List.pairwise_cons] using h
    have hnone : Table.find t j = none := by
      cases hf : Table.find t j with
      | none => rfl
      | some w => exact absurd (h2.1 _ (Table.find_mem hf)) (by simp)
    have ih' := ih h2.2
    unfold Table.mapAll at ih' ⊢
    by_cases hd : f j v = d
    · rw [List.filterMap_cons_none (by simp [hd]), ih', Table.find_cons]
      by_cases hk : j = k
      · subst hk; simp [hnone, hd]
      · simp [hk]
    · rw [List.filterMap_cons_some (by simp [hd]; rfl), Table.find_cons, ih', Table.find_cons]
      by_cases hk : j = k
      · subst hk; simp [hd]
      · simp [hk]

/-- What is read after `mapAll`: `f` of what stood there, the default staying the default. -/
theorem Table.get_mapAll [DecidableEq α] (d : α) (f : Nat → α → α) {t : Table α} (h : Table.Rising t) (k : Nat)
    (hf : f k d = d) : Table.get d (Table.mapAll d f t) k = f k (Table.get d t k) := by
  unfold Table.get
  rw [Table.find_mapAll d f h]
  cases Table.find t k with
  | none => simp [hf]
  | some v =>
    by_cases hd : f k v = d <;> simp [hd]

/-! ### The canonical form is kept -/

theorem Table.rising_filter (f : Nat × α → Bool) {t : Table α} (h : Table.Rising t) : Table.Rising (t.filter f) :=
  h.sublist (List.Sublist.map _ List.filter_sublist)

theorem Table.rising_erase {t : Table α} (k : Nat) (h : Table.Rising t) : Table.Rising (Table.erase t k) :=
  Table.rising_filter _ h

theorem Table.mem_erase {t : Table α} {k : Nat} {e : Nat × α} : e ∈ Table.erase t k ↔ e ∈ t ∧ e.1 ≠ k := by
  simp [Table.erase, List.mem_filter]

theorem Table.mem_insert {t : Table α} {k : Nat} {v : α} {e : Nat × α} :
    e ∈ Table.insert t k v ↔ e = (k, v) ∨ e ∈ t := by
  induction t with
  | nil => simp [Table.insert]
  | cons x t ih =>
    unfold Table.insert
    split
    · simp
    · rw [List.mem_cons, ih, List.mem_cons]
      tauto

theorem Table.rising_insert {t : Table α} (k : Nat) (v : α) (h : Table.Rising t) (hk : ∀ e ∈ t, e.1 ≠ k) :
    Table.Rising (Table.insert t k v) := by
  induction t with
  | nil => simp [Table.insert, Table.Rising]
  | cons e t ih =>
    have h2 : (∀ x ∈ t, e.1 < x.1) ∧ Table.Rising t := by
      simpa [Table.Rising, List.pairwise_cons] using h
    unfold Table.insert
    split
    · next hlt =>
      simp only [Table.Rising, List.map_cons, List.pairwise_cons, List.mem_cons, List.mem_map, forall_eq_or_imp,
        forall_exists_index, and_imp, forall_apply_eq_imp_iff₂]
      exact ⟨⟨hlt, fun x hx => lt_trans hlt (h2.1 x hx)⟩, h2.1, h2.2⟩
    · next hge =>
      have hek : e.1 < k := lt_of_le_of_ne (not_lt.mp hge) (hk e (by simp))
      simp only [Table.Rising, List.map_cons, List.pairwise_cons, List.mem_map, forall_exists_index, and_imp,
        forall_apply_eq_imp_iff₂]
      refine ⟨fun x hx => ?_, ih h2.2 fun x hx => hk x (by simp [hx])⟩
      rcases Table.mem_insert.mp hx with rfl | hx
      · exact hek
      · exact h2.1 x hx

theorem Table.mem_put {t : Table α} {k : Nat} {v : α} {e : Nat × α} :
    e ∈ Table.put t k v ↔ e = (k, v) ∨ (e ∈ t ∧ e.1 ≠ k) := by
  simp [Table.put, Table.mem_insert, Table.mem_erase]

theorem Table.rising_put {t : Table α} (k : Nat) (v : α) (h : Table.Rising t) : Table.Rising (Table.put t k v) :=
  Table.rising_insert k v (Table.rising_erase k h) fun _ he => (Table.mem_erase.mp he).2

theorem Table.rising_set [DecidableEq α] (d : α) {t : Table α} (k : Nat) (v : α) (h : Table.Rising t) :
    Table.Rising (Table.set d t k v) := by
  unfold Table.set
  split
  · exact Table.rising_erase k h
  · exact Table.rising_put k v h

theorem Table.below_put {n : Nat} {t : Table α} {k : Nat} (v : α) (hk : k < n) (h : Table.Below n t) :
    Table.Below n (Table.put t k v) := by
  intro e he
  rcases Table.mem_put.mp he with rfl | he
  · exact hk
  · exact h e he.1

theorem Table.below_set [DecidableEq α] (d : α) {n : Nat} {t : Table α} {k : Nat} (v : α) (hk : k < n)
    (h : Table.Below n t) : Table.Below n (Table.set d t k v) := by
  unfold Table.set
  split
  · exact fun e he => h e (Table.mem_erase.mp he).1
  · exact Table.below_put v hk h

theorem Table.noDefault_set [DecidableEq α] (d : α) {t : Table α} (k : Nat) (v : α) (h : Table.NoDefault d t) :
    Table.NoDefault d (Table.set d t k v) := by
  unfold Table.set
  split
  · exact fun e he => h e (Table.mem_erase.mp he).1
  · next hv =>
    intro e he
    rcases Table.mem_put.mp he with rfl | he
    · exact hv
    · exact h e he.1

theorem Table.rising_mapAll [DecidableEq α] (d : α) (f : Nat → α → α) {t : Table α} (h : Table.Rising t) :
    Table.Rising (Table.mapAll d f t) := by
  have hs : ((Table.mapAll d f t).map Prod.fst).Sublist (t.map Prod.fst) := by
    clear h
    induction t with
    | nil => simp [Table.mapAll]
    | cons e t ih =>
      unfold Table.mapAll at ih ⊢
      by_cases hd : f e.1 e.2 = d
      · rw [List.filterMap_cons_none (by simp [hd]), List.map_cons]
        exact ih.cons _
      · rw [List.filterMap_cons_some (by simp [hd]; rfl), List.map_cons, List.map_cons]
        exact ih.cons_cons _
  exact h.sublist hs

theorem Table.noDefault_mapAll [DecidableEq α] (d : α) (f : Nat → α → α) (t : Table α) :
    Table.NoDefault d (Table.mapAll d f t) := by
  intro e he
  obtain ⟨x, _, hx⟩ := List.mem_filterMap.mp he
  split at hx
  · simp at hx
  · next hd =>
    obtain rfl := Option.some.inj hx
    exact hd

theorem Table.below_mapAll [DecidableEq α] (d : α) (f : Nat → α → α) {n : Nat} {t : Table α} (h : Table.Below n t) :
    Table.Below n (Table.mapAll d f t) := by
  intro e he
  obtain ⟨x, hm, hx⟩ := List.mem_filterMap.mp he
  split at hx
  · simp at hx
  · obtain rfl := Option.some.inj hx
    exact h x hm

/-! ### Counting entries -/

theorem Table.countP_insert (P : Nat × α → Bool) (t : Table α) (k : Nat) (v : α) :
    (Table.insert t k v).countP P = t.countP P + (if P (k, v) then 1 else 0) := by
  induction t with
  | nil => by_cases h : P (k, v) <;> simp [Table.insert, h]
  | cons e t ih =>
    unfold Table.insert
    split
    · rw [List.countP_cons]
    · rw [List.countP_cons, ih, List.countP_cons]; omega

theorem Table.countP_erase (P : Nat × α → Bool) {t : Table α} (k : Nat) (h : Table.Rising t) :
    (Table.erase t k).countP P + (if (Table.find t k).any (fun v => P (k, v)) then 1 else 0) = t.countP P := by
  induction t with
  | nil => simp [Table.erase]
  | cons e t ih =>
    obtain ⟨j, w⟩ := e
    have h2 : (∀ x ∈ t, j < x.1) ∧ Table.Rising t := by
      simpa [Table.Rising, List.pairwise_cons] using h
    by_cases hj : j = k
    · subst hj
      have he : Table.erase ((j, w) :: t) j = t := by
        simp only [Table.erase, List.filter_cons, bne_self_eq_false, Bool.false_eq_true, if_false]
        exact List.filter_eq_self.mpr fun x hx => by
          have := h2.1 x hx
          simp; omega
      rw [he, Table.find_cons, List.countP_cons]
      simp
    · have he : Table.erase ((j, w) :: t) k = (j, w) :: Table.erase t k := by
        simp [Table.erase, hj]
      rw [he, Table.find_cons, if_neg hj, List.countP_cons, List.countP_cons, ← ih h2.2]
      omega

/-- How a count of entries changes when one index is written, for a property the default does not have. -/
theorem Table.countP_set [DecidableEq α] (P : Nat × α → Bool) (d : α) {t : Table α} (k : Nat) (v : α)
    (h : Table.Rising t) (hd : P (k, d) = false) :
    (Table.set d t k v).countP P + (if P (k, Table.get d t k) then 1 else 0) =
      t.countP P + (if P (k, v) then 1 else 0) := by
  have he := Table.countP_erase P k h
  have hg : (if (Table.find t k).any (fun v => P (k, v)) then 1 else 0) = (if P (k, Table.get d t k) then 1 else 0) := by
    unfold Table.get
    cases Table.find t k <;> simp [hd]
  unfold Table.set
  split
  · next hv => subst hv; simp [hd]; omega
  · unfold Table.put
    rw [Table.countP_insert]; omega

end Sys2Proof.Machine
end

