-- ==== Sys2Proof/Laws/Memory.lean ====
section
/-! SUPPORT. The laws of payload memory: a read after a write, what a write of several bytes leaves alone, and the canonical
form, which every memory operation keeps. -/

namespace Sys2Proof.Machine

/-- A read after a write of one byte (R73). -/
theorem State.readByte_writeByte (s : State) (a b : Nat) (v : Byte) :
    (s.writeByte a v).readByte b = if b = a then v else s.readByte b := by
  unfold State.readByte State.writeByte
  simp only [Table.find_put]
  split <;> rfl

@[simp] theorem State.readByte_writeByte_self (s : State) (a : Nat) (v : Byte) : (s.writeByte a v).readByte a = v := by
  simp [State.readByte_writeByte]

theorem State.readByte_writeByte_ne (s : State) {a b : Nat} (v : Byte) (h : b ≠ a) :
    (s.writeByte a v).readByte b = s.readByte b := by simp [State.readByte_writeByte, h]

/-- A write of several bytes changes payload memory alone. -/
theorem State.writeBytes_only (s : State) (a : Nat) (vs : List Byte) :
    s.writeBytes a vs = { s with pmem := (s.writeBytes a vs).pmem } := by
  induction vs generalizing s a with
  | nil => rfl
  | cons v vs ih =>
    unfold State.writeBytes
    rw [ih]
    rfl

/-- A read after a write of several bytes. -/
theorem State.readByte_writeBytes (s : State) (a b : Nat) (vs : List Byte) :
    (s.writeBytes a vs).readByte b = if a ≤ b then vs.getD (b - a) (s.readByte b) else s.readByte b := by
  induction vs generalizing s a with
  | nil => simp [State.writeBytes]
  | cons v vs ih =>
    unfold State.writeBytes
    rw [ih, State.readByte_writeByte]
    rcases Nat.lt_trichotomy b a with h | h | h
    · rw [if_neg (by omega), if_neg (by omega), if_neg (by omega)]
    · subst h
      rw [if_neg (by omega)]
      simp
    · rw [if_pos (by omega), if_neg (by omega), if_pos (by omega)]
      obtain ⟨k, hk⟩ : ∃ k, b - a = k + 1 := ⟨b - a - 1, by omega⟩
      rw [hk, show b - (a + 1) = k by omega]
      simp

/-- A write of several bytes leaves every byte outside them alone. -/
theorem State.readByte_writeBytes_outside (s : State) {a b : Nat} (vs : List Byte) (h : b < a ∨ a + vs.length ≤ b) :
    (s.writeBytes a vs).readByte b = s.readByte b := by
  rw [State.readByte_writeBytes]
  split
  · exact List.getD_eq_default _ _ (by omega)
  · rfl

@[simp] theorem State.readBytes_length (s : State) (a n : Nat) : (s.readBytes a n).length = n := by
  induction n generalizing a with
  | zero => rfl
  | succ n ih => simp [State.readBytes, ih]

/-- `MemRead` gives the bytes of its range in order (R13). -/
theorem State.readBytes_getElem? (s : State) (a n i : Nat) :
    (s.readBytes a n)[i]? = if i < n then some (s.readByte (a + i)) else none := by
  induction n generalizing a i with
  | zero => simp [State.readBytes]
  | succ n ih =>
    cases i with
    | zero => simp [State.readBytes]
    | succ i => simp [State.readBytes, ih, show a + 1 + i = a + (i + 1) by omega]

/-- Two reads of a range agree when every byte of it does. -/
theorem State.readBytes_congr {s t : State} {a n : Nat} (h : ∀ b, a ≤ b → b < a + n → t.readByte b = s.readByte b) :
    t.readBytes a n = s.readBytes a n := by
  induction n generalizing a with
  | zero => rfl
  | succ n ih =>
    simp only [State.readBytes]
    rw [h a (by omega) (by omega), ih fun b hb hb' => h b (by omega) (by omega)]

/-- `MemRead` after `MemWrite` of the same range (R13, R73). -/
theorem State.readBytes_writeBytes (s : State) (a : Nat) (vs : List Byte) :
    (s.writeBytes a vs).readBytes a vs.length = vs := by
  apply List.ext_getElem?
  intro i
  rw [State.readBytes_getElem?]
  split
  · next h => rw [State.readByte_writeBytes, if_pos (by omega)]; simp [h]
  · next h => simp [List.getElem?_eq_none (not_lt.mp h)]

@[simp] theorem bytes8List_length (b : Bytes8) : (bytes8List b).length = 8 := rfl

theorem State.writeBytes8_only (s : State) (a : Nat) (v : Bytes8) :
    s.writeBytes8 a v = { s with pmem := (s.writeBytes8 a v).pmem } := State.writeBytes_only s a (bytes8List v)

theorem State.readByte_writeBytes8_outside (s : State) {a b : Nat} (v : Bytes8) (h : b < a ∨ a + 8 ≤ b) :
    (s.writeBytes8 a v).readByte b = s.readByte b := State.readByte_writeBytes_outside s _ (by simpa using h)

/-- Eight bytes read as a string (R64). -/
theorem State.bytes8List_readBytes8 (s : State) (a : Nat) : bytes8List (s.readBytes8 a) = s.readBytes a 8 := by
  simp [bytes8List, State.readBytes8, State.readBytes]

/-! ### The canonical form -/

theorem State.writeByte_wf (s : State) (a : Nat) (v : Byte) (h : Memory.wf s.pmem) : Memory.wf (s.writeByte a v).pmem :=
  Table.rising_put a v h

theorem State.writeByte_below (s : State) {n a : Nat} (v : Byte) (ha : a < n) (h : Table.Below n s.pmem) :
    Table.Below n (s.writeByte a v).pmem := Table.below_put v ha h

theorem State.writeBytes_wf (s : State) (a : Nat) (vs : List Byte) (h : Memory.wf s.pmem) :
    Memory.wf (s.writeBytes a vs).pmem := by
  induction vs generalizing s a with
  | nil => exact h
  | cons v vs ih => exact ih _ _ (State.writeByte_wf s a v h)

theorem State.writeBytes_below (s : State) {n a : Nat} (vs : List Byte) (ha : a + vs.length ≤ n)
    (h : Table.Below n s.pmem) : Table.Below n (s.writeBytes a vs).pmem := by
  induction vs generalizing s a with
  | nil => exact h
  | cons v vs ih =>
    simp only [List.length_cons] at ha
    exact ih _ (by omega) (State.writeByte_below s v (by omega) h)

theorem State.writeBytes8_wf (s : State) (a : Nat) (v : Bytes8) (h : Memory.wf s.pmem) :
    Memory.wf (s.writeBytes8 a v).pmem := State.writeBytes_wf s a _ h

/-- Payload memory is in canonical form after reset. -/
theorem State.resetWith_wf (p : Config.Params) (n : Nat) : Memory.wf (State.resetWith p n).pmem := by
  simp [State.resetWith, Memory.wf, Table.Rising]

end Sys2Proof.Machine
end

