-- ==== Sys2Proof/Laws/Chain.lean ====
section
/-! SUPPORT. What the shared operations of unit CE can do, once each: the checks of R130, the transform (payload memory
alone changes, and only in its range), and the command over both. -/

namespace Sys2Proof.Machine

/-! ### Reading a table after its own update -/

theorem State.ctx_setCtx (s : State) (j k : Nat) (x : Context) : (s.setCtx j x).ctx k = if k = j then x else s.ctx k :=
  Table.get_set _ _ _ _ _

theorem State.mapAt_setMap (s : State) (j k : Nat) (x : MapEntry) :
    (s.setMap j x).mapAt k = if k = j then x else s.mapAt k := Table.get_set _ _ _ _ _

theorem State.progAt_setProg (s : State) (j k : Nat) (x : ProgSlot) :
    (s.setProg j x).progAt k = if k = j then x else s.progAt k := Table.get_set _ _ _ _ _

theorem State.decAt_setDec (s : State) (j k : Nat) (x : DecSlot) :
    (s.setDec j x).decAt k = if k = j then x else s.decAt k := Table.get_set _ _ _ _ _

@[simp] theorem State.ctx_setCtx_self (s : State) (k : Nat) (x : Context) : (s.setCtx k x).ctx k = x := by
  simp [State.ctx_setCtx]

@[simp] theorem State.mapAt_setMap_self (s : State) (k : Nat) (x : MapEntry) : (s.setMap k x).mapAt k = x := by
  simp [State.mapAt_setMap]

@[simp] theorem State.progAt_setProg_self (s : State) (k : Nat) (x : ProgSlot) : (s.setProg k x).progAt k = x := by
  simp [State.progAt_setProg]

@[simp] theorem State.decAt_setDec_self (s : State) (k : Nat) (x : DecSlot) : (s.setDec k x).decAt k = x := by
  simp [State.decAt_setDec]

/-! ### The response -/

/-- What a normal end appends to the response port (R82). -/
theorem respond_rsp (u : Port) (fs : List Byte) (s : State) :
    (respond u fs s).rsp = s.rsp ++ (match u with
      | .ce => [0x00]
      | .dx => 0x00 :: phaseCode s.pipe.phase :: fs) := by cases u <;> rfl

/-- An error status writes the response and nothing else (R201, R204). -/
theorem raise_eq (u : Port) (e : Status) (s : State) :
    raise u e s = { s with rsp := s.rsp ++ (match u with
      | .ce => [statusCode e]
      | .dx => [statusCode e, phaseCode s.pipe.phase]) } := by cases u <;> rfl

/-! ### The checks -/

/-- Which status the prerequisites give (R130, R196). -/
theorem missingPrerequisite_cases (f : Flags) :
    (f.iv = false ∧ missingPrerequisite f = some .unsetInitVector) ∨
    (f.iv = true ∧ f.sk = false ∧ missingPrerequisite f = some .unsetSystemKey) ∨
    (f.iv = true ∧ f.sk = true ∧ f.dk = false ∧ missingPrerequisite f = some .unsetDataKey) ∨
    (f.iv = true ∧ f.sk = true ∧ f.dk = true ∧ missingPrerequisite f = none) := by
  obtain ⟨i, k, d⟩ := f
  cases i <;> cases k <;> cases d <;> simp [missingPrerequisite]

/-- When every check of R130 passes. -/
theorem chainCheck_none_iff (t : BitVec 2) (c a n : Nat) (s : State) :
    chainCheck t c a n s = none ↔
      (ctxOk s.par c && rangeOk s.par a n && tOk s.par t) = true ∧
        (s.ctx c).st.iv = true ∧ (s.ctx c).st.sk = true ∧ (s.ctx c).st.dk = true := by
  unfold chainCheck
  split
  · next h =>
    rcases missingPrerequisite_cases (s.ctx c).st with h1 | h1 | h1 | h1 <;> simp [h1, h]
  · next h => simp [h]

/-! ### The transform -/

/-- One block changes payload memory alone. -/
theorem chainBlock_only (dir : Direction) (w : Words8) (r a : Nat) (cbc : Block) (s : State) :
    (chainBlock dir w r a cbc s).2 = { s with pmem := (chainBlock dir w r a cbc s).2.pmem } := by
  cases dir <;> exact State.writeBytes8_only s a _

theorem chainBlocks_only (dir : Direction) (w : Words8) (r q a : Nat) (cbc : Block) (s : State) :
    (chainBlocks dir w r q a cbc s).2 = { s with pmem := (chainBlocks dir w r q a cbc s).2.pmem } := by
  induction q generalizing a cbc s with
  | zero => rfl
  | succ q ih =>
    simp only [chainBlocks]
    rw [ih, chainBlock_only]

theorem chainTail_only (ks : List Byte) (a : Nat) (s : State) :
    chainTail ks a s = { s with pmem := (chainTail ks a s).pmem } := by
  induction ks generalizing a s with
  | nil => rfl
  | cons k ks ih =>
    simp only [chainTail]
    rw [ih]
    rfl

/-- The transform changes payload memory alone: no register, no table, no port (R132, R134). -/
theorem chainRun_only (dir : Direction) (w : Words8) (r : Nat) (iv : Block) (a n : Nat) (s : State) :
    chainRun dir w r iv a n s = { s with pmem := (chainRun dir w r iv a n s).pmem } := by
  unfold chainRun
  split
  · exact chainBlocks_only ..
  · rw [chainTail_only, chainBlocks_only]

theorem chainBlock_outside (dir : Direction) (w : Words8) (r a : Nat) (cbc : Block) (s : State) {b : Nat}
    (h : b < a ∨ a + 8 ≤ b) : (chainBlock dir w r a cbc s).2.readByte b = s.readByte b := by
  cases dir <;> exact State.readByte_writeBytes8_outside s _ h

theorem chainBlocks_outside (dir : Direction) (w : Words8) (r q a : Nat) (cbc : Block) (s : State) {b : Nat}
    (h : b < a ∨ a + 8 * q ≤ b) : (chainBlocks dir w r q a cbc s).2.readByte b = s.readByte b := by
  induction q generalizing a cbc s with
  | zero => rfl
  | succ q ih =>
    simp only [chainBlocks]
    rw [ih _ _ _ (by omega), chainBlock_outside _ _ _ _ _ _ (by omega)]

theorem chainTail_outside (ks : List Byte) (a : Nat) (s : State) {b : Nat} (h : b < a ∨ a + ks.length ≤ b) :
    (chainTail ks a s).readByte b = s.readByte b := by
  induction ks generalizing a s with
  | nil => rfl
  | cons k ks ih =>
    simp only [List.length_cons] at h
    simp only [chainTail]
    rw [ih _ _ (by omega), State.readByte_writeByte_ne _ _ (by omega)]

/-- The transform leaves every byte outside its range alone (R61). -/
theorem chainRun_outside (dir : Direction) (w : Words8) (r : Nat) (iv : Block) (a n : Nat) (s : State) {b : Nat}
    (h : b < a ∨ a + n ≤ b) : (chainRun dir w r iv a n s).readByte b = s.readByte b := by
  unfold chainRun
  simp only
  split
  · exact chainBlocks_outside _ _ _ _ _ _ _ (by omega)
  · rw [chainTail_outside _ _ _ (by simp only [List.length_take, bytes8List_length]; omega),
      chainBlocks_outside _ _ _ _ _ _ _ (by omega)]

/-! ### The canonical form of payload memory -/

theorem chainBlock_wf (dir : Direction) (w : Words8) (r a : Nat) (cbc : Block) (s : State) (h : Memory.wf s.pmem) :
    Memory.wf (chainBlock dir w r a cbc s).2.pmem := by
  cases dir <;> exact State.writeBytes8_wf s a _ h

theorem chainBlocks_wf (dir : Direction) (w : Words8) (r q a : Nat) (cbc : Block) (s : State) (h : Memory.wf s.pmem) :
    Memory.wf (chainBlocks dir w r q a cbc s).2.pmem := by
  induction q generalizing a cbc s with
  | zero => exact h
  | succ q ih => exact ih _ _ _ (chainBlock_wf _ _ _ _ _ _ h)

theorem chainTail_wf (ks : List Byte) (a : Nat) (s : State) (h : Memory.wf s.pmem) :
    Memory.wf (chainTail ks a s).pmem := by
  induction ks generalizing a s with
  | nil => exact h
  | cons k ks ih => exact ih _ _ (State.writeByte_wf s a _ h)

/-- The transform keeps the canonical form of payload memory. -/
theorem chainRun_wf (dir : Direction) (w : Words8) (r : Nat) (iv : Block) (a n : Nat) (s : State)
    (h : Memory.wf s.pmem) : Memory.wf (chainRun dir w r iv a n s).pmem := by
  unfold chainRun
  split
  · exact chainBlocks_wf _ _ _ _ _ _ _ h
  · exact chainTail_wf _ _ _ (chainBlocks_wf _ _ _ _ _ _ _ h)

/-! ### The whole command -/

/-- What an encrypt or decrypt can do: the first failing check, or the transform (R130 to R134). -/
theorem chainCommand_cases (dir : Direction) (t : BitVec 2) (c a n : Nat) (s : State) :
    (∃ e, chainCheck t c a n s = some e ∧ chainCommand dir t c a n s = .error e) ∨
    (chainCheck t c a n s = none ∧
      chainCommand dir t c a n s =
        .ok (chainRun dir (selectWorkKey t (s.ctx c)) (s.ctx c).round.toNat (s.ctx c).iv a n s)) := by
  unfold chainCommand
  cases h : chainCheck t c a n s with
  | some e => exact .inl ⟨e, rfl, rfl⟩
  | none => exact .inr ⟨rfl, rfl⟩

end Sys2Proof.Machine
end

