-- ==== Sys2Proof/Laws/PerInstr.lean ====
section
/-! SUPPORT. A property of every command as syntax, one lemma per constructor: the encoding of a command is as long as its
opcode byte says (spec/30_encoding.md R83, R84). -/

namespace Sys2Proof.Laws.EncodedLength

open Sys2Proof.Machine

/-- The encoding begins with an opcode byte that selects a row of R84, and has that row's length. -/
def Statement (i : Instr) : Prop :=
  ∃ b rest, encode i = b :: rest ∧ (opcodeRow b).isSome = true ∧ (encode i).length = commandLength b

theorem setSystemKey (c : Byte) (k : Bytes32) : Statement (.setSystemKey c k) := ⟨_, _, rfl, rfl, rfl⟩
theorem setInitVector (c : Byte) (v : Bytes8) : Statement (.setInitVector c v) := ⟨_, _, rfl, rfl, rfl⟩
theorem setDataKey (c : Byte) (k : Bytes16) : Statement (.setDataKey c k) := ⟨_, _, rfl, rfl, rfl⟩
theorem clearDataKey (c : Byte) : Statement (.clearDataKey c) := ⟨_, _, rfl, rfl, rfl⟩
theorem setRound (c n : Byte) : Statement (.setRound c n) := ⟨_, _, rfl, rfl, rfl⟩

theorem encrypt (t : BitVec 2) (c : Byte) (a n : Half) : Statement (.encrypt t c a n) :=
  ⟨_, _, rfl, by revert t; decide, by
    have h : ∀ t : BitVec 2, commandLength (0x10 ||| t.zeroExtend 8) = 6 := by decide
    rw [h]; rfl⟩

theorem decrypt (t : BitVec 2) (c : Byte) (a n : Half) : Statement (.decrypt t c a n) :=
  ⟨_, _, rfl, by revert t; decide, by
    have h : ∀ t : BitVec 2, commandLength (0x14 ||| t.zeroExtend 8) = 6 := by decide
    rw [h]; rfl⟩

theorem dmxReset : Statement .dmxReset := ⟨_, _, rfl, rfl, rfl⟩
theorem dmxConfig (f n : Byte) : Statement (.dmxConfig f n) := ⟨_, _, rfl, rfl, rfl⟩
theorem dmxUnit (z : Half) : Statement (.dmxUnit z) := ⟨_, _, rfl, rfl, rfl⟩
theorem dmxPacket (a : Half) : Statement (.dmxPacket a) := ⟨_, _, rfl, rfl, rfl⟩
theorem patBegin : Statement .patBegin := ⟨_, _, rfl, rfl, rfl⟩
theorem progAdd (n p : Half) : Statement (.progAdd n p) := ⟨_, _, rfl, rfl, rfl⟩
theorem roleSet (p : Half) (x : Byte) : Statement (.roleSet p x) := ⟨_, _, rfl, rfl, rfl⟩
theorem pmtBegin (p : Byte) (c : Half) : Statement (.pmtBegin p c) := ⟨_, _, rfl, rfl, rfl⟩
theorem decOpen (p : Half) : Statement (.decOpen p) := ⟨_, _, rfl, rfl, rfl⟩
theorem strmBind (p : Byte) (q : Half) (t d : Byte) : Statement (.strmBind p q t d) := ⟨_, _, rfl, rfl, rfl⟩
theorem pmtEnd (p : Byte) : Statement (.pmtEnd p) := ⟨_, _, rfl, rfl, rfl⟩
theorem ecmBegin (d : Byte) : Statement (.ecmBegin d) := ⟨_, _, rfl, rfl, rfl⟩
theorem ecmDone (d f : Byte) (r : Half) (k : Bytes16) : Statement (.ecmDone d f r k) := ⟨_, _, rfl, rfl, rfl⟩
theorem emmOk : Statement .emmOk := ⟨_, _, rfl, rfl, rfl⟩
theorem dmxQuery (p : Byte) : Statement (.dmxQuery p) := ⟨_, _, rfl, rfl, rfl⟩

end Sys2Proof.Laws.EncodedLength
end

