-- ==== Sys2Proof/Laws/HostPort.lean ====
section
/-! SUPPORT. What the host's accesses can do, once each, and that the host and the block alternate (spec/20_memory.md R74): the
host's events have no step while a command is in flight, and the block has nothing to do while none is. -/

namespace Sys2Proof.Machine

/-- No command is in flight exactly while the bytes on the command port are no whole command (R63, R83). -/
theorem inFlight_eq_false_iff (s : State) : inFlight s = false ↔ decode s.cmd = .incomplete := by
  unfold inFlight
  split <;> simp_all

/-- With no command in flight the block does nothing (R74, R83). -/
theorem step_of_not_inFlight {s : State} (h : inFlight s = false) : step s = .next s := by
  rw [inFlight_eq_false_iff] at h
  simp only [step, h]

/-- A byte the host sends is appended to the command port, with no command in flight; nothing else changes. -/
theorem hostSendByte_next {b : Byte} {s t : State} (h : hostSendByte b s = .next t) :
    inFlight s = false ∧ t = { s with cmd := s.cmd ++ [b] } := by
  unfold hostSendByte at h
  split at h <;> cases h
  exact ⟨Bool.eq_false_iff.mpr ‹_›, rfl⟩

/-- With a command in flight no further byte is sent (R74, U4). -/
theorem hostSend_inFlight (b : Byte) (bs : List Byte) {s : State} (h : inFlight s = true) :
    hostSend (b :: bs) s = .refused .commandInFlight := by
  simp only [hostSend, hostSendByte, h, if_true]

/-- Bytes the host sends are appended to the command port; nothing else changes. -/
theorem hostSend_next {bs : List Byte} {s t : State} (h : hostSend bs s = .next t) : t = { s with cmd := s.cmd ++ bs } := by
  induction bs generalizing s with
  | nil =>
    cases h
    simp
  | cons b bs ih =>
    simp only [hostSend] at h
    split at h
    next u hu =>
      obtain ⟨-, rfl⟩ := hostSendByte_next hu
      simpa using ih h
    all_goals cases h

theorem take8_short {bs : List Byte} (h : bs.length < 8) : take8 bs = none := by
  unfold take8
  split
  · simp only [List.length_cons] at h
    omega
  · rfl

theorem take8_length {bs rest : List Byte} {x : Bytes8} (h : take8 bs = some (x, rest)) : bs.length = rest.length + 8 := by
  unfold take8 at h
  split at h <;> cases h
  rfl

theorem take16_short {bs : List Byte} (h : bs.length < 16) : take16 bs = none := by
  unfold take16
  split
  · rw [take8_short (by have := take8_length ‹_›; omega)]
  · rfl

theorem take16_length {bs rest : List Byte} {x : Bytes16} (h : take16 bs = some (x, rest)) :
    bs.length = rest.length + 16 := by
  unfold take16 at h
  split at h
  · next h8 =>
    split at h <;> cases h
    next h8' => rw [take8_length h8, take8_length h8']
  · cases h

theorem take32_short {bs : List Byte} (h : bs.length < 32) : take32 bs = none := by
  unfold take32
  split
  · rw [take16_short (by have := take16_length ‹_›; omega)]
  · rfl

/-- The operands of a row are not read from fewer bytes than the row's length (R83). -/
theorem decodeOperands_short {row : OpcodeRow} (hr : row ∈ opcodeTable) (b : Byte) {bs : List Byte}
    (h : bs.length + 1 < row.length) : decodeOperands row.mnemonic b bs = none := by
  simp only [opcodeTable, List.mem_cons, List.not_mem_nil, or_false] at hr
  rcases hr with rfl | rfl | rfl | rfl | rfl | rfl | rfl | rfl | rfl | rfl | rfl | rfl | rfl | rfl | rfl | rfl | rfl | rfl |
    rfl | rfl | rfl | rfl <;> dsimp only at h <;> simp only [decodeOperands]
  all_goals first
    | omega
    | (split
       · simp only [List.length_cons] at h
         first
           | omega
           | rw [take8_short (by omega)]; rfl
           | rw [take16_short (by omega)]; rfl
           | rw [take32_short (by omega)]; rfl
       · rfl)

/-- Fewer bytes than the length of the opcode byte's row are no command (R83). -/
theorem decode_short {b : Byte} {bs : List Byte} (ho : (opcodeRow b).isSome = true)
    (h : bs.length + 1 < commandLength b) : decode (b :: bs) = .incomplete := by
  obtain ⟨row, hr⟩ := Option.isSome_iff_exists.mp ho
  have hm : row ∈ opcodeTable := List.mem_of_find?_eq_some hr
  simp only [commandLength, hr] at h
  simp only [decode, hr, decodeOperands_short hm b h]

/-- Bytes of which no proper prefix is a whole command can be sent one after the other. -/
theorem hostSend_incomplete {s : State} (bs : List Byte)
    (h : ∀ p q, bs = p ++ q → q ≠ [] → decode (s.cmd ++ p) = .incomplete) :
    hostSend bs s = .next { s with cmd := s.cmd ++ bs } := by
  induction bs generalizing s with
  | nil => simp [hostSend]
  | cons b bs ih =>
    have h0 : inFlight s = false := (inFlight_eq_false_iff s).mpr (by simpa using h [] (b :: bs) rfl (by simp))
    have ih' := @ih { s with cmd := s.cmd ++ [b] } fun p q hp hq => by
      simpa using h (b :: p) q (by simp [hp]) hq
    simpa [hostSend, hostSendByte, h0] using ih'

/-- The host can issue every command between commands (R60, R74). -/
theorem hostSend_encode (i : Instr) {s : State} (h : s.cmd = []) :
    hostSend (encode i) s = .next { s with cmd := encode i } := by
  have he : Laws.EncodedLength.Statement i := by
    cases i
    all_goals first
      | exact Laws.EncodedLength.encrypt ..
      | exact Laws.EncodedLength.decrypt ..
      | exact ⟨_, _, rfl, rfl, rfl⟩
  obtain ⟨b, rest, hb, ho, hl⟩ := he
  have key := @hostSend_incomplete s (encode i) fun p q hp hq => by
    rw [h, List.nil_append]
    cases p with
    | nil => rfl
    | cons c p =>
      rw [hb, List.cons_append] at hp
      cases hp
      refine decode_short ho ?_
      rw [← hl, hb]
      have := List.length_pos_iff.mpr hq
      simp only [List.length_cons, List.length_append]
      omega
  simpa [h] using key

/-- A host write is the write of one byte that exists, between commands (R61, R74). -/
theorem hostWrite_next {a : Nat} {v : Byte} {s t : State} (h : hostWrite a v s = .next t) :
    s.cmd = [] ∧ a < s.par.pmemSize ∧ t = s.writeByte a v := by
  unfold hostWrite at h
  split at h
  · cases h
  · split at h <;> cases h
    exact ⟨not_not.mp ‹_›, ‹_›, rfl⟩

/-- A host read is the read of one byte that exists, between commands (R61, R74). -/
theorem hostRead_next {a : Nat} {v : Byte} {s : State} (h : hostRead a s = .next v) :
    s.cmd = [] ∧ a < s.par.pmemSize ∧ v = s.readByte a := by
  unfold hostRead at h
  split at h
  · cases h
  · split at h <;> cases h
    exact ⟨not_not.mp ‹_›, ‹_›, rfl⟩

/-- A host write keeps the canonical form of payload memory. -/
theorem hostWrite_wf {a : Nat} {v : Byte} {s t : State} (hw : Memory.wf s.pmem) (h : hostWrite a v s = .next t) :
    Memory.wf t.pmem := by
  obtain ⟨-, -, rfl⟩ := hostWrite_next h
  exact State.writeByte_wf s a v hw

end Sys2Proof.Machine
end

