-- ==== Sys2Proof/Laws/Topology.lean ====
section
/-! SUPPORT. What the shared operations of unit DX can do, once each: slot selection, the reference-count protocol, the
wiping of the tables and the phase machine. A lemma `<op>_only` says which fields the operation may change. -/

namespace Sys2Proof.Machine

/-! ### Slots -/

/-- `min(PHASE + 1, 2)`, as R177, R178 and R179 write it. -/
@[simp] theorem settleCode_settleBump (x : Settle) : settleCode (settleBump x) = min (settleCode x + 1) 2 := by
  cases x <;> rfl

theorem progValid_iff (s : State) (p : Nat) : progValid s p = true ↔ p < s.par.nProg ∧ (s.progAt p).valid = true := by
  simp [progValid]

theorem decValid_iff (s : State) (d : Nat) : decValid s d = true ↔ d < s.par.nCtx ∧ (s.decAt d).valid = true := by
  simp [decValid]

theorem mem_validDecs (s : State) (d : Nat) : d ∈ validDecs s ↔ decValid s d = true := by
  simp [validDecs, decValid_iff]

theorem mem_validProgs (s : State) (i : Nat) : i ∈ validProgs s ↔ progValid s i = true := by
  simp [validProgs, progValid_iff]

/-- The free program slot found is below `N_PROG` and free (R166). -/
theorem freeProg_some {s : State} {i : Nat} (h : freeProg s = some i) :
    i < s.par.nProg ∧ (s.progAt i).valid = false := by
  have h1 := List.mem_of_find?_eq_some h
  have h2 := List.find?_some h
  exact ⟨List.mem_range.mp h1, by simpa using h2⟩

/-- The free decryptor slot found is below `N_CTX` and free (R170). -/
theorem freeDec_some {s : State} {d : Nat} (h : freeDec s = some d) :
    d < s.par.nCtx ∧ (s.decAt d).valid = false := by
  have h1 := List.mem_of_find?_eq_some h
  have h2 := List.find?_some h
  exact ⟨List.mem_range.mp h1, by simpa using h2⟩

/-- The decryptor found for an ECM PID is valid and has it (R170). -/
theorem decOfEcm_some {s : State} {pid : Pid} {d : Nat} (h : decOfEcm s pid = some d) :
    decValid s d = true ∧ (s.decAt d).ecmPid = pid := by
  have h1 := List.mem_of_find?_eq_some h
  have h2 := List.find?_some h
  simp only [Bool.and_eq_true, beq_iff_eq] at h2
  exact ⟨(decValid_iff s d).mpr ⟨List.mem_range.mp h1, h2.1⟩, h2.2⟩

/-- What the decryptor selector can give (R173): a valid decryptor, or no decryptor. -/
theorem selectDec_some {s : State} {d : Byte} {l : Link} (h : selectDec s d = some l) :
    (∃ x, l = .dec x ∧ decValid s x = true) ∨ l = .none := by
  unfold selectDec at h
  split at h
  · next hv => exact .inl ⟨_, (Option.some.inj h).symm, hv⟩
  · split at h
    · exact .inr (Option.some.inj h).symm
    · split at h
      · split at h
        · next x hx =>
          exact .inl ⟨x, (Option.some.inj h).symm, (mem_validDecs s x).mp (by simp [hx])⟩
        · exact .inr (Option.some.inj h).symm
      · simp at h

/-! ### The reference-count protocol -/

theorem incDecRef_only (l : Link) (s : State) : incDecRef l s = { s with dec := (incDecRef l s).dec } := by
  cases l <;> rfl

theorem decDecRef_only (l : Link) (s : State) : decDecRef l s = { s with dec := (decDecRef l s).dec } := by
  cases l <;> rfl

/-- `bind` changes `MAP` and `DEC` alone (R172). -/
theorem bindPid_only (p : Nat) (t : Link) (s : State) :
    bindPid p t s = { s with map := (bindPid p t s).map, dec := (bindPid p t s).dec } := by
  unfold bindPid
  simp only
  split
  · rw [incDecRef_only]; rfl
  · split
    · rfl
    · rw [incDecRef_only, decDecRef_only]; rfl
  all_goals rfl

/-- `bind` changes the entry of `p` alone in `MAP` (R172). -/
theorem bindPid_mapAt_ne (p : Nat) (t : Link) (s : State) {q : Nat} (h : q ≠ p) :
    (bindPid p t s).mapAt q = s.mapAt q := by
  have hi : ∀ (l : Link) (u : State), (incDecRef l u).mapAt q = u.mapAt q := fun l u => by cases l <;> rfl
  have hd : ∀ (l : Link) (u : State), (decDecRef l u).mapAt q = u.mapAt q := fun l u => by cases l <;> rfl
  unfold bindPid
  simp only
  split
  · rw [hi, State.mapAt_setMap, if_neg h]
  · split
    · rw [State.mapAt_setMap, if_neg h]
    · rw [hi, hd, State.mapAt_setMap, if_neg h]
  all_goals rfl

/-- `release` changes `MAP` and `DEC` alone (R175). -/
theorem releasePid_only (p : Nat) (s : State) :
    releasePid p s = { s with map := (releasePid p s).map, dec := (releasePid p s).dec } := by
  unfold releasePid
  simp only
  split
  · split
    · rw [decDecRef_only]; rfl
    · rfl
  · rfl

/-- `release` changes the entry of `p` alone in `MAP` (R175). -/
theorem releasePid_mapAt_ne (p : Nat) (s : State) {q : Nat} (h : q ≠ p) : (releasePid p s).mapAt q = s.mapAt q := by
  have hd : ∀ (l : Link) (u : State), (decDecRef l u).mapAt q = u.mapAt q := fun l u => by cases l <;> rfl
  unfold releasePid
  simp only
  split
  · split
    · rw [hd, State.mapAt_setMap, if_neg h]
    · rw [State.mapAt_setMap, if_neg h]
  · rfl

theorem releaseList_only (es : List StreamElem) (s : State) :
    releaseList es s = { s with map := (releaseList es s).map, dec := (releaseList es s).dec } := by
  induction es generalizing s with
  | nil => rfl
  | cons e es ih =>
    simp only [releaseList]
    rw [ih, releasePid_only]

/-- `destroy` changes `MAP`, `DEC` and `CE` alone (R174). -/
theorem destroyDec_only (d : Nat) (s : State) :
    destroyDec d s = { s with
      map := (destroyDec d s).map, dec := (destroyDec d s).dec, ce := (destroyDec d s).ce } := rfl

/-- The sweep changes `MAP`, `DEC` and `CE` alone (R177). -/
theorem sweepDecs_only (ds : List Nat) (s : State) :
    sweepDecs ds s = { s with
      map := (sweepDecs ds s).map, dec := (sweepDecs ds s).dec, ce := (sweepDecs ds s).ce } := by
  induction ds generalizing s with
  | nil => rfl
  | cons d ds ih =>
    simp only [sweepDecs]
    split
    · rw [ih, destroyDec_only]
    · rw [ih]

/-! ### Wiping the tables -/

/-- The contexts after PAT_BEGIN or DMX_RESET: reset where the decryptor was valid, kept elsewhere (R159, R165). -/
theorem clearTopology_ctx (s : State) (c : Nat) :
    (clearTopology s).ctx c = if (s.decAt c).valid then Context.reset else s.ctx c := by
  unfold State.ctx clearTopology
  simp only
  rw [Table.get_filter_key Context.reset (fun d => !(s.decAt d).valid)]
  cases (s.decAt c).valid <;> simp

/-! ### The phase machine -/

/-- `advance()` changes the phase and the budget alone, and only forward from phase 2 or 3 (R183). -/
theorem advance_cases (s : State) :
    (advance s = s ∧ ¬ (s.pipe.phase = .pmt ∧ progsParsed s = true) ∧ ¬ (s.pipe.phase = .ecm ∧ decsParsed s = true)) ∨
    (advance s = enterPhase .ecm s ∧ s.pipe.phase = .pmt ∧ progsParsed s = true ∧ decsParsed s = false) ∨
    (advance s = enterPhase .steady s ∧ s.pipe.phase = .pmt ∧ progsParsed s = true ∧ decsParsed s = true) ∨
    (advance s = enterPhase .steady s ∧ s.pipe.phase = .ecm ∧ decsParsed s = true) := by
  have hd : decsParsed (enterPhase .ecm s) = decsParsed s := rfl
  unfold advance advancePmt
  by_cases h1 : s.pipe.phase = .pmt ∧ progsParsed s = true
  · rw [if_pos h1]
    unfold advanceEcm
    by_cases h2 : decsParsed s = true
    · right; right; left
      rw [if_pos ⟨rfl, by rw [hd]; exact h2⟩]
      exact ⟨rfl, h1.1, h1.2, h2⟩
    · right; left
      rw [if_neg (by rw [hd]; exact fun h => h2 h.2)]
      exact ⟨rfl, h1.1, h1.2, by simpa using h2⟩
  · rw [if_neg h1]
    unfold advanceEcm
    by_cases h2 : s.pipe.phase = .ecm ∧ decsParsed s = true
    · right; right; right
      rw [if_pos h2]
      exact ⟨rfl, h2⟩
    · left
      rw [if_neg h2]
      exact ⟨rfl, h1, h2⟩

/-- `advance()` changes the pipeline registers alone (R183). -/
theorem advance_only (s : State) : advance s = { s with pipe := (advance s).pipe } := by
  rcases advance_cases s with h | h | h | h <;> rw [h.1] <;> rfl

end Sys2Proof.Machine
end

