-- ==== Sys2Proof/Laws/Packet.lean ====
section
/-! SUPPORT. What DMX_PACKET can do, once: one lemma that lists its outcomes in the order of the steps of
spec/43_demux_packet.md R145, and one for the steady state's step 11. -/

namespace Sys2Proof.Machine

/-- Step 11 of R145: a clear packet, an undecrypted one, a descrambled one, or a DECRYPT that fails. -/
theorem steadyPacket_cases (a : Nat) (h : PacketHeader) (p : PayloadSpan) (s : State) :
    (scrambled h p = false ∧
      steadyPacket a h p s = .ok (clearRoute s (s.mapAt h.pid.toNat) p.len, countNormal h.pid.toNat s)) ∨
    (scrambled h p = true ∧ descrambler s (s.mapAt h.pid.toNat) = none ∧
      steadyPacket a h p s = .ok (.undec, countUndec h.pid.toNat s)) ∨
    (scrambled h p = true ∧ ∃ d u, descrambler s (s.mapAt h.pid.toNat) = some d ∧
      chainCommand .decrypt h.sc d (a + p.off) p.len s = .ok u ∧
      steadyPacket a h p s =
        .ok (.cipher, countNormal h.pid.toNat (u.writeByte (a + 3) (s.readByte (a + 3) &&& 0x3F)))) ∨
    (scrambled h p = true ∧ ∃ d e, descrambler s (s.mapAt h.pid.toNat) = some d ∧
      chainCommand .decrypt h.sc d (a + p.off) p.len s = .error e ∧
      steadyPacket a h p s = .error .decryptFailure) := by
  cases hs : scrambled h p with
  | false => exact .inl ⟨rfl, by unfold steadyPacket; simp only [hs]; rfl⟩
  | true =>
    right
    cases hd : descrambler s (s.mapAt h.pid.toNat) with
    | none => exact .inl ⟨rfl, rfl, by unfold steadyPacket; simp only [hs, hd]; rfl⟩
    | some d =>
      right
      cases hc : chainCommand .decrypt h.sc d (a + p.off) p.len s with
      | ok u => exact .inl ⟨rfl, d, u, rfl, hc, by unfold steadyPacket descramble; simp only [hs, hd, hc]; rfl⟩
      | error e => exact .inr ⟨rfl, d, e, rfl, hc, by unfold steadyPacket descramble; simp only [hs, hd, hc]; rfl⟩

/-- The response of a classified packet (R146). -/
def classifiedReply (v : Verdict) (r : Route) (a : Nat) (s : State) : List Byte :=
  replyBytes ⟨v, r, (s.mapAt (headerAt s a).pid.toNat).role, (s.mapAt (headerAt s a).pid.toNat).link,
    (headerAt s a).pusi, a + (spanAt s a (headerAt s a)).off, (spanAt s a (headerAt s a)).len⟩

/-- Steps 8 to 12 of R145: a corrupt packet, a packet held in acquisition, and the two ends of step 11. -/
theorem classifyPacket_cases (a : Nat) (s : State) :
    ((spanAt s a (headerAt s a)).corrupt = true ∧
      classifyPacket a (headerAt s a) s = respond .dx (replyBytes (bareReply .skip1)) (charge 1 s)) ∨
    ((spanAt s a (headerAt s a)).corrupt = false ∧ acquiring s.pipe.phase = true ∧
      classifyPacket a (headerAt s a) s =
        respond .dx
          (classifiedReply .hold
            (scanRoute s (s.mapAt (headerAt s a).pid.toNat)
              (scrambled (headerAt s a) (spanAt s a (headerAt s a))) (spanAt s a (headerAt s a)).len) a s)
          (charge s.pipe.unit.toNat s)) ∨
    ((spanAt s a (headerAt s a)).corrupt = false ∧ acquiring s.pipe.phase = false ∧
      ∃ e, steadyPacket a (headerAt s a) (spanAt s a (headerAt s a)) s = .error e ∧
        classifyPacket a (headerAt s a) s = raise .dx e s) ∨
    ((spanAt s a (headerAt s a)).corrupt = false ∧ acquiring s.pipe.phase = false ∧
      ∃ r u, steadyPacket a (headerAt s a) (spanAt s a (headerAt s a)) s = .ok (r, u) ∧
        classifyPacket a (headerAt s a) s = respond .dx (classifiedReply .emit r a s) u) := by
  unfold classifyPacket
  cases h1 : (spanAt s a (headerAt s a)).corrupt with
  | true => exact .inl ⟨rfl, if_pos h1⟩
  | false =>
    right
    cases h2 : acquiring s.pipe.phase with
    | true => exact .inl ⟨rfl, rfl, (if_neg (by simp [h1])).trans (if_pos rfl)⟩
    | false =>
      right
      cases h3 : steadyPacket a (headerAt s a) (spanAt s a (headerAt s a)) s with
      | error e => exact .inl ⟨rfl, rfl, e, rfl, by simp only [h1, h3]; rfl⟩
      | ok x => exact .inr ⟨rfl, rfl, x.1, x.2, rfl, by simp only [h1, h3]; rfl⟩

/-- Step 7 of R145 drops the packet: a null packet, outside the acquisition phases, with stripping on (R148). -/
def dropsNull (a : Nat) (s : State) : Prop :=
  acquiring s.pipe.phase = false ∧ (headerAt s a).pid = s.par.nullPid ∧ s.pipe.cfg.stripNull = true

/-- Steps 4 to 7 of R145: no sync byte, a used-up budget, the transport error indicator, a dropped null packet, or the
rest. -/
theorem examinePacket_cases (a : Nat) (s : State) :
    ((headerAt s a).sync ≠ 0x47 ∧ examinePacket a s = respond .dx (replyBytes (bareReply .resync)) s) ∨
    ((headerAt s a).sync = 0x47 ∧ ∃ e, budgetError s = some e ∧ examinePacket a s = raise .dx e s) ∨
    ((headerAt s a).sync = 0x47 ∧ budgetError s = none ∧ (headerAt s a).tei = true ∧
      examinePacket a s =
        respond .dx (replyBytes (bareReply (if acquiring s.pipe.phase then .hold else .emit)))
          (charge s.pipe.unit.toNat s)) ∨
    ((headerAt s a).sync = 0x47 ∧ budgetError s = none ∧ (headerAt s a).tei = false ∧ dropsNull a s ∧
      examinePacket a s = respond .dx (replyBytes (bareReply .drop)) s) ∨
    ((headerAt s a).sync = 0x47 ∧ budgetError s = none ∧ (headerAt s a).tei = false ∧ ¬ dropsNull a s ∧
      examinePacket a s = classifyPacket a (headerAt s a) s) := by
  by_cases h1 : (headerAt s a).sync = 0x47
  · have e1 : ∀ x y : State, (if (headerAt s a).sync ≠ 0x47 then x else y) = y := fun x y => if_neg (not_not.mpr h1)
    right
    cases h2 : budgetError s with
    | some e => exact .inl ⟨h1, e, rfl, by unfold examinePacket; simp only; rw [e1, h2]⟩
    | none =>
      right
      cases h3 : (headerAt s a).tei with
      | true => exact .inl ⟨h1, rfl, rfl, by unfold examinePacket; simp only; rw [e1, h2]; exact if_pos h3⟩
      | false =>
        right
        have e3 : examinePacket a s =
            if acquiring s.pipe.phase = false ∧ (headerAt s a).pid = s.par.nullPid ∧ s.pipe.cfg.stripNull = true
              then respond .dx (replyBytes (bareReply .drop)) s else classifyPacket a (headerAt s a) s := by
          unfold examinePacket; simp only; rw [e1, h2]; exact if_neg (by simp [h3])
        by_cases h4 : dropsNull a s
        · exact .inl ⟨h1, rfl, rfl, h4, e3.trans (if_pos h4)⟩
        · exact .inr ⟨h1, rfl, rfl, h4, e3.trans (if_neg h4)⟩
  · exact .inl ⟨h1, if_pos h1⟩

/-- DMX_PACKET as a whole (R145, steps 1 to 3, then the rest). -/
theorem execDmxPacket_cases (addr : Half) (s : State) :
    (packetOk s.par addr.toNat = false ∧ execDmxPacket addr s = .next (raise .dx .invalidParameter s)) ∨
    (packetOk s.par addr.toNat = true ∧ s.pipe.phase = .unit ∧
      execDmxPacket addr s = .next (raise .dx .badSequence s)) ∨
    (packetOk s.par addr.toNat = true ∧ s.pipe.phase ≠ .unit ∧ (advance s).pipe.phase ≠ s.pipe.phase ∧
      execDmxPacket addr s = .next (respond .dx (replyBytes (bareReply .hold)) (advance s))) ∨
    (packetOk s.par addr.toNat = true ∧ s.pipe.phase ≠ .unit ∧ (advance s).pipe.phase = s.pipe.phase ∧
      execDmxPacket addr s = .next (examinePacket addr.toNat s)) := by
  unfold execDmxPacket
  cases h1 : packetOk s.par addr.toNat with
  | false => exact .inl ⟨rfl, by simp [h1]⟩
  | true =>
    right
    by_cases h2 : s.pipe.phase = .unit
    · exact .inl ⟨rfl, h2, by simp [h1, h2]⟩
    · right
      by_cases h3 : (advance s).pipe.phase = s.pipe.phase
      · exact .inr ⟨rfl, h2, h3, by simp [h1, h2, h3]⟩
      · exact .inl ⟨rfl, h2, h3, by simp [h1, h2, h3]⟩

end Sys2Proof.Machine
end

