-- ==== Sys2Proof/Machine/Asm.lean ====
section
/-! DEFINITION. The assembler text of a command (spec/00_scope.md R14, spec/30_encoding.md R96): the mnemonic, `T` as a
suffix, then the operands in the order of R84, numbers as 0x and hexadecimal digits, byte strings as digits alone. -/

namespace Sys2Proof.Machine

/-- One hexadecimal digit. -/
def hexDigit (n : Nat) : Char := "0123456789ABCDEF".toList.getD n '0'

/-- The `d` low hexadecimal digits of a number, most significant first. -/
def hexDigits : Nat → Nat → List Char
  | 0, _ => []
  | d + 1, n => hexDigits d (n / 16) ++ [hexDigit (n % 16)]

/-- A byte as a number. -/
def asmByte (b : Byte) : List Char := '0' :: 'x' :: hexDigits 2 b.toNat

/-- A 16-bit field as a number. -/
def asmHalf (h : Half) : List Char := '0' :: 'x' :: hexDigits 4 h.toNat

/-- A byte string, two digits a byte, first byte first. -/
def asmBytes (bs : List Byte) : List Char := bs.flatMap fun b => hexDigits 2 b.toNat

/-- The operands, separated by commas. -/
def asmOperands : List (List Char) → List Char
  | [] => []
  | [x] => x
  | x :: y :: rest => x ++ [',', ' '] ++ asmOperands (y :: rest)

/-- A mnemonic and its operands. -/
def asmLine (mnemonic : String) (ops : List (List Char)) : List Char :=
  match ops with
  | [] => mnemonic.toList
  | _ => mnemonic.toList ++ [' '] ++ asmOperands ops

/-- The mnemonic of ENCRYPT or DECRYPT with its suffix `.T` (R14, R96). -/
def asmChain (mnemonic : String) (t : BitVec 2) (ops : List (List Char)) : List Char :=
  mnemonic.toList ++ ['.', hexDigit t.toNat, ' '] ++ asmOperands ops

/-- The assembler text of a command, as characters (R96). -/
def asmText (i : Instr) : List Char :=
  match i with
  | .setSystemKey c k => asmLine "SET_SYSTEM_KEY" [asmByte c, asmBytes (bytes32List k)]
  | .setInitVector c v => asmLine "SET_INIT_VECTOR" [asmByte c, asmBytes (bytes8List v)]
  | .setDataKey c k => asmLine "SET_DATA_KEY" [asmByte c, asmBytes (bytes16List k)]
  | .clearDataKey c => asmLine "CLEAR_DATA_KEY" [asmByte c]
  | .setRound c n => asmLine "SET_ROUND" [asmByte c, asmByte n]
  | .encrypt t c a n => asmChain "ENCRYPT" t [asmByte c, asmHalf a, asmHalf n]
  | .decrypt t c a n => asmChain "DECRYPT" t [asmByte c, asmHalf a, asmHalf n]
  | .dmxReset => asmLine "DMX_RESET" []
  | .dmxConfig f n => asmLine "DMX_CONFIG" [asmByte f, asmByte n]
  | .dmxUnit z => asmLine "DMX_UNIT" [asmHalf z]
  | .dmxPacket a => asmLine "DMX_PACKET" [asmHalf a]
  | .patBegin => asmLine "PAT_BEGIN" []
  | .progAdd n p => asmLine "PROG_ADD" [asmHalf n, asmHalf p]
  | .roleSet p x => asmLine "ROLE_SET" [asmHalf p, asmByte x]
  | .pmtBegin p c => asmLine "PMT_BEGIN" [asmByte p, asmHalf c]
  | .decOpen p => asmLine "DEC_OPEN" [asmHalf p]
  | .strmBind p q t d => asmLine "STRM_BIND" [asmByte p, asmHalf q, asmByte t, asmByte d]
  | .pmtEnd p => asmLine "PMT_END" [asmByte p]
  | .ecmBegin d => asmLine "ECM_BEGIN" [asmByte d]
  | .ecmDone d f r k => asmLine "ECM_DONE" [asmByte d, asmByte f, asmHalf r, asmBytes (bytes16List k)]
  | .emmOk => asmLine "EMM_OK" []
  | .dmxQuery p => asmLine "DMX_QUERY" [asmByte p]

end Sys2Proof.Machine
end

