-- ==== Sys2Proof/Machine/Cost.lean ====
section
/-! DEFINITION. The cost measure of spec/70_reset_and_hazards.md R242: how many applications of a π function a command makes.
Timing information only; no meaning reads it. -/

namespace Sys2Proof.Machine

/-- The applications of ENCRYPT or DECRYPT over `n` bytes at round count `r`:
`8 * ROUND * (floor(LEN / 8) + (1 if LEN mod 8 != 0 else 0))` (R242). -/
def chainCost (r n : Nat) : Nat := 8 * r * (n / 8 + if n % 8 = 0 then 0 else 1)

/-- What the transform of a chaining command costs: nothing when a check ends it. -/
def chainCommandCost (t : BitVec 2) (c a n : Nat) (s : State) : Nat :=
  match chainCheck t c a n s with
  | some _ => 0
  | none => chainCost (s.ctx c).round.toNat n

/-- A SEPARATE MEASURE, not the one of R242: what the DECRYPT inside a DMX_PACKET costs, when the packet reaches it (R145 step
11, R150; assumption 12, DEDUCED). -/
def packetCost (a : Nat) (s : State) : Nat :=
  let h := headerAt s a
  let p := spanAt s a h
  if packetOk s.par a = true ∧ s.pipe.phase = .steady ∧ h.sync = 0x47 ∧ h.tei = false ∧
      ¬ (h.pid = s.par.nullPid ∧ s.pipe.cfg.stripNull = true) ∧ p.corrupt = false ∧ scrambled h p = true then
    match descrambler s (s.mapAt h.pid.toNat) with
    | some d => chainCommandCost h.sc d (a + p.off) p.len s
    | none => 0
  else 0

/-- The π-function applications of a command in a state (R242): 18 for SET_DATA_KEY and a purchased ECM_DONE, the
transform's for ENCRYPT and DECRYPT, and "every other command applies none", DMX_PACKET among them; what the DECRYPT that
DMX_PACKET runs applies is `packetCost` (assumption 12, DEDUCED). -/
def piApplications (i : Instr) (s : State) : Nat :=
  match i with
  | .setSystemKey _ _ => 0
  | .setInitVector _ _ => 0
  | .setDataKey ctx _ => if ctxOk s.par ctx.toNat then 18 else 0
  | .clearDataKey _ => 0
  | .setRound _ _ => 0
  | .encrypt t ctx addr len => chainCommandCost t ctx.toNat addr.toNat len.toNat s
  | .decrypt t ctx addr len => chainCommandCost t ctx.toNat addr.toNat len.toNat s
  | .dmxReset => 0
  | .dmxConfig _ _ => 0
  | .dmxUnit _ => 0
  | .dmxPacket _ => 0
  | .patBegin => 0
  | .progAdd _ _ => 0
  | .roleSet _ _ => 0
  | .pmtBegin _ _ => 0
  | .decOpen _ => 0
  | .strmBind _ _ _ _ => 0
  | .pmtEnd _ => 0
  | .ecmBegin _ => 0
  | .ecmDone d fail rc _ => if decValid s d.toNat = true ∧ fail = 0 ∧ rc ∈ s.par.purchasedSet then 18 else 0
  | .emmOk => 0
  | .dmxQuery _ => 0

end Sys2Proof.Machine
end

