-- ==== Sys2Proof/Machine/HostSequences.lean ====
section
/-! DEFINITION. The five pseudo-instructions of spec/30_encoding.md R97 as the command sequences they expand to. They have
no encoding; a host issues their commands, and some of them read a response before they go on. -/

namespace Sys2Proof.Machine

/-- One command issued with nothing else waiting on the port: the bytes of its response, and the state after it. -/
def issue (i : Instr) (s : State) : List Byte × State :=
  match exec i s with
  | .next t => (t.rsp.drop s.rsp.length, t)
  | .fault _ => ([], s)
  | .refused _ => ([], s)

/-- Commands issued one after the other: the state after the last. -/
def issueAll : List Instr → State → State
  | [], s => s
  | i :: is, s => issueAll is (issue i s).2

/-- `CIPHER_INIT c, n, sk, iv` (R97 (1)). -/
def cipherInit (c n : Byte) (sk : Bytes32) (iv : Bytes8) : List Instr :=
  [.setRound c n, .setSystemKey c sk, .setInitVector c iv]

/-- `PAT_COMMIT (num_1, pid_1), ..., (num_k, pid_k)` (R97 (2)). -/
def patCommit (programs : List (Half × Half)) : List Instr :=
  .patBegin :: programs.map fun e => .progAdd e.1 e.2

/-- The card's system key and initialisation vector, which the host got from it (R97). -/
structure CardInit where
  systemKey : Bytes32
  iv : Bytes8
  deriving DecidableEq, Repr

/-- `DEC_GET pid` (R97 (3)): its value is the slot; none when DEC_OPEN did not answer OK. -/
def decGet (card : CardInit) (pid : Half) (s : State) : Option Byte × State :=
  match issue (.decOpen pid) s with
  | ([0x00, _, slot, new], t) =>
    if new = 1 then (some slot, issueAll [.setSystemKey slot card.systemKey, .setInitVector slot card.iv] t)
    else (some slot, t)
  | (_, t) => (none, t)

/-- A stream entry of a PMT: its PID, its type, and the ECM PID of its own CA descriptor when it has one (R97 (4)). -/
structure PmtStream where
  pid : Half
  type : Byte
  ecm : Option Half
  deriving DecidableEq, Repr

/-- The stream part of `PMT_COMMIT` (R97 (4)): the stream's own ECM, else the program's decryptor `dp`, else SOLE. The host
stops at an ECM PID for which no decryptor was got. -/
def pmtStreams (card : CardInit) (p : Byte) (dp : Option Byte) : List PmtStream → State → State
  | [], s => s
  | e :: es, s =>
    match e.ecm with
    | some ecm =>
      match decGet card ecm s with
      | (some d, t) => pmtStreams card p dp es (issue (.strmBind p e.pid e.type d) t).2
      | (none, t) => t
    | none => pmtStreams card p dp es (issue (.strmBind p e.pid e.type (dp.getD 0xFE)) s).2

/-- `PMT_COMMIT p, pcr, prog_ecm, (pid_1, type_1, es_ecm_1), ...` (R97 (4)). -/
def pmtCommit (card : CardInit) (p : Byte) (pcr : Half) (progEcm : Option Half) (es : List PmtStream) (s : State) : State :=
  let s1 := (issue (.pmtBegin p pcr) s).2
  let s2 :=
    match progEcm with
    | some ecm =>
      match decGet card ecm s1 with
      | (some d, t) => pmtStreams card p (some d) es t
      | (none, t) => t
    | none => pmtStreams card p none es s1
  (issue (.pmtEnd p) s2).2

/-- What the oracle answers to an ECM section (R179): `fail` = 1 for a transport or hardware failure. -/
structure OracleAnswer where
  fail : Byte
  rc : Half
  key : Bytes16
  deriving DecidableEq, Repr

/-- `ECM_COMMIT d` (R97 (5)): the oracle is asked only when ACTION is QUERY. -/
def ecmCommit (d : Byte) (answer : OracleAnswer) (s : State) : State :=
  match issue (.ecmBegin d) s with
  | ([0x00, _, action], t) => if action = 0 then (issue (.ecmDone d answer.fail answer.rc answer.key) t).2 else t
  | (_, t) => t

end Sys2Proof.Machine
end

