-- ==== Sys2Proof/Tests/Slice0.lean ====
section
/-! SUPPORT. The model's own tests. Expected values are the spec's printed ones (its worked examples and
spec/95_test_vectors.md) or worked out from its tables by hand. The theorems named `witness_…` show, for each statement with
hypotheses, states and operands that meet them. -/

namespace Sys2Proof.Tests

-- One proof after the other: elaborated all at once they need more threads than the memory limit allows.
set_option Elab.async false

open Sys2Proof.Machine Sys2Proof.Config Sys2Proof.Safety

/-! ### Small states -/

/-- Parameters with short tables, so that a table fills up soon. -/
def small : Params :=
  { defaults with nCtx := 2, nProg := 2, nStrm := 2, pmemSize := 400, budgetPat := 400, budgetPmt := 400, budgetEcm := 400 }

/-- The reset state with the parameters `small`, in phase `ph` with unit size 188, budget `b`, and both toggles on. -/
def inPhase (ph : Phase) (b : Nat) : State := { State.resetWith small 0 with pipe := ⟨ph, b, 188, ⟨true, true, 4⟩⟩ }

/-- The steady state. -/
def steady : State := inPhase .steady 0

/-- Eight bytes from a number, first byte first. -/
def b8 (n : Nat) : Bytes8 :=
  let v : BitVec 64 := BitVec.ofNat 64 n
  ⟨v.extractLsb' 56 8, v.extractLsb' 48 8, v.extractLsb' 40 8, v.extractLsb' 32 8,
   v.extractLsb' 24 8, v.extractLsb' 16 8, v.extractLsb' 8 8, v.extractLsb' 0 8⟩

/-- The system key, IV and data keys of set-up A (spec/42 and spec/95). -/
def skA : Bytes32 := ⟨b8 0x35919D960702E2CE, b8 0x8D0B583CC9C89D59, b8 0xA2AE964E878245ED, b8 0x3F2E62D63635D067⟩
def ivA : Bytes8 := b8 0xFE27199919690911
def dkA : Bytes16 := ⟨b8 0xB127B906E7562238, b8 0x0123456789ABCDEF⟩

/-- The words of the work keys of set-up A, as spec/42 prints them. -/
def wkA0 : Words8 :=
  ⟨0x55B4B4B0, 0x447A89A1, 0x12FB7653, 0x5681FFF2, 0x4076989D, 0x7D515CFE, 0xC1D57A61, 0xBC84269F⟩
def wkA1 : Words8 :=
  ⟨0x9F8A129E, 0x3B8CBB00, 0x8520AB20, 0xBEAC1020, 0xE1D06CFB, 0x1A25BCC9, 0x7019AD09, 0x6A3C11C0⟩

/-- The context of set-up A. -/
def ctxA : Context :=
  ⟨⟨0x35919D96, 0x0702E2CE, 0x8D0B583C, 0xC9C89D59, 0xA2AE964E, 0x878245ED, 0x3F2E62D6, 0x3635D067⟩,
    ⟨0xFE271999, 0x19690911⟩, ⟨0xB127B906, 0xE7562238⟩, ⟨0x01234567, 0x89ABCDEF⟩, wkA0, wkA1, ⟨true, true, true⟩, 4⟩

/-- The reset state with set-up A in context 0. -/
def readyA : State := State.reset.setCtx 0 ctxA

/-- The bytes 00, 01, … of the payloads of spec/95. -/
def counting (n : Nat) : List Byte := (List.range n).map (BitVec.ofNat 8)

/-- A packet header (and length byte) at address 0. -/
def withPacket (header : List Byte) (s : State) : State := s.writeBytes 0 header

/-- The steady state with PID 0x41 an elementary stream linked to decryptor 0 (program 0, PMT PID 0x20; ECM PID 0x30), and
the context of decryptor 0 as given: the end state of program P3 of spec/95 in small. -/
def bound (x : Context) : State :=
  (((((((steady.setProg 0 ⟨true, 0x64, 0x20, 0x41, .parsedOnce, [⟨0x41, 2⟩], []⟩).setDec 0
    ⟨true, 0x30, 1, false, 0, 0, .parsedOnce⟩).setMap 0x20 ⟨.pmt, 1, 0, 0, .prog 0⟩).setMap 0x30
    ⟨.ecm, 1, 0, 0, .dec 0⟩).setMap 0x41 ⟨.other, 1, 0, 0, .dec 0⟩).setCtx 0 x).setMap 1 ⟨.cat, 1, 0, 0, .none⟩)

/-- The response of one command, and what it leaves. -/
def answer (i : Instr) (s : State) : Option (List Byte) :=
  match exec i s with
  | .next t => some (t.rsp.drop s.rsp.length)
  | .fault _ => none
  | .refused _ => none

def after (i : Instr) (s : State) : State :=
  match exec i s with
  | .next t => t
  | .fault _ => s
  | .refused _ => s

/-! ### Well-formedness: each check refuses an ill-formed term (R85 to R91) -/

theorem test_wf_ctx : wellFormed defaults (.setRound 3 4) = true ∧ wellFormed defaults (.setSystemKey 4 skA) = false ∧
    wellFormed defaults (.setInitVector 4 ivA) = false ∧ wellFormed defaults (.setDataKey 4 dkA) = false ∧
    wellFormed defaults (.clearDataKey 4) = false ∧ wellFormed defaults (.setRound 4 4) = false := by decide

theorem test_wf_round : wellFormed defaults (.setRound 0 0) = false ∧ wellFormed defaults (.dmxConfig 0 0) = false := by
  decide

theorem test_wf_selector : wellFormed defaults (.encrypt 1 0 0 8) = false ∧ wellFormed defaults (.decrypt 0 0 0 8) = false ∧
    wellFormed { defaults with reservedT := .index0 } (.encrypt 1 0 0 8) = true := by decide

theorem test_wf_range : wellFormed defaults (.encrypt 2 0 0xFFF8 8) = true ∧
    wellFormed defaults (.encrypt 2 0 0xFFF8 9) = false ∧ wellFormed defaults (.decrypt 2 0 0 0) = false := by decide

theorem test_wf_packet : wellFormed defaults (.dmxPacket 0xFF44) = true ∧
    wellFormed defaults (.dmxPacket 0xFF45) = false := by decide

theorem test_wf_size : wellFormed defaults (.dmxUnit 188) = true ∧ wellFormed defaults (.dmxUnit 187) = false := by decide

theorem test_wf_flags : wellFormed defaults (.dmxConfig 3 4) = true ∧ wellFormed defaults (.dmxConfig 4 4) = false := by
  decide

theorem test_wf_pid : wellFormed defaults (.progAdd 0 0x1FFF) = true ∧ wellFormed defaults (.progAdd 0 0x2000) = false ∧
    wellFormed defaults (.roleSet 0x8000 3) = false ∧ wellFormed defaults (.pmtBegin 0 0x2000) = false ∧
    wellFormed defaults (.decOpen 0x4000) = false ∧ wellFormed defaults (.strmBind 0 0x2000 0 0) = false := by decide

theorem test_wf_role : wellFormed defaults (.roleSet 1 4) = true ∧ wellFormed defaults (.roleSet 1 5) = false := by decide

theorem test_wf_slots : wellFormed defaults (.pmtEnd 7) = true ∧ wellFormed defaults (.pmtEnd 8) = false ∧
    wellFormed defaults (.dmxQuery 0xFF) = true ∧ wellFormed defaults (.dmxQuery 8) = false ∧
    wellFormed defaults (.ecmBegin 4) = false ∧ wellFormed defaults (.strmBind 0 1 0 0xFE) = true ∧
    wellFormed defaults (.strmBind 0 1 0 4) = false ∧ wellFormed defaults (.ecmDone 0 2 0 dkA) = false := by decide

/-! ### Decoding: words written out from the formats of R81 and the rows of R84 -/

theorem test_decode_keys :
    decode (0x01 :: 0x02 :: counting 32) =
      .command (.setSystemKey 2 ⟨b8 0x0001020304050607, b8 0x08090A0B0C0D0E0F, b8 0x1011121314151617,
        b8 0x18191A1B1C1D1E1F⟩) [] ∧
    decode (0x02 :: 0x01 :: counting 8) = .command (.setInitVector 1 (b8 0x0001020304050607)) [] ∧
    decode (0x03 :: 0x03 :: counting 16) =
      .command (.setDataKey 3 ⟨b8 0x0001020304050607, b8 0x08090A0B0C0D0E0F⟩) [] ∧
    decode [0x04, 0x00] = .command (.clearDataKey 0) [] ∧ decode [0x05, 0x00, 0x10] = .command (.setRound 0 0x10) [] := by
  decide

theorem test_decode_chain :
    decode [0x13, 0x00, 0x01, 0x00, 0x00, 0x14] = .command (.encrypt 3 0 0x0100 0x0014) [] ∧
    decode [0x10, 0x00, 0x01, 0x00, 0x00, 0x14] = .command (.encrypt 0 0 0x0100 0x0014) [] ∧
    decode [0x16, 0x00, 0x01, 0x04, 0x00, 0xB8] = .command (.decrypt 2 0 0x0104 0x00B8) [] := by decide

theorem test_decode_pipe :
    decode [0x20] = .command .dmxReset [] ∧ decode [0x21, 0x01, 0x04] = .command (.dmxConfig 1 4) [] ∧
    decode [0x22, 0x00, 0xBC] = .command (.dmxUnit 0xBC) [] ∧ decode [0x23, 0x03, 0x00] = .command (.dmxPacket 0x0300) [] := by
  decide

theorem test_decode_tables :
    decode [0x24] = .command .patBegin [] ∧
    decode [0x25, 0x00, 0x64, 0x00, 0x20] = .command (.progAdd 0x64 0x20) [] ∧
    decode [0x26, 0x00, 0x01, 0x03] = .command (.roleSet 1 3) [] ∧
    decode [0x27, 0x00, 0x00, 0x41] = .command (.pmtBegin 0 0x41) [] ∧
    decode [0x28, 0x00, 0x30] = .command (.decOpen 0x30) [] ∧
    decode [0x29, 0x00, 0x00, 0x41, 0x02, 0x00] = .command (.strmBind 0 0x41 2 0) [] ∧
    decode [0x2A, 0x00] = .command (.pmtEnd 0) [] := by decide

theorem test_decode_ecm :
    decode [0x2B, 0x00] = .command (.ecmBegin 0) [] ∧
    decode (0x2C :: 0x00 :: 0x01 :: 0xA1 :: 0x03 :: counting 16) =
      .command (.ecmDone 0 1 0xA103 ⟨b8 0x0001020304050607, b8 0x08090A0B0C0D0E0F⟩) [] ∧
    decode [0x2D] = .command .emmOk [] ∧ decode [0x2E, 0xFF] = .command (.dmxQuery 0xFF) [] := by decide

theorem test_decode_rejects :
    decode [0x06, 0x01] = .reserved 0x06 [0x01] ∧ decode [0x05, 0x00] = .incomplete ∧ decode [] = .incomplete := by decide

theorem test_decodeTableWord :
    decodeTableWord 16 0x0304 = some (.clearDataKey 3) ∧ decodeTableWord 8 0x13 = some (.encrypt 3 0 0 0) ∧
      decodeTableWord 8 0x2F = none := by decide

theorem test_withFetchWord_runs : step (State.reset.withFetchWord 16 0x0304) =
    exec (.clearDataKey 3) State.reset := rfl

/-! ### The host and the block alternate (R61, R74; entry U4 of spec/93) -/

/-- A byte after a whole command is refused, and so is an access to payload memory while a command is on the port. -/
theorem test_host_in_flight :
    hostSend [0x04, 0x00] State.reset = .next { State.reset with cmd := [0x04, 0x00] } ∧
    hostSend [0x04, 0x00, 0x20] State.reset = .refused .commandInFlight ∧
    hostSend [0x06, 0x20] State.reset = .refused .commandInFlight ∧
    hostWrite 5 7 { State.reset with cmd := [0x04, 0x00] } = .refused .commandInFlight ∧
    hostRead 5 { State.reset with cmd := [0x05] } = .refused .commandInFlight := ⟨rfl, rfl, rfl, rfl, rfl⟩

theorem test_host_memory :
    hostWrite 0xFFFF 7 State.reset = .next (State.reset.writeByte 0xFFFF 7) ∧
    hostWrite 0x10000 7 State.reset = .fault (.noSuchAddress 0x10000) ∧
    hostRead 0xFFFF (State.reset.writeByte 0xFFFF 7) = .next 7 := ⟨rfl, rfl, rfl⟩

/-! ### Unit CC: printed values of spec/40 and spec/95 -/

theorem test_pi2 : pi2 ⟨0x12345678, 0x9ABCDEF0⟩ 0x0F1E2D3C = ⟨0x36B73AB3, 0x9ABCDEF0⟩ := by decide
theorem test_pi3 : pi3 ⟨0x12345678, 0x9ABCDEF0⟩ 0x0F1E2D3C 0x4B5A6978 = ⟨0x12345678, 0x8D5C8D64⟩ := by decide
theorem test_pi4 : pi4 ⟨0x12345678, 0x9ABCDEF0⟩ 0x0F1E2D3C = ⟨0x43736AA7, 0x9ABCDEF0⟩ := by decide

theorem test_schedule_V1 : schedule .zero ⟨0x01234567, 0x89ABCDEF⟩ =
    ⟨0x01234576, 0x2928681C, 0xCCE94DFB, 0xE5C125E7, 0x699D2715, 0x24658B4A, 0xDC669F66, 0xF803142C⟩ := by
  decide +kernel

theorem test_encBlock_V1 : encBlock ⟨0, 1⟩ (schedule .zero ⟨0x01234567, 0x89ABCDEF⟩) 16 = ⟨0xF8944084, 0x5E11CF89⟩ := by
  decide +kernel

theorem test_encBlock_V4 : encBlock ⟨0x1FB46060, 0xD0B34FA5⟩ wkA0 27 = ⟨0xCA84A934, 0x75C860E5⟩ := by decide +kernel

theorem test_decBlock_V1 : decBlock ⟨0xF8944084, 0x5E11CF89⟩ (schedule .zero ⟨0x01234567, 0x89ABCDEF⟩) 16 = ⟨0, 1⟩ := by
  decide +kernel

/-! ### Unit CE: one command each -/

theorem test_setSystemKey : ((after (.setSystemKey 0 skA) State.reset).ctx 0).sk = ctxA.sk ∧
    ((after (.setSystemKey 0 skA) State.reset).ctx 0).st = ⟨false, true, false⟩ := by decide +kernel

theorem test_setInitVector : ((after (.setInitVector 1 ivA) State.reset).ctx 1).iv = ⟨0xFE271999, 0x19690911⟩ ∧
    answer (.setInitVector 1 ivA) State.reset = some [0x00] := by decide +kernel

theorem test_setDataKey : ((after (.setDataKey 0 dkA) (State.reset.setCtx 0 { ctxA with wk0 := .zero })).ctx 0).wk0 = wkA0 ∧
    ((after (.setDataKey 0 dkA) (State.reset.setCtx 0 { ctxA with wk1 := .zero })).ctx 0).wk1 = wkA1 := by decide +kernel

theorem test_clearDataKey : (after (.clearDataKey 0) readyA).ctx 0 =
    { ctxA with dk0 := .zero, dk1 := .zero, wk0 := .zero, wk1 := .zero, st := ⟨true, true, false⟩ } := by decide +kernel

theorem test_setRound : ((after (.setRound 0 0x10) readyA).ctx 0).round = 16 ∧ answer (.setRound 0 0) readyA = some [0x01] := by
  decide +kernel

theorem test_encrypt : (after (.encrypt 3 0 0x100 0x14) (readyA.writeBytes 0x100 (counting 20))).readBytes 0x100 20 =
    [0x02, 0xA8, 0x39, 0xCB, 0xD6, 0x58, 0xF9, 0x6A, 0x5D, 0x58, 0x9C, 0x96, 0x27, 0xA8, 0xE5, 0xA6, 0xA4, 0x97, 0x35,
      0x10] := by decide +kernel

theorem test_encrypt_even : (after (.encrypt 2 0 0x100 8) (readyA.writeBytes 0x100 (counting 8))).readBytes 0x100 8 =
    [0x29, 0x01, 0x01, 0x4E, 0x23, 0x50, 0x3A, 0x6E] := by decide +kernel

theorem test_decrypt : (after (.decrypt 3 0 0x100 0x14) (readyA.writeBytes 0x100
      [0x02, 0xA8, 0x39, 0xCB, 0xD6, 0x58, 0xF9, 0x6A, 0x5D, 0x58, 0x9C, 0x96, 0x27, 0xA8, 0xE5, 0xA6, 0xA4, 0x97, 0x35,
        0x10])).readBytes 0x100 20 = counting 20 := by decide +kernel

theorem test_decrypt_priority : answer (.decrypt 2 0 0 8) State.reset = some [0x02] ∧
    answer (.decrypt 2 0 0 8) (State.reset.setCtx 0 { ctxA with st := ⟨true, false, false⟩ }) = some [0x03] ∧
    answer (.decrypt 2 0 0 8) (State.reset.setCtx 0 { ctxA with st := ⟨true, true, false⟩ }) = some [0x04] ∧
    answer (.decrypt 1 0 0 8) State.reset = some [0x01] ∧ answer (.decrypt 2 9 0 8) State.reset = some [0x01] := by
  decide +kernel

/-! ### Unit DX: one command each (the worked examples of spec/43 and spec/44) -/

theorem test_dmxUnit : answer (.dmxUnit 0xBC) State.reset = some [0x00, 0x01] ∧
    answer (.dmxUnit 0xC0) (inPhase .pat 0) = some [0x06, 0x01] := by decide +kernel

theorem test_dmxConfig : (after (.dmxConfig 1 4) State.reset).pipe.cfg = ⟨true, false, 4⟩ ∧
    answer (.dmxConfig 4 4) State.reset = some [0x01, 0x00] := by decide +kernel

theorem test_dmxReset : answer .dmxReset (bound ctxA) = some [0x00, 0x00] ∧ (after .dmxReset (bound ctxA)).map = mapReset ∧
    (after .dmxReset (bound ctxA)).ctx 0 = .reset := by decide +kernel

theorem test_patBegin : answer .patBegin (inPhase .pat 100) = some [0x00, 0x02] ∧
    answer .patBegin (bound ctxA) = some [0x00, 0x04] ∧ answer .patBegin State.reset = some [0x06, 0x00] := by decide +kernel

theorem test_progAdd : answer (.progAdd 0x64 0x20) (inPhase .pmt 0) = some [0x00, 0x02, 0x00] ∧
    (after (.progAdd 0x64 0x20) (inPhase .pmt 0)).mapAt 0x20 = ⟨.pmt, 1, 0, 0, .prog 0⟩ := by decide +kernel

theorem test_roleSet : answer (.roleSet 0 4) steady = some [0x01, 0x04] ∧
    (after (.roleSet 2 3) (bound ctxA)).map.take 3 =
      [(0, .pat), (2, ⟨.cat, 1, 0, 0, .none⟩), (0x20, ⟨.pmt, 1, 0, 0, .prog 0⟩)] := by decide +kernel

theorem test_pmtBegin : (after (.pmtBegin 0 0x100) (bound ctxA)).progAt 0 =
      ⟨true, 0x64, 0x20, 0x100, .parsedOnce, [], [⟨0x41, 2⟩]⟩ ∧
    answer (.pmtBegin 1 0x100) (bound ctxA) = some [0x01, 0x04] := by decide +kernel

theorem test_decOpen : answer (.decOpen 0x30) (inPhase .pmt 0) = some [0x00, 0x02, 0x00, 0x01] ∧
    answer (.decOpen 0x30) (bound ctxA) = some [0x00, 0x04, 0x00, 0x00] := by decide +kernel

theorem test_strmBind : answer (.strmBind 0 0x42 3 0xFE) (bound ctxA) = some [0x00, 0x04, 0x00] ∧
    ((after (.strmBind 0 0x42 3 0xFE) (bound ctxA)).decAt 0).ref = 2 ∧
    (after (.strmBind 0 0x41 2 0xFF) (bound ctxA)).mapAt 0x41 = ⟨.other, 2, 0, 0, .none⟩ ∧
    ((after (.strmBind 0 0x41 2 0xFF) (bound ctxA)).decAt 0).ref = 0 := by decide +kernel

theorem test_strmBind_control : answer (.strmBind 0 0x20 2 0) (bound ctxA) = some [0x00, 0x04, 0xFD] := by decide +kernel

theorem test_pmtEnd : (after (.pmtEnd 0) (after (.pmtBegin 0 0x41) (bound ctxA))).map =
      [(0, .pat), (1, ⟨.cat, 1, 0, 0, .none⟩), (0x20, ⟨.pmt, 1, 0, 0, .prog 0⟩)] ∧
    (after (.pmtEnd 0) (after (.pmtBegin 0 0x41) (bound ctxA))).ctx 0 = .reset := by decide +kernel

theorem test_ecmBegin : answer (.ecmBegin 0) (bound ctxA) = some [0x00, 0x04, 0x00] ∧
    (after (.ecmBegin 0) ((bound ctxA).setDec 0 ⟨true, 0x30, 1, true, 1, 0xA103, .parsedOnce⟩)).decAt 0 =
      ⟨true, 0x30, 1, true, 2, 0xA103, .stable⟩ := by decide +kernel

theorem test_ecmDone_purchased :
    answer (.ecmDone 0 0 0x0800 dkA) { bound { ctxA with wk0 := .zero } with pipe := ⟨.ecm, 188, 188, ⟨true, false, 4⟩⟩ } =
      some [0x00, 0x04, 0x00] ∧
    ((after (.ecmDone 0 0 0x0800 dkA) (bound { ctxA with wk0 := .zero })).ctx 0).wk0 = wkA0 := by decide +kernel

theorem test_ecmDone_unpurchased : answer (.ecmDone 0 0 0xA103 dkA) (bound ctxA) = some [0x00, 0x04, 0x01] ∧
    (after (.ecmDone 0 0 0xA103 dkA) (bound ctxA)).decAt 0 = ⟨true, 0x30, 1, true, 1, 0xA103, .stable⟩ ∧
    ((after (.ecmDone 0 0 0xA103 dkA) (bound ctxA)).ctx 0).st.dk = false ∧
    answer (.ecmDone 0 1 0x0800 dkA) (bound ctxA) = some [0x17, 0x04] := by decide +kernel

theorem test_emmOk : answer .emmOk { steady with pipe := ⟨.steady, 0, 188, ⟨false, false, 4⟩⟩ } = some [0x06, 0x04] ∧
    ((after .emmOk ((bound ctxA).setDec 0 ⟨true, 0x30, 1, true, 1, 3, .stable⟩)).decAt 0).locked = false := by
  decide +kernel

theorem test_dmxQuery : answer (.dmxQuery 0)
      (((bound ctxA).setMap 0x41 ⟨.other, 1, 2, 1, .dec 0⟩).setDec 0 ⟨true, 0x30, 1, true, 2, 0xA103, .stable⟩) =
    some ([0x00, 0x04, 0x01, 0x00, 0x64] ++ bytesBe64 3 ++ bytesBe64 1 ++ bytesBe64 2 ++ [0xA1, 0x03]) := by decide +kernel

theorem test_dmxPacket_R155 :
    answer (.dmxPacket 0) (withPacket [0x47, 0x1F, 0xFF, 0x10] (bound ctxA)) = some [0x00, 4, 1, 0, 0, 0, 0, 0, 0, 0, 0] ∧
    answer (.dmxPacket 0) (withPacket [0x46, 0, 0, 0] (bound ctxA)) = some [0x00, 4, 3, 0, 0, 0, 0, 0, 0, 0, 0] ∧
    answer (.dmxPacket 0) (withPacket [0x47, 0x80, 0x41, 0xD0] (bound ctxA)) = some [0x00, 4, 0, 0, 0, 0, 0, 0, 0, 0, 0] ∧
    answer (.dmxPacket 0) (withPacket [0x47, 0, 0x41, 0x30, 0xB7] (bound ctxA)) = some [0x00, 4, 4, 0, 0, 0, 0, 0, 0, 0, 0] ∧
    answer (.dmxPacket 0) (withPacket [0x47, 0, 0x41, 0x20, 0xB7] (bound ctxA)) =
      some [0x00, 4, 0, 0, 6, 2, 0, 0, 0, 0xBC, 0] ∧
    answer (.dmxPacket 0) (withPacket [0x47, 0, 0x41, 0x20, 0xB8] (bound ctxA)) =
      some [0x00, 4, 4, 0, 0, 0, 0, 0, 0, 0, 0] := by decide +kernel

/-- Eight payload bytes (adaptation field of 175 bytes) on PID 0x41 under the odd key; expected values from spec/42 R132. -/
theorem test_dmxPacket_cipher :
    let s := (withPacket [0x47, 0, 0x41, 0xF5, 175] (bound ctxA)).writeBytes 180
      [0x02, 0xA8, 0x39, 0xCB, 0xD6, 0x58, 0xF9, 0x6A]
    answer (.dmxPacket 0) s = some [0x00, 4, 0, 2, 6, 2, 0, 0, 0, 180, 8] ∧
      (after (.dmxPacket 0) s).readBytes 180 8 = counting 8 ∧ (after (.dmxPacket 0) s).readByte 3 = 0x35 ∧
      ((after (.dmxPacket 0) s).mapAt 0x41).normal = 1 := by decide +kernel

/-! ### Witnesses: what the hypotheses of each statement ask for, met by a concrete state and operands

Boundary values: with the default parameters N_CTX is 4 and PMEM_SIZE 65536; `small` has 2 contexts, 2 programs, 2 stream
elements, 400 bytes of payload memory and budgets of 400 bytes, so a packet fits at 212 and not at 213, and a unit of 188
bytes fits a budget of 212 and not of 213. -/

/-- The command answers a next state. -/
def runs (i : Instr) (s : State) : Bool :=
  match exec i s with
  | .next _ => true
  | .fault _ => false
  | .refused _ => false

theorem exec_after {i : Instr} {s : State} (h : runs i s = true) : exec i s = .next (after i s) := by
  unfold runs at h
  unfold after
  split at h
  next t ht => rw [ht]
  all_goals cases h

theorem find_eq_none {α : Type} (t : Table α) (k : Nat) (h : k ∉ t.map Prod.fst) : Table.find t k = none := by
  induction t with
  | nil => rfl
  | cons e t ih =>
    obtain ⟨j, v⟩ := e
    simp only [List.map_cons, List.mem_cons, not_or] at h
    simp only [Table.find, if_neg (Ne.symm h.1)]
    exact ih h.2

theorem get_eq_default {α : Type} (d : α) (t : Table α) (k : Nat) (h : k ∉ t.map Prod.fst) : Table.get d t k = d := by
  simp only [Table.get, find_eq_none t k h, Option.getD_none]

theorem not_due_phase {s : State} (h : s.pipe.phase ≠ .pmt) (h' : s.pipe.phase ≠ .ecm) : ¬ AdvanceDue s := by
  rintro (⟨e, -⟩ | ⟨e, -⟩)
  · exact h e
  · exact h' e

theorem not_due_prog {s : State} (i : Nat) (hp : s.pipe.phase = .pmt) (h : ProgAt s i)
    (hn : (s.progAt i).phase = .notParsed) : ¬ AdvanceDue s := by
  rintro (⟨-, ha⟩ | ⟨e, -⟩)
  · exact ha i h hn
  · rw [hp] at e; cases e

theorem not_due_dec {s : State} (d : Nat) (hp : s.pipe.phase = .ecm) (h : DecAt s d)
    (hn : (s.decAt d).phase = .notParsed) : ¬ AdvanceDue s := by
  rintro (⟨e, -⟩ | ⟨-, ha⟩)
  · rw [hp] at e; cases e
  · exact ha d h hn

/-- The steady state with a program that is being updated: PID 0x41 is on the old list. -/
def updating : State := (bound ctxA).setProg 0 ⟨true, 0x64, 0x20, 0x41, .parsedOnce, [], [⟨0x41, 2⟩]⟩

/-- Phase 2 with one program that has not been parsed (PMT PID 0x20), and budget `b`. -/
def awaitingPmt (b : Nat) : State :=
  ((inPhase .pmt b).setProg 0 ⟨true, 0x64, 0x20, 0, .notParsed, [], []⟩).setMap 0x20 ⟨.pmt, 1, 0, 0, .prog 0⟩

/-- Phase 3 with one decryptor that has not been parsed (ECM PID 0x30), and budget `b`. -/
def awaitingEcm (b : Nat) : State :=
  ((inPhase .ecm b).setDec 0 ⟨true, 0x30, 0, false, 0, 0, .notParsed⟩).setMap 0x30 ⟨.ecm, 1, 0, 0, .dec 0⟩

/-- A packet of PID `pid` with the header byte 3 `h3`, at address 0. -/
def packet (pid h3 : Nat) (s : State) : State :=
  withPacket [0x47, BitVec.ofNat 8 (pid / 256), BitVec.ofNat 8 pid, BitVec.ofNat 8 h3] s

/-- A context with the given flags and nothing loaded. -/
def flagged (iv sk dk : Bool) : Context := { Context.reset with st := ⟨iv, sk, dk⟩ }

theorem canonical_bound : Canonical (bound ctxA) := by constructor <;> decide +kernel

theorem canonical_updating : Canonical updating := by constructor <;> decide +kernel

theorem streamRefs_updating (p : Nat) : streamRefs updating p = listRefs p [⟨0x41, 2⟩] := by
  show 0 + listRefs p [⟨0x41, 2⟩] + 0 = _
  omega

theorem topologyOk_updating : TopologyOk updating where
  entry p := by
    by_cases h0 : p = 0
    · subst h0; exact ⟨rfl, rfl, rfl, rfl⟩
    by_cases h1 : p = 1
    · subst h1; exact ⟨rfl, rfl, rfl⟩
    by_cases h2 : p = 0x20
    · subst h2; exact ⟨rfl, rfl, 0, rfl, rfl, rfl⟩
    by_cases h3 : p = 0x30
    · subst h3; exact ⟨rfl, rfl, 0, rfl, rfl, rfl⟩
    by_cases h4 : p = 0x41
    · subst h4; exact ⟨by decide, rfl, .inr ⟨0, rfl, rfl⟩⟩
    have hm : updating.mapAt p = .reset := get_eq_default _ _ _ (by
      rw [show updating.map.map Prod.fst = [0, 1, 0x20, 0x30, 0x41] from rfl]
      simp [h0, h1, h2, h3, h4])
    rw [hm]
    refine ⟨rfl, rfl, ?_⟩
    rw [streamRefs_updating]
    simp [listRefs, Ne.symm h4]
  patPid := rfl
  oneCat p q hp hq := by
    have key : ∀ r, (updating.mapAt r).role = .cat → r = 1 := by
      intro r hr
      by_contra h1
      by_cases hl : r ∈ updating.map.map Prod.fst
      · rw [show updating.map.map Prod.fst = [0, 1, 0x20, 0x30, 0x41] from rfl] at hl
        simp only [List.mem_cons, List.not_mem_nil, or_false] at hl
        rcases hl with rfl | rfl | rfl | rfl | rfl
        · cases hr
        · exact h1 rfl
        · cases hr
        · cases hr
        · cases hr
      · have := get_eq_default MapEntry.reset _ _ hl
        rw [State.mapAt, this] at hr
        cases hr
    rw [key p hp, key q hq]
  oneEmm p q hp hq := by
    have key : ∀ r, (updating.mapAt r).role ≠ .emm := by
      intro r hr
      by_cases hl : r ∈ updating.map.map Prod.fst
      · rw [show updating.map.map Prod.fst = [0, 1, 0x20, 0x30, 0x41] from rfl] at hl
        simp only [List.mem_cons, List.not_mem_nil, or_false] at hl
        rcases hl with rfl | rfl | rfl | rfl | rfl <;> cases hr
      · have := get_eq_default MapEntry.reset _ _ hl
        rw [State.mapAt, this] at hr
        cases hr
    exact absurd hp (key p)
  progRole i h := by
    match i with
    | 0 => exact ⟨by decide, rfl, rfl⟩
    | i + 1 => cases h
  decRole d h := by
    match d with
    | 0 => exact ⟨by decide, rfl, rfl⟩
    | d + 1 => cases h
  decRef d h := by
    match d with
    | 0 => rfl
    | d + 1 => cases h
  progFree i h := by
    match i with
    | 0 => cases h
    | i + 1 => rfl
  decFree d h := by
    match d with
    | 0 => cases h
    | d + 1 => rfl
  listLength i := by
    match i with
    | 0 => decide
    | i + 1 => exact ⟨Nat.zero_le _, Nat.zero_le _⟩

/-! #### Commands and responses -/

theorem witness_EncodeOfDecode : decode [0x04, 0x00, 0x20] = .command (.clearDataKey 0) [0x20] := by decide

theorem witness_OpcodeByteFixesLength :
    ([0x05, 0x00] : List Byte).length < commandLength 0x05 ∧
    commandLength 0x05 ≤ ([0x05, 0x00, 0x01] : List Byte).length ∧ opcodeRow 0x05 ≠ none ∧ opcodeRow 0x06 = none := by
  decide

theorem witness_ReservedOpcodeIsIllegalCommand :
    (∀ b : Byte, b ∈ [0x00, 0x06, 0x0F, 0x18, 0x1F, 0x2F, 0xFF] →
      b = 0x00 ∨ (0x06 ≤ b.toNat ∧ b.toNat ≤ 0x0F) ∨ (0x18 ≤ b.toNat ∧ b.toNat ≤ 0x1F) ∨ 0x2F ≤ b.toNat) ∧
    (∀ b : Byte, b ∈ [0x01, 0x05, 0x10, 0x17, 0x20, 0x2E] →
      ¬ (b = 0x00 ∨ (0x06 ≤ b.toNat ∧ b.toNat ≤ 0x0F) ∨ (0x18 ≤ b.toNat ∧ b.toNat ≤ 0x1F) ∨ 0x2F ≤ b.toNat)) := by
  decide

theorem witness_StepRunsDecodedCommand :
    decode { State.reset with cmd := [0x04, 0x00, 0x20] }.cmd = .command (.clearDataKey 0) [0x20] ∧
    decode { State.reset with cmd := [0x05, 0x00] }.cmd = .incomplete := by decide

theorem witness_ResponseForm :
    exec (.clearDataKey 0) State.reset = .next (after (.clearDataKey 0) State.reset) ∧
    isCe (.clearDataKey 0) = true ∧ exec (.progAdd 1 0x20) steady = .next (after (.progAdd 1 0x20) steady) ∧
    isCe (.progAdd 1 0x20) = false := ⟨rfl, rfl, exec_after (by decide +kernel), rfl⟩

theorem witness_ErrorHasNoEffect :
    (exec (.setRound 0 0) State.reset = .next (after (.setRound 0 0) State.reset) ∧
      (after (.setRound 0 0) State.reset).rsp = State.reset.rsp ++ 0x01 :: [] ∧ (0x01 : Byte) ≠ 0x00) ∧
    (exec (.ecmDone 0 1 0 dkA) (bound ctxA) = .next (after (.ecmDone 0 1 0 dkA) (bound ctxA)) ∧
      (after (.ecmDone 0 1 0 dkA) (bound ctxA)).rsp = (bound ctxA).rsp ++ 0x17 :: [4] ∧ (0x17 : Byte) ≠ 0x00) :=
  ⟨⟨rfl, by decide +kernel, by decide⟩, exec_after (by decide +kernel), by decide +kernel, by decide⟩

theorem witness_StatusesOfEachCommand : exec (.dmxPacket 213) steady = .next (after (.dmxPacket 213) steady) :=
  exec_after (by decide +kernel)

theorem witness_ReservedOperandsAreInvalid :
    (wellFormed State.reset.par (.setRound 4 1) = false ∧ isCe (.setRound 4 1) = true) ∧
    (wellFormed State.reset.par (.progAdd 0 0x2000) = false ∧ isCe (.progAdd 0 0x2000) = false) ∧
    ((1 : BitVec 2).toNat < 2 ∧ State.reset.par.reservedT = .fault) ∧
    (State.resetWith { defaults with reservedT := .index0 } 0).par.reservedT = .index0 := by decide

/-! #### Unit CE -/

/-- The bounds of `ctx`, in the statements SetSystemKey, SetInitVector, SetDataKey, ClearDataKey and SetRound. -/
theorem witness_context_bounds :
    (3 : Byte).toNat < State.reset.par.nCtx ∧ (1 : Byte) ≠ 0 ∧ State.reset.par.nCtx ≤ (4 : Byte).toNat := by decide

theorem witness_ChainCheckOrder :
    (State.reset.par.nCtx ≤ (4 : Byte).toNat) ∧ (State.reset.par.pmemSize < (0xFFF9 : Half).toNat + (8 : Half).toNat) ∧
    ((1 : BitVec 2).toNat < 2 ∧ State.reset.par.reservedT = .fault) ∧
    ((3 : Byte).toNat < State.reset.par.nCtx ∧ 1 ≤ (8 : Half).toNat ∧
      (0xFFF8 : Half).toNat + (8 : Half).toNat ≤ State.reset.par.pmemSize ∧ (State.reset.ctx 3).st.iv = false) ∧
    (((State.reset.setCtx 3 (flagged true false true)).ctx 3).st = ⟨true, false, true⟩) ∧
    (((State.reset.setCtx 3 (flagged true true false)).ctx 3).st = ⟨true, true, false⟩) := by decide +kernel

/-- Both work keys, one byte and two blocks, at both ends of payload memory; and `T` = 0 under the policy index0. For
EncryptTransformsPayload, DecryptTransformsPayload and ChainRoundTrip. -/
theorem witness_ChainReady :
    ChainReady 2 (0 : Byte).toNat (0xFFFF : Half).toNat (1 : Half).toNat readyA ∧
    ChainReady 3 (0 : Byte).toNat (0 : Half).toNat (16 : Half).toNat readyA ∧
    ChainReady 0 (0 : Byte).toNat (0 : Half).toNat (7 : Half).toNat
      ((State.resetWith { defaults with reservedT := .index0 } 0).setCtx 0 ctxA) := by
  unfold ChainReady
  decide +kernel

/-- Two states, contexts and addresses, with the same payload under the same key. -/
theorem witness_ChainCallsIndependent :
    let s := readyA.writeBytes 0x100 (counting 9)
    let s' := (State.reset.setCtx 3 { ctxA with wk0 := .zero }).writeBytes 0 (counting 9)
    ChainReady 2 (0 : Byte).toNat (0x100 : Half).toNat (9 : Half).toNat s ∧
    ChainReady 2 (3 : Byte).toNat (0 : Half).toNat (9 : Half).toNat s' ∧
    (s'.ctx (3 : Byte).toNat).iv = (s.ctx (0 : Byte).toNat).iv ∧
    (s'.ctx (3 : Byte).toNat).round = (s.ctx (0 : Byte).toNat).round ∧
    selectWorkKey 2 (s'.ctx (3 : Byte).toNat) = selectWorkKey 2 (s.ctx (0 : Byte).toNat) ∧
    s'.readBytes (0 : Half).toNat (9 : Half).toNat = s.readBytes (0x100 : Half).toNat (9 : Half).toNat ∧
    exec (.encrypt 2 0 0x100 9) s = .next (after (.encrypt 2 0 0x100 9) s) ∧
    exec (.encrypt 2 3 0 9) s' = .next (after (.encrypt 2 3 0 9) s') ∧
    exec (.decrypt 2 0 0x100 9) s = .next (after (.decrypt 2 0 0x100 9) s) ∧
    exec (.decrypt 2 3 0 9) s' = .next (after (.decrypt 2 3 0 9) s') := by
  unfold ChainReady
  refine ⟨by decide +kernel, by decide +kernel, by decide +kernel, by decide +kernel, by decide +kernel,
    by decide +kernel, exec_after ?_, exec_after ?_, exec_after ?_, exec_after ?_⟩ <;> decide +kernel

theorem witness_ShortPayloadSameBothWays : (7 : Half).toNat < 8 := by decide

/-! #### Pipeline and tables -/

theorem witness_DmxUnit :
    (188 ≤ (188 : Half).toNat ∧ State.reset.pipe.phase = .unit) ∧ (187 : Half).toNat < 188 ∧
    (inPhase .pat 0).pipe.phase ≠ .unit := by decide

theorem witness_DmxConfig : (3 : Byte).toNat < 4 ∧ (255 : Byte) ≠ 0 ∧ 4 ≤ (4 : Byte).toNat := by decide

theorem witness_PatBegin : State.reset.pipe.phase = .unit ∧ (inPhase .pat 0).pipe.phase ≠ .unit ∧
    (inPhase .pat 0).pipe.phase ≠ .steady ∧ steady.pipe.phase = .steady := by decide

theorem witness_ProgAdd :
    8192 ≤ (8192 : Half).toNat ∧ (8191 : Half).toNat < 8192 ∧ State.reset.pipe.phase = .unit ∧
    (inPhase .pat 0).pipe.phase = .pat ∧ (steady.pipe.phase ≠ .unit ∧ steady.pipe.phase ≠ .pat) ∧
    ((bound ctxA).mapAt (0x20 : Half).toNat).role ≠ .unknown ∧
    ((bound ctxA).mapAt (8191 : Half).toNat).role = .unknown ∧
    (∀ j, j < (((bound ctxA).setProg 1 ⟨true, 0, 5, 0, .stable, [], []⟩)).par.nProg →
      (((bound ctxA).setProg 1 ⟨true, 0, 5, 0, .stable, [], []⟩).progAt j).valid = true) ∧
    LowestFreeProg (bound ctxA) 1 := by
  unfold LowestFreeProg
  decide +kernel

theorem witness_RoleSet :
    Canonical (bound ctxA) ∧ 8192 ≤ (8192 : Half).toNat ∧ ((2 : Byte) ≠ 3 ∧ (5 : Byte) ≠ 4) ∧
    (8191 : Half).toNat < 8192 ∧
    (((bound ctxA).mapAt (0x20 : Half).toNat).role ≠ .unknown ∧ ((bound ctxA).mapAt (0x20 : Half).toNat).role ≠ .cat) ∧
    ((bound ctxA).mapAt (8191 : Half).toNat).role = .unknown ∧ ((bound ctxA).mapAt (1 : Half).toNat).role = .cat :=
  ⟨canonical_bound, by decide +kernel⟩

theorem witness_PmtBegin :
    ProgAt (bound ctxA) (0 : Byte).toNat ∧ ¬ ProgAt (bound ctxA) (1 : Byte).toNat ∧ (8191 : Half).toNat < 8192 ∧
    8192 ≤ (8192 : Half).toNat ∧ ((bound ctxA).progAt (0 : Byte).toNat).old = [] ∧
    ProgAt updating (0 : Byte).toNat ∧ (updating.progAt (0 : Byte).toNat).old ≠ [] := by
  unfold ProgAt
  decide +kernel

theorem witness_DecOpen :
    8192 ≤ (8192 : Half).toNat ∧ (8191 : Half).toNat < 8192 ∧
    (DecAt (bound ctxA) 0 ∧ ((bound ctxA).decAt 0).ecmPid.toNat = (0x30 : Half).toNat ∧
      ∀ j, j < 0 → DecAt (bound ctxA) j → ((bound ctxA).decAt j).ecmPid.toNat ≠ (0x30 : Half).toNat) ∧
    (∀ d, DecAt (bound ctxA) d → ((bound ctxA).decAt d).ecmPid.toNat ≠ (8191 : Half).toNat) ∧
    ((bound ctxA).mapAt (0x20 : Half).toNat).role ≠ .unknown ∧
    ((bound ctxA).mapAt (8191 : Half).toNat).role = .unknown ∧
    (∀ j, j < ((bound ctxA).setDec 1 ⟨true, 5, 0, false, 0, 0, .stable⟩).par.nCtx →
      (((bound ctxA).setDec 1 ⟨true, 5, 0, false, 0, 0, .stable⟩).decAt j).valid = true) ∧
    LowestFreeDec (bound ctxA) 1 := by
  refine ⟨by decide, by decide, ⟨⟨by decide, by decide +kernel⟩, by decide +kernel, fun j hj => absurd hj (by omega)⟩, ?_,
    by decide +kernel, by decide +kernel, by decide +kernel, ⟨by decide, by decide +kernel, by decide +kernel⟩⟩
  rintro d ⟨hd, hv⟩
  match d with
  | 0 => decide +kernel
  | d + 1 => cases hv

/-- The three kinds of selector, 0xFE with one decryptor, with none and with two, and one that selects nothing; the control
PID, the full list, and the list with room; a new PID, the same link and another link; a link taken back under `TopologyOk`. -/
theorem witness_StrmBind :
    Selects (bound ctxA) 0 (.dec 0) ∧ Selects (bound ctxA) 0xFF .none ∧ Selects (bound ctxA) 0xFE (.dec 0) ∧
    Selects steady 0xFE .none ∧ (∀ l, ¬ Selects (bound ctxA) 1 l) ∧
    ProgAt (bound ctxA) (0 : Byte).toNat ∧ ¬ ProgAt (bound ctxA) (1 : Byte).toNat ∧ 8192 ≤ (8192 : Half).toNat ∧
    (8191 : Half).toNat < 8192 ∧ ((bound ctxA).mapAt (0x20 : Half).toNat).role = .pmt ∧
    ((bound ctxA).mapAt (8191 : Half).toNat).role = .unknown ∧
    ((bound ctxA).mapAt (0x41 : Half).toNat).role = .other ∧
    ((bound ctxA).mapAt (0x41 : Half).toNat).link = .dec 0 ∧
    ((bound ctxA).progAt (0 : Byte).toNat).streams.length < (bound ctxA).par.nStrm ∧
    (((bound ctxA).setProg 0 ⟨true, 0x64, 0x20, 0x41, .parsedOnce, [⟨0x41, 2⟩, ⟨0x42, 2⟩], []⟩).progAt
      (0 : Byte).toNat).streams.length = (bound ctxA).par.nStrm ∧
    (TopologyOk updating ∧ ProgAt updating (0 : Byte).toNat ∧ Selects updating 0xFF .none ∧
      (updating.mapAt (0x41 : Half).toNat).role = .other ∧ (updating.mapAt (0x41 : Half).toNat).link = .dec 0 ∧
      (updating.progAt (0 : Byte).toNat).streams.length < updating.par.nStrm) := by
  have h0 : DecAt (bound ctxA) 0 := ⟨by decide, by decide +kernel⟩
  have hn : ∀ d, d ≠ 0 → ¬ DecAt (bound ctxA) d := by
    rintro d hd ⟨h, hv⟩
    match d with
    | 0 => exact hd rfl
    | d + 1 => cases hv
  have hs : ∀ x, ¬ SoleDec steady x := fun x h => by cases h.1.2
  refine ⟨.inl ⟨h0, rfl⟩, .inr (.inl ⟨hn _ (by decide), rfl, rfl⟩),
    .inr (.inr ⟨hn _ (by decide), rfl, .inl ⟨0, ⟨h0, fun y hy => ?_⟩, rfl⟩⟩),
    .inr (.inr ⟨fun h => (by cases h.2), rfl, .inr ⟨hs, rfl⟩⟩), ?_, ?_, ?_, by decide, by decide, by decide +kernel,
    by decide +kernel, by decide +kernel, by decide +kernel, by decide +kernel, by decide +kernel, topologyOk_updating,
    ⟨by decide, by decide +kernel⟩, .inr (.inl ⟨fun h => absurd h.1 (by decide), rfl, rfl⟩), by decide +kernel,
    by decide +kernel, by decide +kernel⟩
  · by_contra h
    exact hn y h hy
  · rintro l (⟨h, -⟩ | ⟨-, h, -⟩ | ⟨-, h, -⟩)
    · exact hn _ (by decide) h
    · exact absurd h (by decide)
    · exact absurd h (by decide)
  · unfold ProgAt; decide +kernel
  · unfold ProgAt; decide +kernel

/-- The update of `updating` gives PID 0x41 back and destroys decryptor 0. -/
theorem witness_PmtEnd :
    ¬ ProgAt updating (1 : Byte).toNat ∧ Canonical updating ∧ TopologyOk updating ∧ ProgAt updating (0 : Byte).toNat ∧
    GivenBack updating (0 : Byte).toNat 0x41 ∧ Destroyed updating (0 : Byte).toNat 0 ∧
    ¬ Destroyed updating (0 : Byte).toNat 1 ∧ ¬ GivenBack updating (0 : Byte).toNat 0x20 ∧
    (updating.decAt 0).ecmPid.toNat = 0x30 := by
  refine ⟨?_, canonical_updating, topologyOk_updating, ?_, ?_, ?_, ?_, ?_, by decide +kernel⟩
  · unfold ProgAt; decide +kernel
  · unfold ProgAt; decide +kernel
  · unfold GivenBack; decide +kernel
  · unfold Destroyed DecAt; decide +kernel
  · unfold Destroyed DecAt; decide +kernel
  · unfold GivenBack; decide +kernel

/-- For EcmBegin and EcmDone. -/
theorem witness_Ecm :
    DecAt (bound ctxA) (0 : Byte).toNat ∧ ¬ DecAt (bound ctxA) (1 : Byte).toNat ∧
    ((bound ctxA).decAt (0 : Byte).toNat).locked = false ∧
    DecAt ((bound ctxA).setDec 0 ⟨true, 0x30, 1, true, 1, 3, .stable⟩) (0 : Byte).toNat ∧
    (((bound ctxA).setDec 0 ⟨true, 0x30, 1, true, 1, 3, .stable⟩).decAt (0 : Byte).toNat).locked = true ∧
    1 < (2 : Byte).toNat ∧ (0x0800 : Half) ∈ (bound ctxA).par.purchasedSet ∧
    (0xA103 : Half) ∉ (bound ctxA).par.purchasedSet := by
  unfold DecAt
  decide +kernel

/-- What `Advanced` asks of the tables, for the commands that end with the phase machine. -/
theorem witness_Advanced :
    AllProgsParsed (bound ctxA) ∧ AllDecsParsed (bound ctxA) ∧ ¬ AllProgsParsed (awaitingPmt 0) ∧
    ¬ AllDecsParsed (awaitingEcm 0) ∧ (awaitingPmt 0).pipe.phase = .pmt ∧ (awaitingEcm 0).pipe.phase = .ecm := by
  refine ⟨?_, ?_, fun h => h 0 ⟨by decide, by decide +kernel⟩ (by decide +kernel),
    fun h => h 0 ⟨by decide, by decide +kernel⟩ (by decide +kernel), by decide, by decide⟩
  · rintro i ⟨-, hv⟩
    match i with
    | 0 => decide +kernel
    | i + 1 => cases hv
  · rintro d ⟨-, hv⟩
    match d with
    | 0 => decide +kernel
    | d + 1 => cases hv

theorem witness_EmmOk : Canonical (bound ctxA) ∧ (bound ctxA).pipe.cfg.emmEn = true ∧
    Canonical State.reset ∧ State.reset.pipe.cfg.emmEn = false :=
  ⟨canonical_bound, by decide, by constructor <;> decide, by decide⟩

theorem witness_DmxQuery :
    (1 : Byte) = BitVec.ofNat 8
      (min ((Finset.range (bound ctxA).par.nProg).filter fun i => ((bound ctxA).progAt i).valid = true).card 255) ∧
    (0 : Byte) ≠ 0xFF ∧ ProgAt (bound ctxA) (0 : Byte).toNat ∧ ¬ ProgAt (bound ctxA) (1 : Byte).toNat ∧
    listedPids (bound ctxA) (0 : Byte).toNat = [0x41] ∧ listedDecs (bound ctxA) (0 : Byte).toNat = [0] := by
  unfold ProgAt
  decide +kernel

/-! #### Packets -/

theorem witness_PayloadPosition :
    let s := withPacket [0x47, 0, 0x41, 0x30, 182] steady
    (187 : Nat) = (if 2 ≤ (headerAt s 0).afc.toNat then 5 + (s.readByte (0 + 4)).toNat else 4) ∧
    (1 : Int) = 188 - ((187 : Nat) : Int) ∧ (spanAt s 0 (headerAt s 0)).corrupt = false := by decide +kernel

theorem submitted_steady {s : State} {a : Nat} (ha : a + 188 ≤ s.par.pmemSize) (hp : s.pipe.phase = .steady) :
    Submitted a s :=
  ⟨ha, by rw [hp]; decide, not_due_phase (by rw [hp]; decide) (by rw [hp]; decide)⟩

theorem submitted_pat {s : State} {a : Nat} (ha : a + 188 ≤ s.par.pmemSize) (hp : s.pipe.phase = .pat) :
    Submitted a s :=
  ⟨ha, by rw [hp]; decide, not_due_phase (by rw [hp]; decide) (by rw [hp]; decide)⟩

theorem submitted_pmt {s : State} {a : Nat} (ha : a + 188 ≤ s.par.pmemSize) (hp : s.pipe.phase = .pmt)
    (h : ProgAt s 0) (hn : (s.progAt 0).phase = .notParsed) : Submitted a s :=
  ⟨ha, by rw [hp]; decide, not_due_prog 0 hp h hn⟩

theorem submitted_ecm {s : State} {a : Nat} (ha : a + 188 ≤ s.par.pmemSize) (hp : s.pipe.phase = .ecm)
    (h : DecAt s 0) (hn : (s.decAt 0).phase = .notParsed) : Submitted a s :=
  ⟨ha, by rw [hp]; decide, not_due_dec 0 hp h hn⟩

theorem examined_of {s : State} {a : Nat} (h : Submitted a s) (hs : (headerAt s a).sync = 0x47)
    (hb : (s.pipe.phase = .pat → s.pipe.budget + s.pipe.unit.toNat ≤ s.par.budgetPat) ∧
      (s.pipe.phase = .pmt → s.pipe.budget + s.pipe.unit.toNat ≤ s.par.budgetPmt) ∧
      (s.pipe.phase = .ecm → s.pipe.budget + s.pipe.unit.toNat ≤ s.par.budgetEcm)) : Examined a s := ⟨h, hs, hb⟩

theorem classified_of {s : State} {a : Nat} (h : Examined a s) (ht : (headerAt s a).tei = false)
    (hn : (headerAt s a).pid ≠ s.par.nullPid) (hc : (spanAt s a (headerAt s a)).corrupt = false) : Classified a s :=
  ⟨h, ht, fun h => hn h.2.1, hc⟩

/-- The last address a packet fits at and the first it does not; and the budgets: a unit of 188 bytes over one of 213. -/
theorem witness_PacketRefused :
    steady.par.pmemSize < (213 : Half).toNat + 188 ∧ (212 : Half).toNat + 188 ≤ (inPhase .unit 0).par.pmemSize ∧
    (inPhase .unit 0).pipe.phase = .unit ∧
    (Submitted (0 : Half).toNat (packet 0x41 0x10 (inPhase .pat 213)) ∧
      (headerAt (packet 0x41 0x10 (inPhase .pat 213)) (0 : Half).toNat).sync = 0x47 ∧
      (inPhase .pat 213).par.budgetPat < (inPhase .pat 213).pipe.budget + (inPhase .pat 213).pipe.unit.toNat) ∧
    (Submitted (0 : Half).toNat (packet 0x41 0x10 (awaitingPmt 213)) ∧
      (headerAt (packet 0x41 0x10 (awaitingPmt 213)) (0 : Half).toNat).sync = 0x47 ∧
      (awaitingPmt 213).par.budgetPmt < (awaitingPmt 213).pipe.budget + (awaitingPmt 213).pipe.unit.toNat) ∧
    (Submitted (0 : Half).toNat (packet 0x41 0x10 (awaitingEcm 213)) ∧
      (headerAt (packet 0x41 0x10 (awaitingEcm 213)) (0 : Half).toNat).sync = 0x47 ∧
      (awaitingEcm 213).par.budgetEcm < (awaitingEcm 213).pipe.budget + (awaitingEcm 213).pipe.unit.toNat) :=
  ⟨by decide, by decide, by decide,
    ⟨submitted_pat (by decide) (by decide), by decide +kernel, by decide⟩,
    ⟨submitted_pmt (by decide) (by decide) ⟨by decide, by decide +kernel⟩ (by decide +kernel), by decide +kernel, by decide⟩,
    submitted_ecm (by decide) (by decide) ⟨by decide, by decide +kernel⟩ (by decide +kernel), by decide +kernel, by decide⟩

/-- Both phase changes that can be due: no program, and no decryptor, is left to wait for. -/
theorem witness_PacketAdvancesPhase :
    ((212 : Half).toNat + 188 ≤ (inPhase .pmt 0).par.pmemSize ∧ AdvanceDue (inPhase .pmt 0)) ∧
    AdvanceDue (inPhase .ecm 0) :=
  ⟨⟨by decide, .inl ⟨rfl, fun i h => by cases h.2⟩⟩, .inr ⟨rfl, fun d h => by cases h.2⟩⟩

/-- A packet with another sync byte, one with the error indicator, a null packet, and a corrupt one (no payload byte left
where AFC asks for one), the second and the last also in phase 1 with the budget at its limit. -/
theorem witness_PacketNotClassified :
    (Submitted (0 : Half).toNat (withPacket [0x46, 0, 0, 0] steady) ∧
      (headerAt (withPacket [0x46, 0, 0, 0] steady) (0 : Half).toNat).sync ≠ 0x47) ∧
    (Examined (0 : Half).toNat (packet 0x8041 0x10 steady) ∧
      (headerAt (packet 0x8041 0x10 steady) (0 : Half).toNat).tei = true) ∧
    (Examined (0 : Half).toNat (packet 0x8041 0x10 (inPhase .pat 212)) ∧
      (headerAt (packet 0x8041 0x10 (inPhase .pat 212)) (0 : Half).toNat).tei = true ∧
      Acquiring (packet 0x8041 0x10 (inPhase .pat 212))) ∧
    (Examined (0 : Half).toNat (packet 0x1FFF 0x10 steady) ∧
      (headerAt (packet 0x1FFF 0x10 steady) (0 : Half).toNat).tei = false ∧
      NullDropped (0 : Half).toNat (packet 0x1FFF 0x10 steady)) ∧
    (Examined (0 : Half).toNat (withPacket [0x47, 0, 0x41, 0x30, 183] steady) ∧
      ¬ NullDropped (0 : Half).toNat (withPacket [0x47, 0, 0x41, 0x30, 183] steady) ∧
      (spanAt (withPacket [0x47, 0, 0x41, 0x30, 183] steady) (0 : Half).toNat
        (headerAt (withPacket [0x47, 0, 0x41, 0x30, 183] steady) (0 : Half).toNat)).corrupt = true) ∧
    (Examined (0 : Half).toNat (withPacket [0x47, 0, 0x41, 0x20, 184] (inPhase .pat 212)) ∧
      ¬ NullDropped (0 : Half).toNat (withPacket [0x47, 0, 0x41, 0x20, 184] (inPhase .pat 212)) ∧
      (spanAt (withPacket [0x47, 0, 0x41, 0x20, 184] (inPhase .pat 212)) (0 : Half).toNat
        (headerAt (withPacket [0x47, 0, 0x41, 0x20, 184] (inPhase .pat 212)) (0 : Half).toNat)).corrupt = true ∧
      Acquiring (withPacket [0x47, 0, 0x41, 0x20, 184] (inPhase .pat 212))) :=
  ⟨⟨submitted_steady (by decide) (by decide), by decide +kernel⟩,
    ⟨examined_of (submitted_steady (by decide) (by decide)) (by decide +kernel) (by decide +kernel), by decide +kernel⟩,
    ⟨examined_of (submitted_pat (by decide) (by decide)) (by decide +kernel) (by decide +kernel), by decide +kernel, .inl rfl⟩,
    ⟨examined_of (submitted_steady (by decide) (by decide)) (by decide +kernel) (by decide +kernel), by decide +kernel,
      rfl, by decide +kernel, rfl⟩,
    ⟨examined_of (submitted_steady (by decide) (by decide)) (by decide +kernel) (by decide +kernel),
      fun h => absurd h.2.1 (by decide +kernel), by decide +kernel⟩,
    ⟨examined_of (submitted_pat (by decide) (by decide)) (by decide +kernel) (by decide +kernel),
      fun h => absurd h.2.1 (by decide +kernel), by decide +kernel, .inl rfl⟩⟩

/-- A PAT section in phase 1, a PMT section in phase 2, an ECM section in phase 3, and a packet of no interest in phase 1. -/
theorem witness_PacketHeld :
    (Classified (0 : Half).toNat (packet 0 0x10 (inPhase .pat 212)) ∧ Acquiring (packet 0 0x10 (inPhase .pat 212)) ∧
      ScanWanted (0 : Half).toNat (packet 0 0x10 (inPhase .pat 212))) ∧
    (Classified (0 : Half).toNat (packet 0x20 0x10 (awaitingPmt 212)) ∧ Acquiring (packet 0x20 0x10 (awaitingPmt 212)) ∧
      ScanWanted (0 : Half).toNat (packet 0x20 0x10 (awaitingPmt 212))) ∧
    (Classified (0 : Half).toNat (packet 0x30 0x10 (awaitingEcm 212)) ∧ Acquiring (packet 0x30 0x10 (awaitingEcm 212)) ∧
      ScanWanted (0 : Half).toNat (packet 0x30 0x10 (awaitingEcm 212))) ∧
    (Classified (0 : Half).toNat (packet 0 0xD0 (inPhase .pat 212)) ∧ Acquiring (packet 0 0xD0 (inPhase .pat 212)) ∧
      ¬ ScanWanted (0 : Half).toNat (packet 0 0xD0 (inPhase .pat 212))) := by
  refine ⟨⟨classified_of (examined_of (submitted_pat (by decide) (by decide)) (by decide +kernel) (by decide +kernel))
      (by decide +kernel) (by decide +kernel) (by decide +kernel), .inl rfl, ?_, by decide +kernel, .inl ⟨rfl, rfl⟩⟩,
    ⟨classified_of (examined_of (submitted_pmt (by decide) (by decide) ⟨by decide, by decide +kernel⟩ (by decide +kernel))
      (by decide +kernel) (by decide +kernel)) (by decide +kernel) (by decide +kernel) (by decide +kernel),
      .inr (.inl rfl), ?_, by decide +kernel, .inr (.inl ⟨rfl, by decide +kernel, 0, by decide +kernel, by decide +kernel⟩)⟩,
    ⟨classified_of (examined_of (submitted_ecm (by decide) (by decide) ⟨by decide, by decide +kernel⟩ (by decide +kernel))
      (by decide +kernel) (by decide +kernel)) (by decide +kernel) (by decide +kernel) (by decide +kernel),
      .inr (.inr rfl), ?_, by decide +kernel, .inr (.inr ⟨rfl, by decide +kernel, 0, by decide +kernel, by decide +kernel⟩)⟩,
    ⟨classified_of (examined_of (submitted_pat (by decide) (by decide)) (by decide +kernel) (by decide +kernel))
      (by decide +kernel) (by decide +kernel) (by decide +kernel), .inl rfl, ?_⟩⟩
  · unfold Scrambled; decide +kernel
  · unfold Scrambled; decide +kernel
  · unfold Scrambled; decide +kernel
  · rintro ⟨h, -⟩
    exact h (by unfold Scrambled; decide +kernel)

/-- A PMT section, and a stream packet, in the steady state. -/
theorem witness_PacketClear :
    (Classified (0 : Half).toNat (packet 0x20 0x10 (bound ctxA)) ∧ (packet 0x20 0x10 (bound ctxA)).pipe.phase = .steady ∧
      ¬ Scrambled (0 : Half).toNat (packet 0x20 0x10 (bound ctxA)) ∧
      SectionWanted (0 : Half).toNat (packet 0x20 0x10 (bound ctxA))) ∧
    (Classified (0 : Half).toNat (packet 0x41 0x10 (bound ctxA)) ∧
      ¬ Scrambled (0 : Half).toNat (packet 0x41 0x10 (bound ctxA)) ∧
      ¬ SectionWanted (0 : Half).toNat (packet 0x41 0x10 (bound ctxA))) := by
  refine ⟨⟨classified_of (examined_of (submitted_steady (by decide) (by decide)) (by decide +kernel) (by decide +kernel))
      (by decide +kernel) (by decide +kernel) (by decide +kernel), rfl, ?_, ?_⟩,
    classified_of (examined_of (submitted_steady (by decide) (by decide)) (by decide +kernel) (by decide +kernel))
      (by decide +kernel) (by decide +kernel) (by decide +kernel), ?_, ?_⟩
  · unfold Scrambled; decide +kernel
  · unfold SectionWanted; decide +kernel
  · unfold Scrambled; decide +kernel
  · unfold SectionWanted; decide +kernel

/-- A scrambled packet under the odd and under the even key, on the PID that decryptor 0 descrambles. -/
theorem witness_PacketDescrambled :
    (Classified (0 : Half).toNat (packet 0x41 0xD0 (bound ctxA)) ∧ (packet 0x41 0xD0 (bound ctxA)).pipe.phase = .steady ∧
      Scrambled (0 : Half).toNat (packet 0x41 0xD0 (bound ctxA)) ∧
      Resolves (0 : Half).toNat 0 (packet 0x41 0xD0 (bound ctxA)) ∧ 0 < (packet 0x41 0xD0 (bound ctxA)).par.nCtx ∧
      ((packet 0x41 0xD0 (bound ctxA)).ctx 0).st = ⟨true, true, true⟩) ∧
    (Classified (0 : Half).toNat (packet 0x41 0x90 (bound ctxA)) ∧
      Scrambled (0 : Half).toNat (packet 0x41 0x90 (bound ctxA)) ∧
      Resolves (0 : Half).toNat 0 (packet 0x41 0x90 (bound ctxA))) := by
  refine ⟨⟨classified_of (examined_of (submitted_steady (by decide) (by decide)) (by decide +kernel) (by decide +kernel))
      (by decide +kernel) (by decide +kernel) (by decide +kernel), rfl, ?_, ?_, by decide, by decide +kernel⟩,
    classified_of (examined_of (submitted_steady (by decide) (by decide)) (by decide +kernel) (by decide +kernel))
      (by decide +kernel) (by decide +kernel) (by decide +kernel), ?_, ?_⟩
  · unfold Scrambled; decide +kernel
  · unfold Resolves; decide +kernel
  · unfold Scrambled; decide +kernel
  · unfold Resolves; decide +kernel

/-- No data key; and a data key with no IV, or with no system key. -/
theorem witness_PacketLeftScrambled :
    (Classified (0 : Half).toNat (packet 0x41 0xD0 (bound .reset)) ∧
      Scrambled (0 : Half).toNat (packet 0x41 0xD0 (bound .reset)) ∧
      (packet 0x41 0xD0 (bound .reset)).pipe.phase = .steady ∧
      ∀ d, ¬ Resolves (0 : Half).toNat d (packet 0x41 0xD0 (bound .reset))) ∧
    (Classified (0 : Half).toNat (packet 0x41 0xD0 (bound (flagged false true true))) ∧
      Scrambled (0 : Half).toNat (packet 0x41 0xD0 (bound (flagged false true true))) ∧
      Resolves (0 : Half).toNat 0 (packet 0x41 0xD0 (bound (flagged false true true))) ∧
      ((packet 0x41 0xD0 (bound (flagged false true true))).ctx 0).st.iv = false) ∧
    (Resolves (0 : Half).toNat 0 (packet 0x41 0xD0 (bound (flagged true false true))) ∧
      ((packet 0x41 0xD0 (bound (flagged true false true))).ctx 0).st.sk = false) := by
  refine ⟨⟨classified_of (examined_of (submitted_steady (by decide) (by decide)) (by decide +kernel) (by decide +kernel))
      (by decide +kernel) (by decide +kernel) (by decide +kernel), ?_, rfl, ?_⟩,
    ⟨classified_of (examined_of (submitted_steady (by decide) (by decide)) (by decide +kernel) (by decide +kernel))
      (by decide +kernel) (by decide +kernel) (by decide +kernel), ?_, ?_, by decide +kernel⟩, ?_, by decide +kernel⟩
  · unfold Scrambled; decide +kernel
  · rintro d ⟨-, -, h⟩
    have : (packet 0x41 0xD0 (bound .reset)).ctx d = .reset := rfl
    rw [this] at h
    cases h
  · unfold Scrambled; decide +kernel
  · unfold Resolves; decide +kernel
  · unfold Resolves; decide +kernel

/-- A descrambled packet, and the same packet in a machine whose other context differs. -/
theorem witness_PacketFrame :
    exec (.dmxPacket 0) (packet 0x41 0x10 (bound ctxA)) = .next (after (.dmxPacket 0) (packet 0x41 0x10 (bound ctxA))) ∧
    (let s := packet 0x41 0x10 (bound ctxA)
     let s' := s.setCtx 1 ctxA
     s' = { s with ce := s'.ce } ∧ s'.ctx 1 ≠ s.ctx 1 ∧
       ∀ d, (entryAt s (0 : Half).toNat).link = .dec d → s'.ctx d = s.ctx d) := by
  refine ⟨exec_after (by decide +kernel), rfl, by decide +kernel, fun d h => ?_⟩
  have hd : (entryAt (packet 0x41 0x10 (bound ctxA)) (0 : Half).toNat).link = .dec 0 := by decide +kernel
  cases hd.symm.trans h
  decide +kernel

/-! #### The whole machine -/

/-- One transition of each kind. -/
theorem witness_PhaseTransitions :
    (after (.dmxUnit 188) State.reset).pipe.phase ≠ State.reset.pipe.phase ∧ runs (.dmxUnit 188) State.reset = true ∧
    (after .patBegin (inPhase .pat 5)).pipe.phase ≠ (inPhase .pat 5).pipe.phase ∧ runs .patBegin (inPhase .pat 5) = true ∧
    (after (.dmxPacket 0) (inPhase .pmt 5)).pipe.phase ≠ (inPhase .pmt 5).pipe.phase ∧
    (after (.ecmDone 0 0 0x0800 dkA) (awaitingEcm 5)).pipe.phase ≠ (awaitingEcm 5).pipe.phase ∧
    (after (.pmtEnd 0) (awaitingPmt 5)).pipe.phase ≠ (awaitingPmt 5).pipe.phase ∧
    (after .dmxReset steady).pipe.phase ≠ steady.pipe.phase := by decide +kernel

theorem witness_MemoryWriters :
    exec (.encrypt 3 0 0x100 8) (readyA.writeBytes 0x100 (counting 8)) =
      .next (after (.encrypt 3 0 0x100 8) (readyA.writeBytes 0x100 (counting 8))) ∧
    ¬ MayWrite (.encrypt 3 0 0x100 8) (readyA.writeBytes 0x100 (counting 8)) 0x108 ∧
    exec (.dmxPacket 0) (packet 0x41 0x10 (bound ctxA)) = .next (after (.dmxPacket 0) (packet 0x41 0x10 (bound ctxA))) ∧
    ¬ MayWrite (.dmxPacket 0) (packet 0x41 0x10 (bound ctxA)) 2 := by
  refine ⟨exec_after (by decide +kernel), ?_, exec_after (by decide +kernel), ?_⟩
  · rintro (⟨t, c, a, n, h | h, h1, h2⟩ | ⟨a, h, -⟩) <;> cases h
    exact absurd h2 (by decide)
  · rintro (⟨t, c, a, n, h | h, h1, h2⟩ | ⟨a, h, h1⟩) <;> cases h
    rcases h1 with h1 | ⟨h1, -⟩
    · exact absurd h1 (by decide)
    · exact absurd h1 (by decide +kernel)

/-- Two states that differ in a byte outside the command's reach. -/
theorem witness_MemoryReaders :
    let s := readyA.writeBytes 0x100 (counting 8)
    let s' := s.writeByte 0x108 7
    s' = { s with pmem := s'.pmem, epoch := s'.epoch } ∧
    (∀ b, InReach (.encrypt 3 0 0x100 8) b → s'.readByte b = s.readByte b) ∧
    exec (.encrypt 3 0 0x100 8) s = .next (after (.encrypt 3 0 0x100 8) s) := by
  refine ⟨rfl, fun b hb => ?_, exec_after (by decide +kernel)⟩
  refine State.readByte_writeByte_ne _ _ ?_
  rintro rfl
  rcases hb with ⟨t, c, a, n, h | h, h1, h2⟩ | ⟨a, h, -⟩ <;> cases h
  exact absurd h2 (by decide)

/-- Two states that differ in the keys of a context. -/
theorem witness_KeysCannotBeReadBack :
    let s := readyA.writeBytes 0x100 (counting 8)
    let s' := (State.reset.setCtx 0 { ctxA with sk := .zero, wk0 := wkA1, round := 9 }).writeBytes 0x100 (counting 8)
    s' = { s with ce := s'.ce } ∧ (∀ c, (s'.ctx c).st = (s.ctx c).st) ∧ s'.ctx 0 ≠ s.ctx 0 ∧
    exec (.encrypt 3 0 0x100 8) s = .next (after (.encrypt 3 0 0x100 8) s) ∧
    exec (.clearDataKey 0) s = .next (after (.clearDataKey 0) s) ∧ (∀ b, ¬ InReach (.clearDataKey 0) b) := by
  refine ⟨by decide +kernel, fun c => ?_, by decide +kernel, exec_after (by decide +kernel), exec_after (by decide +kernel),
    fun b => ?_⟩
  · match c with
    | 0 => decide +kernel
    | c + 1 => rfl
  · rintro (⟨t, c, a, n, h | h, -, -⟩ | ⟨a, h, -⟩) <;> cases h

theorem witness_ContextRegisterWriters :
    exec (.setRound 0 9) readyA = .next (after (.setRound 0 9) readyA) ∧
    exec (.pmtEnd 0) updating = .next (after (.pmtEnd 0) updating) ∧ reinitialises (.pmtEnd 0) :=
  ⟨exec_after (by decide +kernel), exec_after (by decide +kernel), trivial⟩

theorem witness_RoleTableInvariants :
    Canonical updating ∧ TopologyOk updating ∧ exec (.pmtEnd 0) updating = .next (after (.pmtEnd 0) updating) ∧
    (updating.mapAt 0x20).role ≠ .unknown ∧ ((after (.pmtEnd 0) updating).mapAt 0x20).role ≠ .unknown ∧
    ((after (.pmtEnd 0) updating).mapAt 0x41).role = .unknown :=
  ⟨canonical_updating, topologyOk_updating, exec_after (by decide +kernel), by decide +kernel, by decide +kernel,
    by decide +kernel⟩

/-! #### Invariants and reset -/

/-- `updating` with PMT_END waiting in the command port; for CanonicalFormKept, RegistersStayLegal and TopologyKept. -/
theorem witness_invariants :
    let s : State := { updating with cmd := [0x2A, 0x00] }
    Canonical s ∧ ContextsOk s ∧ PipeOk s ∧ TopologyOk s ∧
      step s = .next (after (.pmtEnd 0) updating) := by
  refine ⟨?_, ⟨fun c => ?_, by decide⟩, ?_, ?_, ?_⟩
  · constructor <;> decide +kernel
  · match c with
    | 0 => constructor <;> decide +kernel
    | c + 1 => exact ⟨by show (4 : Byte) ≠ 0; decide, fun _ => rfl, fun _ => rfl, fun _ => ⟨rfl, rfl, rfl, rfl⟩⟩
  · constructor <;> decide +kernel
  · exact ⟨topologyOk_updating.entry, topologyOk_updating.patPid, topologyOk_updating.oneCat, topologyOk_updating.oneEmm,
      topologyOk_updating.progRole, topologyOk_updating.decRole, topologyOk_updating.decRef, topologyOk_updating.progFree,
      topologyOk_updating.decFree, topologyOk_updating.listLength⟩
  · exact exec_after (i := .pmtEnd 0) (s := updating) (by decide +kernel)

theorem witness_SoundAtReset : defaults.Legal ∧ small.Legal ∧ Params.Legal ⟨1, 1, 1, 188, 1, 1, 1, [], .index0, 0⟩ := by decide

theorem witness_ResetValues : hardwareReset (bound ctxA) = State.resetWith small 1 ∧ (bound ctxA).par = small := by
  decide +kernel

end Sys2Proof.Tests
end

section
/-! What a step is, by what stands at the front of the command port (spec/00_scope.md R15, spec/20_memory.md R63,
spec/30_encoding.md R83, R92), and the statement of R15 about it. -/

namespace Sys2Proof.Machine

/-- A whole command is taken off the port and runs (R15, R63). -/
theorem step_of_command {s : State} {i : Instr} {rest : List Byte} (h : decode s.cmd = .command i rest) :
    step s = exec i { s with cmd := rest } := by
  simp only [step, h]

/-- A reserved opcode byte is consumed alone and answered (R92). -/
theorem step_of_reserved {s : State} {b : Byte} {rest : List Byte} (h : decode s.cmd = .reserved b rest) :
    step s = .next (raise .ce .illegalCommand { s with cmd := rest }) := by
  simp only [step, h]

/-- Too few bytes for a command: nothing is taken and nothing happens (R83). -/
theorem step_of_incomplete {s : State} (h : decode s.cmd = .incomplete) : step s = .next s :=
  step_of_not_inFlight ((inFlight_eq_false_iff s).mpr h)

/-- Settles O5: the two cases of the decoder that the statement names. -/
theorem stepRunsDecodedCommand : Obligations.StepRunsDecodedCommand := fun _ =>
  ⟨fun _ _ h => step_of_command h, fun h => step_of_incomplete h⟩

end Sys2Proof.Machine
end

section
/-! How a command can end, once for all commands (spec/30_encoding.md R82, R95; spec/60_exceptions.md R190, R200, R201):
an error status and no other effect, a normal end, or the failure end of ECM_DONE. -/

namespace Sys2Proof.Machine

open Sys2Proof.Safety

/-! ### What the shared operations leave of the response port -/

@[simp] theorem advance_rsp (s : State) : (advance s).rsp = s.rsp := by rw [advance_only]

@[simp] theorem bindPid_rsp (p : Nat) (t : Link) (s : State) : (bindPid p t s).rsp = s.rsp := by
  rw [bindPid_only]

@[simp] theorem releaseList_rsp (es : List StreamElem) (s : State) : (releaseList es s).rsp = s.rsp := by
  rw [releaseList_only]

@[simp] theorem sweepDecs_rsp (ds : List Nat) (s : State) : (sweepDecs ds s).rsp = s.rsp := by
  rw [sweepDecs_only]

@[simp] theorem clearTopology_rsp (s : State) : (clearTopology s).rsp = s.rsp := rfl

@[simp] theorem enterPhase_rsp (ph : Phase) (s : State) : (enterPhase ph s).rsp = s.rsp := rfl

@[simp] theorem countNormal_rsp (p : Nat) (s : State) : (countNormal p s).rsp = s.rsp := rfl

@[simp] theorem countUndec_rsp (p : Nat) (s : State) : (countUndec p s).rsp = s.rsp := rfl

@[simp] theorem charge_rsp (n : Nat) (s : State) : (charge n s).rsp = s.rsp := by
  unfold charge
  split <;> rfl

theorem chainCommand_ok_rsp {dir : Direction} {t : BitVec 2} {c a n : Nat} {s u : State}
    (h : chainCommand dir t c a n s = .ok u) : u.rsp = s.rsp := by
  rcases chainCommand_cases dir t c a n s with ⟨e, -, he⟩ | ⟨-, hu⟩
  · cases he.symm.trans h
  · cases hu.symm.trans h
    rw [chainRun_only]

/-- Step 11 of R145 writes no response itself. -/
theorem steadyPacket_ok_rsp {a : Nat} {h : PacketHeader} {p : PayloadSpan} {s u : State} {r : Route}
    (hok : steadyPacket a h p s = .ok (r, u)) : u.rsp = s.rsp := by
  rcases steadyPacket_cases a h p s with ⟨-, he⟩ | ⟨-, -, he⟩ | ⟨-, d, v, -, hv, he⟩ | ⟨-, d, e, -, -, he⟩
  all_goals cases he.symm.trans hok
  · rfl
  · rfl
  · simpa using chainCommand_ok_rsp hv

/-! ### Which statuses the shared checks answer -/

/-- The checks of R130 answer the four statuses that R190 gives ENCRYPT and DECRYPT. -/
theorem chainCheck_some {t : BitVec 2} {c a n : Nat} {s : State} {e : Status} (h : chainCheck t c a n s = some e) :
    e = .invalidParameter ∨ e = .unsetInitVector ∨ e = .unsetSystemKey ∨ e = .unsetDataKey := by
  unfold chainCheck at h
  split at h
  · rcases missingPrerequisite_cases (s.ctx c).st with ⟨-, hm⟩ | ⟨-, -, hm⟩ | ⟨-, -, -, hm⟩ | ⟨-, -, -, hm⟩ <;>
      simp_all
  · simp_all

/-- A used-up budget answers the status of its phase (R153, R197). -/
theorem budgetError_some {s : State} {e : Status} (h : budgetError s = some e) :
    (s.pipe.phase = .pat ∧ e = .noPatFound) ∨ (s.pipe.phase = .pmt ∧ e = .noPmtFound) ∨
      (s.pipe.phase = .ecm ∧ e = .noEcmFound) := by
  unfold budgetError budgetLimit at h
  cases hp : s.pipe.phase <;> simp_all

/-- Step 11 of R145 fails only as R150 says. -/
theorem steadyPacket_error {a : Nat} {h : PacketHeader} {p : PayloadSpan} {s : State} {e : Status}
    (herr : steadyPacket a h p s = .error e) : e = .decryptFailure := by
  rcases steadyPacket_cases a h p s with ⟨-, he⟩ | ⟨-, -, he⟩ | ⟨-, d, v, -, -, he⟩ | ⟨-, d, e', -, -, he⟩
  all_goals cases he.symm.trans herr
  rfl

/-! ### The ends of a command -/

/-- The unit that answers a command (R82). -/
def portOf (i : Instr) : Port :=
  match isCe i with
  | true => .ce
  | false => .dx

/-- The ends of command `i` in state `s`: a status of R190 other than OK, and nothing else (R201); OK, with as many result
bytes as R95 gives the command, from a state `t` with nothing answered yet; or ECM_DONE with FAIL = 1 (R200). -/
inductive Ends (i : Instr) (s : State) : Host.Outcome State Fault Refusal → Prop
  | error (e : Status) (listed : e ∈ returns s.pipe.phase i := by simp [returns]) (notOk : e ≠ .ok := by decide) :
      Ends i s (.next (raise (portOf i) e s))
  | normal (fields : List Byte) (t : State) (sameRsp : t.rsp = s.rsp := by simp)
      (listed : .ok ∈ returns s.pipe.phase i := by simp [returns])
      (length : fields.length = resultLength i := by rfl) :
      Ends i s (.next (respond (portOf i) fields t))
  | ecmFailure (d : Byte) (rc : Half) (key : Bytes16) (command : i = .ecmDone d 1 rc key)
      (valid : decValid s d.toNat = true) :
      Ends i s (.next (raise .dx .ecmProcFailure (s.setCtx d.toNat (clearDataKey (s.ctx d.toNat)))))

/-- A command whose meaning tests a condition ends as the branch taken does. -/
theorem Ends.ite {i : Instr} {s : State} {c : Prop} [Decidable c] {x y : Host.Outcome State Fault Refusal}
    (hx : Ends i s x) (hy : Ends i s y) : Ends i s (if c then x else y) := by
  split
  · exact hx
  · exact hy

variable (s : State)

/-! ### Unit CE -/

theorem execSetSystemKey_ends (c : Byte) (k : Bytes32) : Ends (.setSystemKey c k) s (execSetSystemKey c k s) :=
  .ite (.normal [] _) (.error .invalidParameter)

theorem execSetInitVector_ends (c : Byte) (v : Bytes8) : Ends (.setInitVector c v) s (execSetInitVector c v s) :=
  .ite (.normal [] _) (.error .invalidParameter)

theorem execSetDataKey_ends (c : Byte) (k : Bytes16) : Ends (.setDataKey c k) s (execSetDataKey c k s) :=
  .ite (.normal [] _) (.error .invalidParameter)

theorem execClearDataKey_ends (c : Byte) : Ends (.clearDataKey c) s (execClearDataKey c s) :=
  .ite (.normal [] _) (.error .invalidParameter)

theorem execSetRound_ends (c n : Byte) : Ends (.setRound c n) s (execSetRound c n s) :=
  .ite (.normal [] _) (.error .invalidParameter)

/-- The transform and its response, for whichever of ENCRYPT and DECRYPT the command is. -/
theorem chainResponse_ends {i : Instr} (hp : portOf i = .ce) (hl : resultLength i = 0)
    (hr : returns s.pipe.phase i = [.ok, .invalidParameter, .unsetInitVector, .unsetSystemKey, .unsetDataKey])
    (dir : Direction) (t : BitVec 2) (c a n : Nat) :
    Ends i s (.next (chainResponse (chainCommand dir t c a n s) s)) := by
  unfold chainResponse
  rw [← hp]
  cases h : chainCommand dir t c a n s with
  | ok u => exact .normal [] u (chainCommand_ok_rsp h) (by simp [hr]) hl.symm
  | error e =>
    rcases chainCommand_cases dir t c a n s with ⟨e', he', hc⟩ | ⟨-, hc⟩
    · cases hc.symm.trans h
      rcases chainCheck_some he' with rfl | rfl | rfl | rfl <;> exact .error _ (by simp [hr])
    · cases hc.symm.trans h

theorem execEncrypt_ends (t : BitVec 2) (c : Byte) (a n : Half) : Ends (.encrypt t c a n) s (execEncrypt t c a n s) :=
  chainResponse_ends s rfl rfl rfl ..

theorem execDecrypt_ends (t : BitVec 2) (c : Byte) (a n : Half) : Ends (.decrypt t c a n) s (execDecrypt t c a n s) :=
  chainResponse_ends s rfl rfl rfl ..

/-! ### Unit DX: pipeline control -/

theorem execDmxReset_ends : Ends .dmxReset s (execDmxReset s) := .normal [] _

theorem execDmxConfig_ends (f n : Byte) : Ends (.dmxConfig f n) s (execDmxConfig f n s) :=
  .ite (.normal [] _) (.error .invalidParameter)

theorem execDmxUnit_ends (size : Half) : Ends (.dmxUnit size) s (execDmxUnit size s) :=
  .ite (.ite (.normal [] _) (.error .badSequence)) (.error .invalidParameter)

/-! ### Unit DX: DMX_PACKET -/

/-- DMX_PACKET can answer OK once the unit size is known (R190). -/
theorem ok_mem_returns_dmxPacket {ph : Phase} (h : ph ≠ .unit) (addr : Half) : .ok ∈ returns ph (.dmxPacket addr) := by
  cases ph <;> simp_all [returns]

theorem classifyPacket_ends (hp : s.pipe.phase ≠ .unit) (addr : Half) (a : Nat) :
    Ends (.dmxPacket addr) s (.next (classifyPacket a (headerAt s a) s)) := by
  have hok := ok_mem_returns_dmxPacket hp addr
  rcases classifyPacket_cases a s with ⟨-, he⟩ | ⟨-, -, he⟩ | ⟨-, ha, e, hs, he⟩ | ⟨-, -, r, u, hs, he⟩ <;> rw [he]
  · exact .normal _ _ (charge_rsp ..) hok
  · exact .normal _ _ (charge_rsp ..) hok
  · have hsteady : s.pipe.phase = .steady := by cases h : s.pipe.phase <;> simp_all [acquiring]
    rw [steadyPacket_error hs]
    exact .error .decryptFailure (by simp [hsteady, returns])
  · exact .normal _ _ (steadyPacket_ok_rsp hs) hok

theorem examinePacket_ends (hp : s.pipe.phase ≠ .unit) (addr : Half) (a : Nat) :
    Ends (.dmxPacket addr) s (.next (examinePacket a s)) := by
  have hok := ok_mem_returns_dmxPacket hp addr
  rcases examinePacket_cases a s with ⟨-, he⟩ | ⟨-, e, hb, he⟩ | ⟨-, -, -, he⟩ | ⟨-, -, -, -, he⟩ | ⟨-, -, -, -, he⟩ <;>
    rw [he]
  · exact .normal _ _ rfl hok
  · rcases budgetError_some hb with ⟨h, rfl⟩ | ⟨h, rfl⟩ | ⟨h, rfl⟩ <;> exact .error _ (by simp [h, returns])
  · exact .normal _ _ (charge_rsp ..) hok
  · exact .normal _ _ rfl hok
  · exact classifyPacket_ends s hp addr a

theorem execDmxPacket_ends (addr : Half) : Ends (.dmxPacket addr) s (execDmxPacket addr s) := by
  rcases execDmxPacket_cases addr s with ⟨-, he⟩ | ⟨-, hp, he⟩ | ⟨-, hp, -, he⟩ | ⟨-, hp, -, he⟩ <;> rw [he]
  · exact .error .invalidParameter (by cases s.pipe.phase <;> simp [returns])
  · exact .error .badSequence (by simp [hp, returns])
  · exact .normal _ _ (advance_rsp s) (ok_mem_returns_dmxPacket hp addr)
  · exact examinePacket_ends s hp addr _

/-! ### Unit DX: the tables -/

theorem execPatBegin_ends : Ends .patBegin s (execPatBegin s) :=
  .ite (.error .badSequence) (.normal [] _ (by split <;> simp))

theorem execProgAdd_ends (num pid : Half) : Ends (.progAdd num pid) s (execProgAdd num pid s) := by
  unfold execProgAdd
  dsimp only
  split
  · exact .error .invalidParameter
  · split
    · exact .error .badSequence
    · split
      · exact .error .invalidParameter
      · split
        · exact .error .outOfResources
        · exact .normal [_] _

theorem execRoleSet_ends (pid : Half) (role : Byte) : Ends (.roleSet pid role) s (execRoleSet pid role s) :=
  .ite (.ite (.error .invalidParameter) (.normal [] _)) (.error .invalidParameter)

theorem execPmtBegin_ends (p : Byte) (pcr : Half) : Ends (.pmtBegin p pcr) s (execPmtBegin p pcr s) :=
  .ite (.ite (.error .badSequence) (.normal [] _)) (.error .invalidParameter)

theorem execDecOpen_ends (pid : Half) : Ends (.decOpen pid) s (execDecOpen pid s) := by
  unfold execDecOpen
  dsimp only
  split
  · split
    · exact .normal [_, _] _
    · split
      · exact .error .invalidParameter
      · split
        · exact .error .outOfResources
        · exact .normal [_, _] _
  · exact .error .invalidParameter

theorem execStrmBind_ends (p : Byte) (pid : Half) (type d : Byte) :
    Ends (.strmBind p pid type d) s (execStrmBind p pid type d s) := by
  unfold execStrmBind
  dsimp only
  split
  · split
    · exact .error .invalidParameter
    · split
      · exact .normal [_] _
      · split
        · exact .error .outOfResources
        · exact .normal [_] _
  · exact .error .invalidParameter

theorem execPmtEnd_ends (p : Byte) : Ends (.pmtEnd p) s (execPmtEnd p s) :=
  .ite (.normal [] _) (.error .invalidParameter)

/-! ### Unit DX: key delivery and query -/

theorem execEcmBegin_ends (d : Byte) : Ends (.ecmBegin d) s (execEcmBegin d s) :=
  .ite (.ite (.normal [_] _) (.normal [_] _)) (.error .invalidParameter)

theorem execEcmDone_ends (d fail : Byte) (rc : Half) (key : Bytes16) :
    Ends (.ecmDone d fail rc key) s (execEcmDone d fail rc key s) := by
  unfold execEcmDone
  dsimp only
  split
  · next hv =>
    obtain ⟨hd, -⟩ := Bool.and_eq_true_iff.mp hv
    split
    · next hf =>
      subst hf
      exact .ecmFailure d rc key rfl hd
    · split
      · exact .normal [_] _
      · exact .normal [_] _
  · exact .error .invalidParameter

theorem execEmmOk_ends : Ends .emmOk s (execEmmOk s) :=
  .ite (.normal [] _) (.error .badSequence)

theorem execDmxQuery_ends (p : Byte) : Ends (.dmxQuery p) s (execDmxQuery p s) :=
  .ite (.normal _ _) (.ite (.normal _ _) (.error .invalidParameter))

/-! ### Every command -/

/-- Every command ends in one of the ways of `Ends` (R82, R95, R190, R200, R201). -/
theorem exec_ends (i : Instr) : Ends i s (exec i s) := by
  cases i with
  | setSystemKey c k => exact execSetSystemKey_ends s c k
  | setInitVector c v => exact execSetInitVector_ends s c v
  | setDataKey c k => exact execSetDataKey_ends s c k
  | clearDataKey c => exact execClearDataKey_ends s c
  | setRound c n => exact execSetRound_ends s c n
  | encrypt t c a n => exact execEncrypt_ends s t c a n
  | decrypt t c a n => exact execDecrypt_ends s t c a n
  | dmxReset => exact execDmxReset_ends s
  | dmxConfig f n => exact execDmxConfig_ends s f n
  | dmxUnit z => exact execDmxUnit_ends s z
  | dmxPacket a => exact execDmxPacket_ends s a
  | patBegin => exact execPatBegin_ends s
  | progAdd n p => exact execProgAdd_ends s n p
  | roleSet p r => exact execRoleSet_ends s p r
  | pmtBegin p c => exact execPmtBegin_ends s p c
  | decOpen p => exact execDecOpen_ends s p
  | strmBind p q t d => exact execStrmBind_ends s p q t d
  | pmtEnd p => exact execPmtEnd_ends s p
  | ecmBegin d => exact execEcmBegin_ends s d
  | ecmDone d f r k => exact execEcmDone_ends s d f r k
  | emmOk => exact execEmmOk_ends s
  | dmxQuery p => exact execDmxQuery_ends s p

/-- However a command ends, it is with a next state. -/
theorem exec_next (i : Instr) : ∃ t, exec i s = .next t := by
  have h := exec_ends s i
  generalize exec i s = o at h
  cases h with
  | error e => exact ⟨_, rfl⟩
  | normal fields t => exact ⟨_, rfl⟩
  | ecmFailure d rc key => exact ⟨_, rfl⟩

/-- A step answers a next state whatever the decoder finds on the command port. -/
theorem step_next : ∃ t, step s = .next t := by
  cases h : decode s.cmd with
  | command i rest =>
    rw [step_of_command h]
    exact exec_next _ i
  | reserved b rest => exact ⟨_, step_of_reserved h⟩
  | incomplete => exact ⟨s, step_of_incomplete h⟩

end Sys2Proof.Machine
end

section
/-! The statement of R15, R190 and R191 that no command and no step stops the machine. -/

namespace Sys2Proof.Machine

/-- Settles O7, from the ends of every command and the three cases of the decoder. -/
theorem everyCommandAnswers : Obligations.EveryCommandAnswers :=
  ⟨fun i s => exec_next s i, step_next⟩

end Sys2Proof.Machine
end

section
/-! What each command does, once for all invariants: every outcome of a command is an effect on the registers, the tables
or payload memory, followed by a response. -/

namespace Sys2Proof.Machine

/-! ### The effects -/

/-- Every entry but that of `p` with the role `r` given back: the first half of ROLE_SET (R167). -/
def vacateOthers (p : Nat) (r : Role) (s : State) : State :=
  { s with map := Table.mapAll .reset (fun q e => if q ≠ p ∧ e.role = r then vacate e else e) s.map }

/-- The CAT or EMM role `r` moved to the PID `p`: ROLE_SET (R167). -/
def setRole (p : Nat) (r : Role) (s : State) : State :=
  (vacateOthers p r s).setMap p { s.mapAt p with role := r, ref := 1, link := .none }

/-- The lock of a valid decryptor taken off (R181). -/
def unlockSlot (x : DecSlot) : DecSlot := if x.valid then { x with locked := false } else x

/-- Every valid decryptor unlocked: EMM_OK (R181). -/
def unlockDecs (s : State) : State := { s with dec := Table.mapAll .reset (fun _ x => unlockSlot x) s.dec }

/-- The program slot that PROG_ADD fills (R166). -/
def newProg (num : Half) (pid : Pid) : ProgSlot :=
  { valid := true, num := num, pmtPid := pid, pcrPid := 0, phase := .notParsed, streams := [], old := [] }

/-- The decryptor slot that DEC_OPEN fills (R170). -/
def newDec (pid : Pid) : DecSlot := { DecSlot.reset with valid := true, ecmPid := pid }

/-- The program `i` after PMT_END, with its old list given back (R177). -/
def closePmt (i : Nat) (s : State) : State :=
  (releaseList (s.progAt i).old s).setProg i
    { s.progAt i with old := [], phase := settleBump (s.progAt i).phase }

/-- `Effect s i u`: command `i` can turn the state `s` into `u`, its response left out. Beside `nothing`, there is one
case for each way in which a command changes the state, with the checks that it has passed. -/
inductive Effect (s : State) : Instr → State → Prop
  | nothing (i : Instr) : Effect s i s
  | setSystemKey {c : Byte} (k : Bytes32) (ctx : c.toNat < s.par.nCtx) :
      Effect s (.setSystemKey c k) (s.setCtx c.toNat
        { s.ctx c.toNat with sk := words8Of k, st := setFlagSk (s.ctx c.toNat).st })
  | setInitVector {c : Byte} (v : Bytes8) (ctx : c.toNat < s.par.nCtx) :
      Effect s (.setInitVector c v) (s.setCtx c.toNat
        { s.ctx c.toNat with iv := blk v, st := setFlagIv (s.ctx c.toNat).st })
  | setDataKey {c : Byte} (k : Bytes16) (ctx : c.toNat < s.par.nCtx) :
      Effect s (.setDataKey c k) (s.setCtx c.toNat (loadDataKey (s.ctx c.toNat) k))
  | clearDataKey {c : Byte} (ctx : c.toNat < s.par.nCtx) :
      Effect s (.clearDataKey c) (s.setCtx c.toNat (clearDataKey (s.ctx c.toNat)))
  | setRound {c n : Byte} (ctx : c.toNat < s.par.nCtx) (round : n ≠ 0) :
      Effect s (.setRound c n) (s.setCtx c.toNat { s.ctx c.toNat with round := n })
  | encrypt {t : BitVec 2} {c : Byte} {a n : Half} {u : State}
      (run : chainCommand .encrypt t c.toNat a.toNat n.toNat s = .ok u) : Effect s (.encrypt t c a n) u
  | decrypt {t : BitVec 2} {c : Byte} {a n : Half} {u : State}
      (run : chainCommand .decrypt t c.toNat a.toNat n.toNat s = .ok u) : Effect s (.decrypt t c a n) u
  | dmxReset : Effect s .dmxReset ((clearTopology s).setPipe { s.pipe with phase := .unit, budget := 0, unit := 0 })
  | dmxConfig {flags n : Byte} (round : n ≠ 0) :
      Effect s (.dmxConfig flags n) (s.setPipe { s.pipe with cfg := ⟨flags.getLsbD 0, flags.getLsbD 1, n⟩ })
  | dmxUnit {size : Half} (size188 : 188 ≤ size.toNat) (phase : s.pipe.phase = .unit) :
      Effect s (.dmxUnit size) (s.setPipe { s.pipe with unit := size, phase := .pat, budget := 0 })
  | packetAdvances (addr : Half) : Effect s (.dmxPacket addr) (advance s)
  | packetCharged (addr : Half) {n : Nat} (amount : n = 1 ∨ n = s.pipe.unit.toNat) (budget : budgetError s = none) :
      Effect s (.dmxPacket addr) (charge n s)
  | packetClear (addr : Half) (p : Pid) : Effect s (.dmxPacket addr) (countNormal p.toNat s)
  | packetUndec (addr : Half) (p : Pid) : Effect s (.dmxPacket addr) (countUndec p.toNat s)
  | packetDescrambled {addr : Half} {t : BitVec 2} {d a n : Nat} {u : State} (p : Pid) (v : Byte)
      (bounds : addr.toNat + 188 ≤ s.par.pmemSize) (run : chainCommand .decrypt t d a n s = .ok u) :
      Effect s (.dmxPacket addr) (countNormal p.toNat (u.writeByte (addr.toNat + 3) v))
  | patAcquired (phase : acquiring s.pipe.phase = true) : Effect s .patBegin (enterPhase .pmt (clearTopology s))
  | patUpdated : Effect s .patBegin (clearTopology s)
  | progAdd {num pid : Half} {i : Nat} (unknown : (s.mapAt (pidOf pid).toNat).role = .unknown)
      (free : freeProg s = some i) :
      Effect s (.progAdd num pid) ((s.setProg i (newProg num (pidOf pid))).setMap (pidOf pid).toNat
        { s.mapAt (pidOf pid).toNat with role := .pmt, ref := 1, link := .prog i })
  | roleSet {pid : Half} {role : Byte}
      (unheld : (s.mapAt (pidOf pid).toNat).role = .unknown ∨ (s.mapAt (pidOf pid).toNat).role = roleOfByte role) :
      Effect s (.roleSet pid role) (setRole (pidOf pid).toNat (roleOfByte role) s)
  | pmtBegin {slot : Byte} (pcr : Half) (valid : progValid s slot.toNat = true)
      (closed : (s.progAt slot.toNat).old = []) :
      Effect s (.pmtBegin slot pcr) (s.setProg slot.toNat
        { s.progAt slot.toNat with old := (s.progAt slot.toNat).streams, streams := [], pcrPid := pidOf pcr })
  | decOpen {pid : Half} {d : Nat} (unknown : (s.mapAt (pidOf pid).toNat).role = .unknown)
      (free : freeDec s = some d) :
      Effect s (.decOpen pid)
        (((s.setDec d (newDec (pidOf pid))).setCtx d { Context.reset with round := s.pipe.cfg.round }).setMap
          (pidOf pid).toNat { s.mapAt (pidOf pid).toNat with role := .ecm, ref := 1, link := .dec d })
  | strmBind {slot d : Byte} {pid : Half} {t : Link} (type : Byte) (valid : progValid s slot.toNat = true)
      (selected : selectDec s d = some t) (notControl : controlRole (s.mapAt (pidOf pid).toNat).role = false)
      (room : (s.progAt slot.toNat).streams.length < s.par.nStrm) :
      Effect s (.strmBind slot pid type d) ((bindPid (pidOf pid).toNat t s).setProg slot.toNat
        { s.progAt slot.toNat with streams := (s.progAt slot.toNat).streams ++ [⟨pidOf pid, type⟩] })
  | pmtEnd {slot : Byte} (valid : progValid s slot.toNat = true) :
      Effect s (.pmtEnd slot) (advance (sweepDecs (List.range s.par.nCtx) (closePmt slot.toNat s)))
  | ecmBegin {d : Byte} (valid : decValid s d.toNat = true) :
      Effect s (.ecmBegin d) (advance (s.setDec d.toNat { s.decAt d.toNat with
        unpurchased := (s.decAt d.toNat).unpurchased + 1, phase := settleBump (s.decAt d.toNat).phase }))
  | ecmPurchased {d : Byte} (rc : Half) (key : Bytes16) (valid : decValid s d.toNat = true) :
      Effect s (.ecmDone d 0 rc key)
        (advance ((s.setCtx d.toNat (loadDataKey (s.ctx d.toNat) key)).setDec d.toNat
          { s.decAt d.toNat with locked := false, phase := settleBump (s.decAt d.toNat).phase }))
  | ecmUnpurchased {d : Byte} (rc : Half) (key : Bytes16) (valid : decValid s d.toNat = true) :
      Effect s (.ecmDone d 0 rc key)
        (advance ((s.setCtx d.toNat (Machine.clearDataKey (s.ctx d.toNat))).setDec d.toNat
          { s.decAt d.toNat with locked := true, unpurchased := (s.decAt d.toNat).unpurchased + 1, lastErr := rc,
                                 phase := settleBump (s.decAt d.toNat).phase }))
  | ecmFailure {d : Byte} (rc : Half) (key : Bytes16) (valid : decValid s d.toNat = true) :
      Effect s (.ecmDone d 1 rc key) (s.setCtx d.toNat (Machine.clearDataKey (s.ctx d.toNat)))
  | emmOk : Effect s .emmOk (unlockDecs s)

/-- The outcome `o` is an effect of command `i` in state `s` with a response after it. -/
def HasEffect (i : Instr) (s : State) (o : Host.Outcome State Fault Refusal) : Prop :=
  ∃ u bs, Effect s i u ∧ o = .next (u.send bs)

theorem Effect.respond {s u : State} {i : Instr} (h : Effect s i u) (port : Port) (fields : List Byte) :
    HasEffect i s (.next (Machine.respond port fields u)) := by
  cases port <;> exact ⟨u, _, h, rfl⟩

theorem hasEffect_raise (i : Instr) (s : State) (port : Port) (e : Status) : HasEffect i s (.next (raise port e s)) := by
  cases port <;> exact ⟨s, _, .nothing i, rfl⟩

theorem HasEffect.ite {i : Instr} {s : State} {c : Prop} [Decidable c] {x y : Host.Outcome State Fault Refusal}
    (hx : c → HasEffect i s x) (hy : ¬ c → HasEffect i s y) : HasEffect i s (if c then x else y) := by
  split
  · next h => exact hx h
  · next h => exact hy h

/-! ### What the operand checks say -/

theorem ctxOk_iff (p : Config.Params) (c : Nat) : ctxOk p c = true ↔ c < p.nCtx := by simp [ctxOk]

theorem roundOk_iff (n : Byte) : roundOk n = true ↔ n ≠ 0 := by simp [roundOk]

theorem failOk_iff (f : Byte) : failOk f = true ↔ f = 0 ∨ f = 1 := by simp [failOk]

theorem packetOk_iff (p : Config.Params) (a : Nat) : packetOk p a = true ↔ a + 188 ≤ p.pmemSize := by simp [packetOk]

/-- The range check of R87 and R72. -/
theorem rangeOk_iff (p : Config.Params) (a n : Nat) : rangeOk p a n = true ↔ 1 ≤ n ∧ a + n ≤ p.pmemSize := by
  simp [rangeOk]

/-! ### Every command -/

variable (s : State)

theorem execEncrypt_effect (t : BitVec 2) (c : Byte) (a n : Half) :
    HasEffect (.encrypt t c a n) s (execEncrypt t c a n s) := by
  unfold execEncrypt chainResponse
  split
  · exact hasEffect_raise ..
  · next hu => exact (Effect.encrypt hu).respond ..

theorem execDecrypt_effect (t : BitVec 2) (c : Byte) (a n : Half) :
    HasEffect (.decrypt t c a n) s (execDecrypt t c a n s) := by
  unfold execDecrypt chainResponse
  split
  · exact hasEffect_raise ..
  · next hu => exact (Effect.decrypt hu).respond ..

theorem classifyPacket_effect {addr : Half} (ha : addr.toNat + 188 ≤ s.par.pmemSize) (hb : budgetError s = none) :
    HasEffect (.dmxPacket addr) s (.next (classifyPacket addr.toNat (headerAt s addr.toNat) s)) := by
  rcases classifyPacket_cases addr.toNat s with
    ⟨-, he⟩ | ⟨-, -, he⟩ | ⟨-, -, e, -, he⟩ | ⟨-, -, r, u, hs, he⟩ <;> rw [he]
  · exact (Effect.packetCharged addr (.inl rfl) hb).respond ..
  · exact (Effect.packetCharged addr (.inr rfl) hb).respond ..
  · exact hasEffect_raise ..
  · rcases steadyPacket_cases addr.toNat (headerAt s addr.toNat) (spanAt s addr.toNat (headerAt s addr.toNat)) s with
      ⟨-, hc⟩ | ⟨-, -, hc⟩ | ⟨-, d, v, -, hv, hc⟩ | ⟨-, d, e, -, -, hc⟩
    all_goals cases hc.symm.trans hs
    · exact (Effect.packetClear addr _).respond ..
    · exact (Effect.packetUndec addr _).respond ..
    · exact (Effect.packetDescrambled _ _ ha hv).respond ..

theorem examinePacket_effect {addr : Half} (ha : addr.toNat + 188 ≤ s.par.pmemSize) :
    HasEffect (.dmxPacket addr) s (.next (examinePacket addr.toNat s)) := by
  rcases examinePacket_cases addr.toNat s with
    ⟨-, he⟩ | ⟨-, e, -, he⟩ | ⟨-, hb, -, he⟩ | ⟨-, -, -, -, he⟩ | ⟨-, hb, -, -, he⟩ <;> rw [he]
  · exact (Effect.nothing _).respond ..
  · exact hasEffect_raise ..
  · exact (Effect.packetCharged addr (.inr rfl) hb).respond ..
  · exact (Effect.nothing _).respond ..
  · exact classifyPacket_effect s ha hb

theorem execDmxPacket_effect (addr : Half) : HasEffect (.dmxPacket addr) s (execDmxPacket addr s) := by
  rcases execDmxPacket_cases addr s with ⟨-, he⟩ | ⟨-, -, he⟩ | ⟨-, -, -, he⟩ | ⟨ha, -, -, he⟩ <;> rw [he]
  · exact hasEffect_raise ..
  · exact hasEffect_raise ..
  · exact (Effect.packetAdvances addr).respond ..
  · exact examinePacket_effect s ((packetOk_iff ..).mp ha)

theorem execPatBegin_effect : HasEffect .patBegin s (execPatBegin s) := by
  refine .ite (fun _ => hasEffect_raise ..) fun _ => ?_
  dsimp only
  split
  · next ha => exact (Effect.patAcquired (s := s) ha).respond ..
  · exact Effect.patUpdated.respond ..

theorem execProgAdd_effect (num pid : Half) : HasEffect (.progAdd num pid) s (execProgAdd num pid s) := by
  refine .ite (fun _ => hasEffect_raise ..) fun _ => .ite (fun _ => hasEffect_raise ..) fun _ =>
    .ite (fun _ => hasEffect_raise ..) fun hr => ?_
  split
  · exact hasEffect_raise ..
  · next hi => exact (Effect.progAdd (not_not.mp hr) hi).respond ..

theorem execRoleSet_effect (pid : Half) (role : Byte) : HasEffect (.roleSet pid role) s (execRoleSet pid role s) :=
  .ite (fun _ => .ite (fun _ => hasEffect_raise ..) fun hr =>
    (Effect.roleSet (by tauto)).respond ..) fun _ => hasEffect_raise ..

theorem execPmtBegin_effect (p : Byte) (pcr : Half) : HasEffect (.pmtBegin p pcr) s (execPmtBegin p pcr s) :=
  .ite (fun hp => .ite (fun _ => hasEffect_raise ..) fun ho =>
    (Effect.pmtBegin pcr (Bool.and_eq_true_iff.mp hp).1 (not_not.mp ho)).respond ..) fun _ => hasEffect_raise ..

theorem execDecOpen_effect (pid : Half) : HasEffect (.decOpen pid) s (execDecOpen pid s) := by
  refine .ite (fun _ => ?_) fun _ => hasEffect_raise ..
  split
  · exact (Effect.nothing _).respond ..
  · refine .ite (fun _ => hasEffect_raise ..) fun hr => ?_
    split
    · exact hasEffect_raise ..
    · next hd => exact (Effect.decOpen (not_not.mp hr) hd).respond ..

theorem execStrmBind_effect (p : Byte) (pid : Half) (type d : Byte) :
    HasEffect (.strmBind p pid type d) s (execStrmBind p pid type d s) := by
  refine .ite (fun hp => ?_) fun _ => hasEffect_raise ..
  split
  · exact hasEffect_raise ..
  · next ht =>
    refine .ite (fun _ => (Effect.nothing _).respond ..) fun hc => .ite (fun _ => hasEffect_raise ..) fun hl => ?_
    exact (Effect.strmBind type (Bool.and_eq_true_iff.mp hp).1 ht (Bool.not_eq_true _ ▸ hc) (not_le.mp hl)).respond ..

theorem execPmtEnd_effect (p : Byte) : HasEffect (.pmtEnd p) s (execPmtEnd p s) :=
  .ite (fun hp => (Effect.pmtEnd hp).respond ..) fun _ => hasEffect_raise ..

theorem execEcmBegin_effect (d : Byte) : HasEffect (.ecmBegin d) s (execEcmBegin d s) :=
  .ite (fun hd => .ite (fun _ => (Effect.ecmBegin hd).respond ..) fun _ => (Effect.nothing _).respond ..)
    fun _ => hasEffect_raise ..

theorem execEcmDone_effect (d fail : Byte) (rc : Half) (key : Bytes16) :
    HasEffect (.ecmDone d fail rc key) s (execEcmDone d fail rc key s) := by
  refine .ite (fun hv => ?_) fun _ => hasEffect_raise ..
  obtain ⟨hd, hf⟩ := Bool.and_eq_true_iff.mp hv
  rcases (failOk_iff fail).mp hf with rfl | rfl
  · exact .ite (fun h => absurd h (by decide)) fun _ =>
      .ite (fun _ => (Effect.ecmPurchased rc key hd).respond ..) fun _ => (Effect.ecmUnpurchased rc key hd).respond ..
  · exact .ite (fun _ => ⟨_, _, .ecmFailure rc key hd, rfl⟩) fun h => absurd rfl h

/-- Every command has one of its effects, and then answers. -/
theorem exec_effect (i : Instr) : HasEffect i s (exec i s) := by
  cases i with
  | setSystemKey c k =>
    exact .ite (fun h => (Effect.setSystemKey k ((ctxOk_iff ..).mp h)).respond ..) fun _ => hasEffect_raise ..
  | setInitVector c v =>
    exact .ite (fun h => (Effect.setInitVector v ((ctxOk_iff ..).mp h)).respond ..) fun _ => hasEffect_raise ..
  | setDataKey c k =>
    exact .ite (fun h => (Effect.setDataKey k ((ctxOk_iff ..).mp h)).respond ..) fun _ => hasEffect_raise ..
  | clearDataKey c =>
    exact .ite (fun h => (Effect.clearDataKey ((ctxOk_iff ..).mp h)).respond ..) fun _ => hasEffect_raise ..
  | setRound c n =>
    refine .ite (fun h => ?_) fun _ => hasEffect_raise ..
    obtain ⟨hc, hn⟩ := Bool.and_eq_true_iff.mp h
    exact (Effect.setRound ((ctxOk_iff ..).mp hc) ((roundOk_iff n).mp hn)).respond ..
  | encrypt t c a n => exact execEncrypt_effect s t c a n
  | decrypt t c a n => exact execDecrypt_effect s t c a n
  | dmxReset => exact Effect.dmxReset.respond ..
  | dmxConfig f n =>
    exact .ite (fun h => (Effect.dmxConfig ((roundOk_iff n).mp (Bool.and_eq_true_iff.mp h).2)).respond ..)
      fun _ => hasEffect_raise ..
  | dmxUnit z =>
    exact .ite (fun hz => .ite (fun hp => (Effect.dmxUnit (of_decide_eq_true hz) hp).respond ..)
      fun _ => hasEffect_raise ..) fun _ => hasEffect_raise ..
  | dmxPacket a => exact execDmxPacket_effect s a
  | patBegin => exact execPatBegin_effect s
  | progAdd n p => exact execProgAdd_effect s n p
  | roleSet p r => exact execRoleSet_effect s p r
  | pmtBegin p c => exact execPmtBegin_effect s p c
  | decOpen p => exact execDecOpen_effect s p
  | strmBind p q t d => exact execStrmBind_effect s p q t d
  | pmtEnd p => exact execPmtEnd_effect s p
  | ecmBegin d => exact execEcmBegin_effect s d
  | ecmDone d f r k => exact execEcmDone_effect s d f r k
  | emmOk => exact .ite (fun _ => Effect.emmOk.respond ..) fun _ => hasEffect_raise ..
  | dmxQuery p =>
    exact .ite (fun _ => (Effect.nothing _).respond ..) fun _ =>
      .ite (fun _ => (Effect.nothing _).respond ..) fun _ => hasEffect_raise ..

variable {s}

/-- The state after a command is an effect of it with a response sent. -/
theorem effect_of_exec {i : Instr} {t : State} (h : exec i s = .next t) : ∃ u bs, Effect s i u ∧ t = u.send bs := by
  obtain ⟨u, bs, hu, ho⟩ := exec_effect s i
  cases ho.symm.trans h
  exact ⟨u, bs, hu, rfl⟩

/-- A property that neither port takes part in and that every effect of a command keeps is kept by every step. -/
theorem step_keeps {P : State → Prop} (hcmd : ∀ s bs, P s → P { s with cmd := bs })
    (hsend : ∀ s bs, P s → P (s.send bs)) (heffect : ∀ s i u, P s → Effect s i u → P u) {s t : State}
    (hs : P s) (h : step s = .next t) : P t := by
  cases hd : decode s.cmd with
  | command i rest =>
    obtain ⟨u, bs, hu, rfl⟩ := effect_of_exec ((step_of_command hd).symm.trans h)
    exact hsend _ _ (heffect _ _ _ (hcmd _ _ hs) hu)
  | reserved b rest =>
    cases (step_of_reserved hd).symm.trans h
    exact hsend _ _ (hcmd _ _ hs)
  | incomplete =>
    cases (step_of_incomplete hd).symm.trans h
    exact hs

end Sys2Proof.Machine
end

section
/-! The canonical form of the stored data (assumption 17): each named update keeps it, and so does every step. -/

namespace Sys2Proof.Safety

open Sys2Proof.Machine

variable {s : State}

/-! ### The PID role table after reset -/

theorem mapReset_rising : Table.Rising mapReset := by decide

theorem mapReset_below : Table.Below 8192 mapReset := by decide

theorem mapReset_noDefault : Table.NoDefault MapEntry.reset mapReset := by decide

/-! ### The named updates -/

theorem Canonical.takeCommand (h : Canonical s) (bs : List Byte) : Canonical { s with cmd := bs } := { h with }

theorem Canonical.send (h : Canonical s) (bs : List Byte) : Canonical (s.send bs) := { h with }

theorem Canonical.setPipe (h : Canonical s) (x : Pipe) : Canonical (s.setPipe x) := { h with }

theorem Canonical.setCtx (h : Canonical s) {c : Nat} (hc : c < s.par.nCtx) (x : Context) : Canonical (s.setCtx c x) :=
  { h with
    ceRising := Table.rising_set _ _ _ h.ceRising
    ceBelow := Table.below_set _ _ hc h.ceBelow
    ceNoDefault := Table.noDefault_set _ _ _ h.ceNoDefault }

theorem Canonical.setMap (h : Canonical s) {p : Nat} (hp : p < 8192) (e : MapEntry) : Canonical (s.setMap p e) :=
  { h with
    mapRising := Table.rising_set _ _ _ h.mapRising
    mapBelow := Table.below_set _ _ hp h.mapBelow
    mapNoDefault := Table.noDefault_set _ _ _ h.mapNoDefault }

theorem Canonical.setProg (h : Canonical s) {i : Nat} (hi : i < s.par.nProg) (x : ProgSlot) : Canonical (s.setProg i x) :=
  { h with
    progRising := Table.rising_set _ _ _ h.progRising
    progBelow := Table.below_set _ _ hi h.progBelow
    progNoDefault := Table.noDefault_set _ _ _ h.progNoDefault }

theorem Canonical.setDec (h : Canonical s) {d : Nat} (hd : d < s.par.nCtx) (x : DecSlot) : Canonical (s.setDec d x) :=
  { h with
    decRising := Table.rising_set _ _ _ h.decRising
    decBelow := Table.below_set _ _ hd h.decBelow
    decNoDefault := Table.noDefault_set _ _ _ h.decNoDefault }

/-- Another payload memory in canonical form. -/
theorem Canonical.withMemory (h : Canonical s) {m : Memory} (hr : Memory.wf m) (hb : Table.Below s.par.pmemSize m) :
    Canonical { s with pmem := m } :=
  { h with pmemRising := hr, pmemBelow := hb }

theorem Canonical.writeByte (h : Canonical s) {a : Nat} (ha : a < s.par.pmemSize) (v : Byte) :
    Canonical (s.writeByte a v) :=
  h.withMemory (s.writeByte_wf a v h.pmemRising) (s.writeByte_below v ha h.pmemBelow)

/-! ### The shared operations of unit DX -/

/-- A slot out of range holds the reset value. -/
theorem Canonical.decAt_of_le (h : Canonical s) {d : Nat} (hd : s.par.nCtx ≤ d) : s.decAt d = .reset := by
  unfold State.decAt Table.get
  cases hf : Table.find s.dec d with
  | none => rfl
  | some x => exact absurd (h.decBelow _ (Table.find_mem hf)) (not_lt.mpr hd)

/-- Writing the reset value lists nothing, whatever the slot. -/
theorem Canonical.setDec_reset (h : Canonical s) (d : Nat) : Canonical (s.setDec d .reset) := by
  have he : s.setDec d .reset = { s with dec := Table.erase s.dec d } := by simp [State.setDec, Table.set]
  rw [he]
  exact { h with
    decRising := Table.rising_erase d h.decRising
    decBelow := fun e he => h.decBelow e (Table.mem_erase.mp he).1
    decNoDefault := fun e he => h.decNoDefault e (Table.mem_erase.mp he).1 }

theorem Canonical.incDecRef (h : Canonical s) {l : Link} (hl : ∀ d, l = .dec d → d < s.par.nCtx) :
    Canonical (incDecRef l s) := by
  cases l with
  | none => exact h
  | prog i => exact h
  | dec d => exact h.setDec (hl d rfl) _

/-- A link to a slot out of range is no obstacle: one reference fewer than none is none. -/
theorem Canonical.decDecRef (h : Canonical s) (l : Link) : Canonical (decDecRef l s) := by
  cases l with
  | none => exact h
  | prog i => exact h
  | dec d =>
    rcases Nat.lt_or_ge d s.par.nCtx with hd | hd
    · exact h.setDec hd _
    · have he : { s.decAt d with ref := (s.decAt d).ref - 1 } = DecSlot.reset := by rw [h.decAt_of_le hd]; rfl
      show Canonical (s.setDec d { s.decAt d with ref := (s.decAt d).ref - 1 })
      rw [he]
      exact h.setDec_reset d

theorem Canonical.bindPid (h : Canonical s) {p : Nat} (hp : p < 8192) {t : Link}
    (ht : ∀ d, t = .dec d → d < s.par.nCtx) : Canonical (bindPid p t s) := by
  unfold Machine.bindPid
  dsimp only
  split
  · exact (h.setMap hp _).incDecRef ht
  · split
    · exact h.setMap hp _
    · exact ((h.setMap hp _).decDecRef _).incDecRef (by rw [decDecRef_only]; exact ht)
  all_goals exact h

theorem Canonical.releasePid (h : Canonical s) {p : Nat} (hp : p < 8192) : Canonical (releasePid p s) := by
  unfold Machine.releasePid
  dsimp only
  split
  · split
    · exact (h.setMap hp _).decDecRef _
    · exact h.setMap hp _
  · exact h

theorem Canonical.releaseList (h : Canonical s) (es : List StreamElem) : Canonical (releaseList es s) := by
  induction es generalizing s with
  | nil => exact h
  | cons e es ih => exact ih (h.releasePid e.pid.isLt)

theorem Canonical.destroyDec (h : Canonical s) {d : Nat} (hd : d < s.par.nCtx) : Canonical (destroyDec d s) :=
  ((h.setMap (s.decAt d).ecmPid.isLt _).setDec_reset d).setCtx hd _

theorem Canonical.sweepDecs (h : Canonical s) {ds : List Nat} (hds : ∀ d ∈ ds, d < s.par.nCtx) :
    Canonical (sweepDecs ds s) := by
  induction ds generalizing s with
  | nil => exact h
  | cons d ds ih =>
    obtain ⟨hd, hds⟩ := List.forall_mem_cons.mp hds
    unfold Machine.sweepDecs
    split
    · exact ih (h.destroyDec hd) hds
    · exact ih h hds

theorem Canonical.closePmt (h : Canonical s) {i : Nat} (hi : i < s.par.nProg) : Canonical (closePmt i s) :=
  (h.releaseList _).setProg (by rw [releaseList_only]; exact hi) _

theorem Canonical.advance (h : Canonical s) : Canonical (advance s) := by
  rw [advance_only]
  exact h.setPipe _

theorem Canonical.charge (h : Canonical s) (n : Nat) : Canonical (charge n s) := by
  unfold Machine.charge
  split
  · exact h.setPipe _
  · exact h

theorem Canonical.clearTopology (h : Canonical s) : Canonical (clearTopology s) :=
  { pmemRising := h.pmemRising
    pmemBelow := h.pmemBelow
    ceRising := Table.rising_filter _ h.ceRising
    ceBelow := fun e he => h.ceBelow e (List.mem_of_mem_filter he)
    ceNoDefault := fun e he => h.ceNoDefault e (List.mem_of_mem_filter he)
    mapRising := mapReset_rising
    mapBelow := mapReset_below
    mapNoDefault := mapReset_noDefault
    progRising := .nil
    progBelow := by simp [Machine.clearTopology]
    progNoDefault := by simp [Machine.clearTopology]
    decRising := .nil
    decBelow := by simp [Machine.clearTopology]
    decNoDefault := by simp [Machine.clearTopology] }

theorem Canonical.mapAllMap (h : Canonical s) (f : Nat → MapEntry → MapEntry) :
    Canonical { s with map := Table.mapAll .reset f s.map } :=
  { h with
    mapRising := Table.rising_mapAll _ f h.mapRising
    mapBelow := Table.below_mapAll _ f h.mapBelow
    mapNoDefault := Table.noDefault_mapAll _ f s.map }

theorem Canonical.mapAllDec (h : Canonical s) (f : Nat → DecSlot → DecSlot) :
    Canonical { s with dec := Table.mapAll .reset f s.dec } :=
  { h with
    decRising := Table.rising_mapAll _ f h.decRising
    decBelow := Table.below_mapAll _ f h.decBelow
    decNoDefault := Table.noDefault_mapAll _ f s.dec }

theorem Canonical.vacateOthers (h : Canonical s) (p : Nat) (r : Role) : Canonical (vacateOthers p r s) := h.mapAllMap _

theorem Canonical.unlockDecs (h : Canonical s) : Canonical (unlockDecs s) := h.mapAllDec _

end Sys2Proof.Safety

/-! ### The transform stays in its range -/

namespace Sys2Proof.Machine

theorem chainBlock_below (dir : Direction) (w : Words8) (r : Nat) {a n : Nat} (cbc : Block) (s : State)
    (ha : a + 8 ≤ n) (h : Table.Below n s.pmem) : Table.Below n (chainBlock dir w r a cbc s).2.pmem := by
  cases dir <;> exact s.writeBytes_below _ ha h

theorem chainBlocks_below (dir : Direction) (w : Words8) (r q : Nat) {a n : Nat} (cbc : Block) (s : State)
    (ha : a + 8 * q ≤ n) (h : Table.Below n s.pmem) : Table.Below n (chainBlocks dir w r q a cbc s).2.pmem := by
  induction q generalizing a cbc s with
  | zero => exact h
  | succ q ih => exact ih _ _ (by omega) (chainBlock_below dir w r cbc s (by omega) h)

theorem chainTail_below (ks : List Byte) {a n : Nat} (s : State) (ha : a + ks.length ≤ n) (h : Table.Below n s.pmem) :
    Table.Below n (chainTail ks a s).pmem := by
  induction ks generalizing a s with
  | nil => exact h
  | cons k ks ih =>
    simp only [List.length_cons] at ha
    exact ih _ (by omega) (s.writeByte_below _ (by omega) h)

/-- The transform writes no address at or above the end of its range (R61). -/
theorem chainRun_below (dir : Direction) (w : Words8) (r : Nat) (iv : Block) {a len n : Nat} (s : State)
    (ha : a + len ≤ n) (h : Table.Below n s.pmem) : Table.Below n (chainRun dir w r iv a len s).pmem := by
  have hblocks : Table.Below n (chainBlocks dir w r (len / 8) a iv s).2.pmem :=
    chainBlocks_below dir w r _ iv s (by omega) h
  unfold chainRun
  dsimp only
  split
  · exact hblocks
  · exact chainTail_below _ _ (by simp only [List.length_take, bytes8List_length]; omega) hblocks

/-- A transform that runs had a legal context and range (R86, R87), and changes payload memory alone. -/
theorem chainCommand_ok {dir : Direction} {t : BitVec 2} {c a n : Nat} {s u : State}
    (h : chainCommand dir t c a n s = .ok u) :
    c < s.par.nCtx ∧ 1 ≤ n ∧ a + n ≤ s.par.pmemSize ∧
      u = chainRun dir (selectWorkKey t (s.ctx c)) (s.ctx c).round.toNat (s.ctx c).iv a n s := by
  rcases chainCommand_cases dir t c a n s with ⟨e, -, he⟩ | ⟨hcheck, hu⟩
  · cases he.symm.trans h
  · cases hu.symm.trans h
    obtain ⟨hf, -⟩ := (chainCheck_none_iff ..).mp hcheck
    simp only [Bool.and_eq_true, ctxOk_iff, rangeOk_iff] at hf
    obtain ⟨⟨hc, hn, hr⟩, -⟩ := hf
    exact ⟨hc, hn, hr, rfl⟩

theorem chainCommand_only {dir : Direction} {t : BitVec 2} {c a n : Nat} {s u : State}
    (h : chainCommand dir t c a n s = .ok u) : u = { s with pmem := u.pmem } := by
  obtain ⟨-, -, -, rfl⟩ := chainCommand_ok h
  exact chainRun_only ..

end Sys2Proof.Machine

/-! ### Every step -/

namespace Sys2Proof.Safety

open Sys2Proof.Machine

variable {s : State}

theorem Canonical.chainCommand {dir : Direction} {t : BitVec 2} {c a n : Nat} {u : State} (h : Canonical s)
    (hu : chainCommand dir t c a n s = .ok u) : Canonical u := by
  obtain ⟨-, -, hr, rfl⟩ := chainCommand_ok hu
  rw [chainRun_only]
  exact h.withMemory (chainRun_wf _ _ _ _ _ _ _ h.pmemRising) (chainRun_below _ _ _ _ _ hr h.pmemBelow)

/-- A decryptor that STRM_BIND selects is in range (R173). -/
theorem lt_nCtx_of_selectDec {d : Byte} {t : Link} (h : selectDec s d = some t) (x : Nat) (ht : t = .dec x) :
    x < s.par.nCtx := by
  rcases selectDec_some h with ⟨y, rfl, hy⟩ | rfl
  · cases ht
    exact ((decValid_iff s x).mp hy).1
  · cases ht

/-- Every effect of a command keeps the canonical form. -/
theorem Canonical.effect {i : Instr} {u : State} (h : Canonical s) (hu : Effect s i u) : Canonical u := by
  cases hu with
  | nothing => exact h
  | setSystemKey _ hc => exact h.setCtx hc _
  | setInitVector _ hc => exact h.setCtx hc _
  | setDataKey _ hc => exact h.setCtx hc _
  | clearDataKey hc => exact h.setCtx hc _
  | setRound hc => exact h.setCtx hc _
  | encrypt hr => exact h.chainCommand hr
  | decrypt hr => exact h.chainCommand hr
  | dmxReset => exact h.clearTopology.setPipe _
  | dmxConfig => exact h.setPipe _
  | dmxUnit => exact h.setPipe _
  | packetAdvances => exact h.advance
  | packetCharged => exact h.charge _
  | packetClear _ p => exact h.setMap p.isLt _
  | packetUndec _ p => exact h.setMap p.isLt _
  | packetDescrambled p v hb hr =>
    refine ((h.chainCommand hr).writeByte ?_ v).setMap p.isLt _
    rw [chainCommand_only hr]
    dsimp only
    omega
  | patAcquired => exact h.clearTopology.setPipe _
  | patUpdated => exact h.clearTopology
  | progAdd _ hf => exact (h.setProg (freeProg_some hf).1 _).setMap (BitVec.isLt _) _
  | roleSet => exact (h.vacateOthers _ _).setMap (BitVec.isLt _) _
  | pmtBegin _ hv => exact h.setProg ((progValid_iff ..).mp hv).1 _
  | decOpen _ hf => exact ((h.setDec (freeDec_some hf).1 _).setCtx (freeDec_some hf).1 _).setMap (BitVec.isLt _) _
  | strmBind _ hv ht =>
    refine (h.bindPid (BitVec.isLt _) (lt_nCtx_of_selectDec ht)).setProg ?_ _
    rw [bindPid_only]
    exact ((progValid_iff ..).mp hv).1
  | pmtEnd hv =>
    refine ((h.closePmt ((progValid_iff ..).mp hv).1).sweepDecs fun d hd => ?_).advance
    rw [Machine.closePmt, releaseList_only]
    exact List.mem_range.mp hd
  | ecmBegin hv => exact (h.setDec ((decValid_iff ..).mp hv).1 _).advance
  | ecmPurchased _ _ hv =>
    exact ((h.setCtx ((decValid_iff ..).mp hv).1 _).setDec ((decValid_iff ..).mp hv).1 _).advance
  | ecmUnpurchased _ _ hv =>
    exact ((h.setCtx ((decValid_iff ..).mp hv).1 _).setDec ((decValid_iff ..).mp hv).1 _).advance
  | ecmFailure _ _ hv => exact h.setCtx ((decValid_iff ..).mp hv).1 _
  | emmOk => exact h.unlockDecs

/-- Settles O56: neither port is part of the canonical form, and every effect of a command keeps it. -/
theorem canonicalFormKept : Obligations.CanonicalFormKept := fun _ _ =>
  step_keeps (fun _ bs h => h.takeCommand bs) (fun _ bs h => h.send bs) fun _ _ _ h hu => h.effect hu

end Sys2Proof.Safety
end

section
/-! The registers: each effect of a command keeps the round counts legal, the registers whose flag is 0 at their reset
value, and the unit size and the budget as the phase says (spec/10_state.md R31, R34, R35, R48). -/

namespace Sys2Proof.Machine

/-! ### Which context a command changes -/

variable (s : State)

@[simp] theorem bindPid_ce (p : Nat) (t : Link) : (bindPid p t s).ce = s.ce := by rw [bindPid_only]

@[simp] theorem closePmt_ce (i : Nat) : (closePmt i s).ce = s.ce := by
  rw [closePmt, State.setProg_ce, releaseList_only]

@[simp] theorem advance_ce : (advance s).ce = s.ce := by rw [advance_only]

theorem State.ctx_congr {s t : State} (h : t.ce = s.ce) (c : Nat) : t.ctx c = s.ctx c := by
  unfold State.ctx
  rw [h]

@[simp] theorem advance_ctx (c : Nat) : (advance s).ctx c = s.ctx c := State.ctx_congr (advance_ce s) c

@[simp] theorem closePmt_ctx (i c : Nat) : (closePmt i s).ctx c = s.ctx c := State.ctx_congr (closePmt_ce s i) c

@[simp] theorem bindPid_ctx (p : Nat) (t : Link) (c : Nat) : (bindPid p t s).ctx c = s.ctx c :=
  State.ctx_congr (bindPid_ce s p t) c

@[simp] theorem charge_ctx (n c : Nat) : (charge n s).ctx c = s.ctx c := by
  unfold charge
  split <;> rfl

theorem chainCommand_ctx {dir : Direction} {t : BitVec 2} {d a n : Nat} {s u : State}
    (h : chainCommand dir t d a n s = .ok u) (c : Nat) : u.ctx c = s.ctx c :=
  State.ctx_congr (by rw [chainCommand_only h]) c

/-- A sweep leaves each context as it was, or re-initialises it (R174). -/
theorem sweepDecs_ctx (ds : List Nat) (c : Nat) :
    (sweepDecs ds s).ctx c = s.ctx c ∨ (sweepDecs ds s).ctx c = Context.reset := by
  induction ds generalizing s with
  | nil => exact .inl rfl
  | cons d ds ih =>
    unfold sweepDecs
    split
    · rcases ih (destroyDec d s) with h | h
      · rw [h, destroyDec, State.ctx_setCtx]
        split
        · exact .inr rfl
        · exact .inl rfl
      · exact .inr h
    · exact ih s

/-- The ways in which an effect of a command changes the context `c`: the setters and ECM_DONE change the registers they
name, in the context they name; DEC_OPEN and the commands that end decryptors bring it to its reset state. -/
inductive ContextEffect (s : State) (c : Nat) : Instr → Context → Prop
  | same (i : Instr) : ContextEffect s c i (s.ctx c)
  | setSystemKey {x : Byte} (k : Bytes32) (here : x.toNat = c) :
      ContextEffect s c (.setSystemKey x k) { s.ctx c with sk := words8Of k, st := setFlagSk (s.ctx c).st }
  | setInitVector {x : Byte} (v : Bytes8) (here : x.toNat = c) :
      ContextEffect s c (.setInitVector x v) { s.ctx c with iv := blk v, st := setFlagIv (s.ctx c).st }
  | setDataKey {x : Byte} (k : Bytes16) (here : x.toNat = c) :
      ContextEffect s c (.setDataKey x k) (loadDataKey (s.ctx c) k)
  | clearDataKey {x : Byte} (here : x.toNat = c) : ContextEffect s c (.clearDataKey x) (clearDataKey (s.ctx c))
  | setRound {x n : Byte} (here : x.toNat = c) (round : n ≠ 0) :
      ContextEffect s c (.setRound x n) { s.ctx c with round := n }
  | ecmLoaded {x f : Byte} {rc : Half} (key : Bytes16) (here : x.toNat = c) :
      ContextEffect s c (.ecmDone x f rc key) (loadDataKey (s.ctx c) key)
  | ecmCleared {x f : Byte} {rc : Half} {key : Bytes16} (here : x.toNat = c) :
      ContextEffect s c (.ecmDone x f rc key) (Machine.clearDataKey (s.ctx c))
  | opened (pid : Half) : ContextEffect s c (.decOpen pid) { Context.reset with round := s.pipe.cfg.round }
  | ended {i : Instr} (cause : i = .dmxReset ∨ i = .patBegin ∨ ∃ p, i = .pmtEnd p) :
      ContextEffect s c i Context.reset

variable {s}

/-- A context that nothing has changed. -/
theorem ContextEffect.of_eq {i : Instr} {c : Nat} {x : Context} (h : x = s.ctx c) : ContextEffect s c i x :=
  h ▸ .same i

/-- A write of one context changes that context alone. -/
theorem ContextEffect.setCtx {i : Instr} {k : Nat} {x : Context} (h : ContextEffect s k i x) (c : Nat) :
    ContextEffect s c i ((s.setCtx k x).ctx c) := by
  rw [State.ctx_setCtx]
  split
  · next hk => exact hk ▸ h
  · exact .same i

/-- Wiping the tables leaves each context as it was, or re-initialises it (R159, R165). -/
theorem ContextEffect.clearTopology {i : Instr} (hi : i = .dmxReset ∨ i = .patBegin ∨ ∃ p, i = .pmtEnd p) (c : Nat) :
    ContextEffect s c i ((clearTopology s).ctx c) := by
  rw [clearTopology_ctx]
  split
  · exact .ended hi
  · exact .same i

/-- What an effect of a command makes of each context. -/
theorem Effect.ctx {i : Instr} {u : State} (h : Effect s i u) (c : Nat) : ContextEffect s c i (u.ctx c) := by
  cases h with
  | nothing => exact .same i
  | setSystemKey k => exact (ContextEffect.setSystemKey k rfl).setCtx c
  | setInitVector v => exact (ContextEffect.setInitVector v rfl).setCtx c
  | setDataKey k => exact (ContextEffect.setDataKey k rfl).setCtx c
  | clearDataKey => exact (ContextEffect.clearDataKey rfl).setCtx c
  | setRound _ hn => exact (ContextEffect.setRound rfl hn).setCtx c
  | encrypt hr => exact .of_eq (chainCommand_ctx hr c)
  | decrypt hr => exact .of_eq (chainCommand_ctx hr c)
  | dmxReset => exact ContextEffect.clearTopology (by simp) c
  | dmxConfig => exact .same _
  | dmxUnit => exact .same _
  | packetAdvances => exact .of_eq (advance_ctx s c)
  | packetCharged => exact .of_eq (charge_ctx s _ c)
  | packetClear => exact .same _
  | packetUndec => exact .same _
  | packetDescrambled p v _ hr => exact .of_eq (chainCommand_ctx hr c)
  | patAcquired => exact ContextEffect.clearTopology (by simp) c
  | patUpdated => exact ContextEffect.clearTopology (by simp) c
  | progAdd => exact .same _
  | roleSet => exact .same _
  | pmtBegin => exact .same _
  | decOpen => exact (ContextEffect.opened _).setCtx c
  | strmBind => exact .of_eq (bindPid_ctx s _ _ c)
  | pmtEnd =>
    rw [advance_ctx]
    rcases sweepDecs_ctx (closePmt _ s) (List.range s.par.nCtx) c with hc | hc <;> rw [hc]
    · exact .of_eq (closePmt_ctx s _ c)
    · exact .ended (by simp)
  | ecmBegin => exact .of_eq (advance_ctx _ c)
  | ecmPurchased _ key =>
    rw [advance_ctx]
    exact (ContextEffect.ecmLoaded key rfl).setCtx c
  | ecmUnpurchased =>
    rw [advance_ctx]
    exact (ContextEffect.ecmCleared rfl).setCtx c
  | ecmFailure => exact (ContextEffect.ecmCleared rfl).setCtx c
  | emmOk => exact .same _

/-! ### What an effect does to the pipeline registers -/

@[simp] theorem sweepDecs_pipe (ds : List Nat) (s : State) : (sweepDecs ds s).pipe = s.pipe := by rw [sweepDecs_only]

@[simp] theorem bindPid_pipe (p : Nat) (t : Link) (s : State) : (bindPid p t s).pipe = s.pipe := by rw [bindPid_only]

@[simp] theorem closePmt_pipe (i : Nat) (s : State) : (closePmt i s).pipe = s.pipe := by
  rw [closePmt, State.setProg_pipe, releaseList_only]

@[simp] theorem enterPhase_pipe (ph : Phase) (s : State) :
    (enterPhase ph s).pipe = { s.pipe with phase := ph, budget := 0 } := rfl

@[simp] theorem charge_par (n : Nat) (s : State) : (charge n s).par = s.par := by
  unfold charge
  split <;> rfl

@[simp] theorem advance_par (s : State) : (advance s).par = s.par := by rw [advance_only]

@[simp] theorem sweepDecs_par (ds : List Nat) (s : State) : (sweepDecs ds s).par = s.par := by rw [sweepDecs_only]

@[simp] theorem bindPid_par (p : Nat) (t : Link) (s : State) : (bindPid p t s).par = s.par := by rw [bindPid_only]

@[simp] theorem closePmt_par (i : Nat) (s : State) : (closePmt i s).par = s.par := by
  rw [closePmt, State.setProg_par, releaseList_only]

theorem chainCommand_par {dir : Direction} {t : BitVec 2} {d a n : Nat} {s u : State}
    (h : chainCommand dir t d a n s = .ok u) : u.par = s.par := by rw [chainCommand_only h]

theorem chainCommand_pipe {dir : Direction} {t : BitVec 2} {d a n : Nat} {s u : State}
    (h : chainCommand dir t d a n s = .ok u) : u.pipe = s.pipe := by rw [chainCommand_only h]

/-- No effect changes the parameters. -/
theorem Effect.par {i : Instr} {u : State} (h : Effect s i u) : u.par = s.par := by
  cases h with
  | encrypt hr => exact chainCommand_par hr
  | decrypt hr => exact chainCommand_par hr
  | packetDescrambled _ _ _ hr => exact (chainCommand_par hr :)
  | packetAdvances => exact advance_par s
  | packetCharged => exact charge_par _ s
  | strmBind => exact bindPid_par _ _ s
  | pmtEnd => simp
  | ecmBegin => exact advance_par _
  | ecmPurchased => exact advance_par _
  | ecmUnpurchased => exact advance_par _
  | _ => rfl

/-- The commands that call `advance()` (R183). -/
def advances (i : Instr) : Prop :=
  (∃ p, i = .pmtEnd p) ∨ (∃ d, i = .ecmBegin d) ∨ (∃ d rc key, i = .ecmDone d 0 rc key) ∨ ∃ a, i = .dmxPacket a

/-- The ways in which an effect of a command changes the pipeline registers; `u` is the state after the effect. -/
inductive PipeEffect (s u : State) : Instr → Pipe → Prop
  | same (i : Instr) : PipeEffect s u i s.pipe
  | reset : PipeEffect s u .dmxReset { s.pipe with phase := .unit, budget := 0, unit := 0 }
  | configured {flags n : Byte} (cfg : PipeConfig) (round : cfg.round ≠ 0) :
      PipeEffect s u (.dmxConfig flags n) { s.pipe with cfg := cfg }
  | unitSet {size : Half} (size188 : 188 ≤ size.toNat) (phase : s.pipe.phase = .unit) :
      PipeEffect s u (.dmxUnit size) { s.pipe with unit := size, phase := .pat, budget := 0 }
  | charged (addr : Half) {n : Nat} (amount : n = 1 ∨ n = s.pipe.unit.toNat) (budget : budgetError s = none)
      (phase : acquiring s.pipe.phase = true) :
      PipeEffect s u (.dmxPacket addr) { s.pipe with budget := s.pipe.budget + n }
  | patAcquired (phase : acquiring s.pipe.phase = true) :
      PipeEffect s u .patBegin { s.pipe with phase := .pmt, budget := 0 }
  | toEcm {i : Instr} (cause : advances i) (phase : s.pipe.phase = .pmt) (progs : progsParsed u = true)
      (decs : decsParsed u = false) : PipeEffect s u i { s.pipe with phase := .ecm, budget := 0 }
  | pmtToSteady {i : Instr} (cause : advances i) (phase : s.pipe.phase = .pmt) (progs : progsParsed u = true)
      (decs : decsParsed u = true) : PipeEffect s u i { s.pipe with phase := .steady, budget := 0 }
  | ecmToSteady {i : Instr} (cause : advances i) (phase : s.pipe.phase = .ecm) (decs : decsParsed u = true) :
      PipeEffect s u i { s.pipe with phase := .steady, budget := 0 }

theorem PipeEffect.of_eq {i : Instr} {u : State} {x : Pipe} (h : x = s.pipe) : PipeEffect s u i x := h ▸ .same i

/-- `advance()` reads the tables, which it leaves as they are. -/
theorem PipeEffect.advance {i : Instr} (hi : advances i) {v : State} (hv : v.pipe = s.pipe) :
    PipeEffect s (advance v) i (advance v).pipe := by
  rcases advance_cases v with ⟨he, -, -⟩ | ⟨he, hp, hg, hd⟩ | ⟨he, hp, hg, hd⟩ | ⟨he, hp, hd⟩ <;> rw [he]
  · exact .of_eq hv
  · rw [enterPhase_pipe, hv]
    exact .toEcm hi (hv ▸ hp) hg hd
  · rw [enterPhase_pipe, hv]
    exact .pmtToSteady hi (hv ▸ hp) hg hd
  · rw [enterPhase_pipe, hv]
    exact .ecmToSteady hi (hv ▸ hp) hd

/-- What an effect of a command makes of the pipeline registers. -/
theorem Effect.pipe {i : Instr} {u : State} (h : Effect s i u) : PipeEffect s u i u.pipe := by
  cases h with
  | encrypt hr => exact .of_eq (chainCommand_pipe hr)
  | decrypt hr => exact .of_eq (chainCommand_pipe hr)
  | dmxReset => exact .reset
  | dmxConfig hn => exact .configured _ hn
  | dmxUnit hz hp => exact .unitSet hz hp
  | packetAdvances addr => exact .advance (.inr (.inr (.inr ⟨addr, rfl⟩))) rfl
  | packetCharged addr hn hb =>
    unfold charge
    split
    · next ha => exact .charged addr hn hb ha
    · exact .same _
  | packetDescrambled _ _ _ hr => exact .of_eq (chainCommand_pipe hr :)
  | patAcquired hp => exact .patAcquired hp
  | strmBind => exact .of_eq (bindPid_pipe _ _ s)
  | pmtEnd => exact .advance (.inl ⟨_, rfl⟩) (by simp)
  | ecmBegin => exact .advance (.inr (.inl ⟨_, rfl⟩)) rfl
  | ecmPurchased => exact .advance (.inr (.inr (.inl ⟨_, _, _, rfl⟩))) rfl
  | ecmUnpurchased => exact .advance (.inr (.inr (.inl ⟨_, _, _, rfl⟩))) rfl
  | _ => exact .same _

end Sys2Proof.Machine
end

section
/-! The register invariants (spec/10_state.md R31, R34, R35, R48; spec/43_demux_packet.md R153), kept by every step. -/

namespace Sys2Proof.Safety

open Sys2Proof.Machine

variable {s : State}

/-! ### Contexts -/

theorem contextOk_reset : ContextOk Context.reset :=
  ⟨by decide, fun _ => rfl, fun _ => rfl, fun _ => ⟨rfl, rfl, rfl, rfl⟩⟩

theorem ContextOk.withRound {x : Context} (h : ContextOk x) {n : Byte} (hn : n ≠ 0) :
    ContextOk { x with round := n } := { h with round := hn }

/-- Loading a data key sets its flag, and so asks nothing of the key registers (R122). -/
theorem ContextOk.loadDataKey {x : Context} (h : ContextOk x) (key : Bytes16) : ContextOk (loadDataKey x key) :=
  ⟨h.round, h.noIv, h.noSk, fun hf => absurd hf (by simp [Machine.loadDataKey, setFlagDk])⟩

/-- Clearing the data keys zeroes every register of theirs (R123). -/
theorem ContextOk.clearDataKey {x : Context} (h : ContextOk x) : ContextOk (clearDataKey x) :=
  ⟨h.round, h.noIv, h.noSk, fun _ => ⟨rfl, rfl, rfl, rfl⟩⟩

theorem ContextEffect.contextOk {c : Nat} {i : Instr} {x : Context} (h : ContextsOk s) (hx : ContextEffect s c i x) :
    ContextOk x := by
  obtain ⟨hctx, hround⟩ := h
  have hc := hctx c
  cases hx with
  | same => exact hc
  | setSystemKey => exact ⟨hc.round, hc.noIv, fun hf => absurd hf (by simp [setFlagSk]), hc.noDk⟩
  | setInitVector => exact ⟨hc.round, fun hf => absurd hf (by simp [setFlagIv]), hc.noSk, hc.noDk⟩
  | setDataKey k => exact hc.loadDataKey k
  | clearDataKey => exact hc.clearDataKey
  | setRound _ hn => exact hc.withRound hn
  | ecmLoaded k => exact hc.loadDataKey k
  | ecmCleared => exact hc.clearDataKey
  | opened => exact contextOk_reset.withRound hround
  | ended => exact contextOk_reset

theorem PipeEffect.cfgRound {u : State} {i : Instr} {x : Pipe} (h : s.pipe.cfg.round ≠ 0) (hx : PipeEffect s u i x) :
    x.cfg.round ≠ 0 := by
  cases hx with
  | configured cfg hn => exact hn
  | _ => exact h

theorem ContextsOk.effect {i : Instr} {u : State} (h : ContextsOk s) (hu : Effect s i u) : ContextsOk u :=
  ⟨fun c => ContextEffect.contextOk h (hu.ctx c), PipeEffect.cfgRound h.2 hu.pipe⟩

/-! ### The pipeline registers -/

/-- Phase 0 is left with the unit size known and no budget used (R35). -/
theorem PipeOk.of_unit {x : Pipe} {u : State} (hu : u.pipe = x) (hp : x.phase = .unit) (hz : x.unit = 0)
    (hb : x.budget = 0) : PipeOk u := by
  constructor <;> rw [hu] <;> simp [hp, hz, hb]

/-- Any other phase is entered with a unit size of at least 188 and the budget cleared (R34, R35). -/
theorem PipeOk.of_cleared {x : Pipe} {u : State} (hu : u.pipe = x) (hp : x.phase ≠ .unit) (hz : 188 ≤ x.unit.toNat)
    (hb : x.budget = 0) : PipeOk u := by
  constructor <;> rw [hu] <;> simp [hp, hz, hb]

/-- Charging at most one unit keeps the limit that step 5 of R145 has tested (R153). -/
theorem PipeOk.charged {u : State} (h : PipeOk s) (hpar : u.par = s.par) {n : Nat}
    (hn : n = 1 ∨ n = s.pipe.unit.toNat) (hb : budgetError s = none) (ha : acquiring s.pipe.phase = true)
    (hu : u.pipe = { s.pipe with budget := s.pipe.budget + n }) : PipeOk u := by
  have hunit : s.pipe.phase ≠ .unit := fun hp => by simp [hp, acquiring] at ha
  have hsteady : s.pipe.phase ≠ .steady := fun hp => by simp [hp, acquiring] at ha
  have hle : n ≤ s.pipe.unit.toNat := by have := h.unitSize hunit; omega
  constructor <;> rw [hu]
  case unitPhase => exact fun hp => absurd hp hunit
  case unitSize => exact fun _ => h.unitSize hunit
  case steadyBudget => exact fun hp => absurd hp hsteady
  all_goals
    intro hp
    dsimp only at hp ⊢
    simp only [budgetError, budgetLimit, hp, ite_eq_right_iff, reduceCtorEq, imp_false, not_lt] at hb
    rw [hpar]
    omega

/-- The same pipeline registers but for the configuration. -/
theorem PipeOk.of_configured {u : State} (h : PipeOk s) (hpar : u.par = s.par) (cfg : PipeConfig)
    (hu : u.pipe = { s.pipe with cfg := cfg }) : PipeOk u := by
  constructor <;> rw [hu]
  case patBudget => exact hpar ▸ h.patBudget
  case pmtBudget => exact hpar ▸ h.pmtBudget
  case ecmBudget => exact hpar ▸ h.ecmBudget
  exacts [h.unitPhase, h.unitSize, h.steadyBudget]

theorem PipeOk.effect {i : Instr} {u : State} (h : PipeOk s) (hu : Effect s i u) : PipeOk u := by
  have hx := hu.pipe
  generalize hpipe : u.pipe = x at hx
  cases hx with
  | same => exact h.of_configured hu.par _ hpipe
  | reset => exact .of_unit hpipe rfl rfl rfl
  | configured cfg => exact h.of_configured hu.par cfg hpipe
  | unitSet hz => exact .of_cleared hpipe (by simp) hz rfl
  | charged _ hn hb ha => exact h.charged hu.par hn hb ha hpipe
  | patAcquired hp =>
    exact .of_cleared hpipe (by simp) (h.unitSize fun h0 => by simp [h0, acquiring] at hp) rfl
  | toEcm _ hp => exact .of_cleared hpipe (by simp) (h.unitSize (by simp [hp])) rfl
  | pmtToSteady _ hp => exact .of_cleared hpipe (by simp) (h.unitSize (by simp [hp])) rfl
  | ecmToSteady _ hp => exact .of_cleared hpipe (by simp) (h.unitSize (by simp [hp])) rfl

/-- Settles O57: neither port is part of the register invariants, and every effect of a command keeps both. -/
theorem registersStayLegal : Obligations.RegistersStayLegal := fun _ _ h =>
  ⟨fun hs => step_keeps (fun _ _ h => h) (fun _ _ h => h) (fun _ _ _ h hu => h.effect hu) hs h,
   fun hs => step_keeps (fun _ _ h => { h with }) (fun _ _ h => { h with }) (fun _ _ _ h hu => h.effect hu) hs h⟩

end Sys2Proof.Safety
end

section
/-! The transitions of the phase machine (spec/44_demux_tables.md R183), read off the effects on the pipeline registers. -/

namespace Sys2Proof.Safety

open Sys2Proof.Machine

/-- The model's test of the programs is the words' condition of R183. -/
theorem progsParsed_iff (s : State) : progsParsed s = true ↔ AllProgsParsed s := by
  simp [progsParsed, AllProgsParsed, ProgAt, mem_validProgs, progValid_iff]

/-- The model's test of the decryptors is the words' condition of R183. -/
theorem decsParsed_iff (s : State) : decsParsed s = true ↔ AllDecsParsed s := by
  simp [decsParsed, AllDecsParsed, DecAt, mem_validDecs, decValid_iff]

theorem decsParsed_eq_false_iff (s : State) : decsParsed s = false ↔ ¬ AllDecsParsed s := by
  rw [← decsParsed_iff, Bool.not_eq_true]

/-- The acquisition phases are 1, 2 and 3 (R145). -/
theorem acquiring_iff (ph : Phase) : acquiring ph = true ↔ ph = .pat ∨ ph = .pmt ∨ ph = .ecm := by
  cases ph <;> simp [acquiring]

/-- Settles O50: the response changes neither the pipeline registers nor the tables, so each transition is one of the
effects on the pipeline registers. -/
theorem phaseTransitions : Obligations.PhaseTransitions := by
  intro i s t h hne
  obtain ⟨u, bs, hu, rfl⟩ := effect_of_exec h
  have hprogs : progsParsed u = true → AllProgsParsed (u.send bs) := (progsParsed_iff u).mp
  have hdecs : decsParsed u = true → AllDecsParsed (u.send bs) := (decsParsed_iff u).mp
  have hnotDecs : decsParsed u = false → ¬ AllDecsParsed (u.send bs) := (decsParsed_eq_false_iff u).mp
  have hx := hu.pipe
  rw [State.send_pipe] at hne ⊢
  generalize u.pipe = x at hx hne ⊢
  cases hx with
  | same => exact absurd rfl hne
  | reset => exact ⟨rfl, .inr (.inr (.inr ⟨rfl, rfl⟩))⟩
  | configured => exact absurd rfl hne
  | unitSet hz hp => exact ⟨rfl, .inl ⟨hp, rfl, _, rfl, hz⟩⟩
  | charged => exact absurd rfl hne
  | patAcquired hp =>
    refine ⟨rfl, .inr (.inl ⟨?_, rfl, rfl⟩)⟩
    rcases (acquiring_iff _).mp hp with hp | hp | hp
    · exact .inl hp
    · exact absurd hp.symm hne
    · exact .inr hp
  | toEcm hc hp hg hd => exact ⟨rfl, .inr (.inr (.inl ⟨.inl ⟨hp, hprogs hg, .inl ⟨rfl, hnotDecs hd⟩⟩, hc⟩))⟩
  | pmtToSteady hc hp hg hd =>
    exact ⟨rfl, .inr (.inr (.inl ⟨.inl ⟨hp, hprogs hg, .inr ⟨rfl, hdecs hd⟩⟩, hc⟩))⟩
  | ecmToSteady hc hp hd => exact ⟨rfl, .inr (.inr (.inl ⟨.inr ⟨hp, rfl, hdecs hd⟩, hc⟩))⟩

end Sys2Proof.Safety
end

section
/-! Which command writes which register of which context (spec/10_state.md R20 to R24, R29, R31), read off the effects on
one context. -/

namespace Sys2Proof.Safety

open Sys2Proof.Machine

theorem reinitialised_reset (r : Byte) : Reinitialised { Context.reset with round := r } := ⟨r, rfl⟩

/-- Settles O54: each effect on a context re-initialises it, or is a setter's own. -/
theorem contextRegisterWriters : Obligations.ContextRegisterWriters := by
  intro i s t c h
  obtain ⟨u, bs, hu, rfl⟩ := effect_of_exec h
  have hx := hu.ctx c
  rw [State.send_ctx]
  generalize u.ctx c = x at hx ⊢
  cases hx with
  | same => exact .inr (by simp)
  | setSystemKey k hc => exact .inr ⟨.inr ⟨_, k, rfl, hc⟩, by simp [setFlagSk]⟩
  | setInitVector v hc => exact .inr ⟨by simp [setFlagIv], .inr ⟨_, v, rfl, hc⟩, by simp [setFlagIv]⟩
  | setDataKey k hc =>
    exact .inr ⟨by simp [loadDataKey, setFlagDk], by simp [loadDataKey, setFlagDk], .inr (.inl ⟨_, k, rfl, hc⟩),
      .inl rfl⟩
  | clearDataKey hc =>
    exact .inr ⟨by simp [clearDataKey, clearFlagDk], by simp [clearDataKey, clearFlagDk],
      .inr (.inr (.inl ⟨_, rfl, hc⟩)), .inl rfl⟩
  | setRound hc => exact .inr ⟨by simp, by simp, by simp, .inr ⟨_, _, rfl, hc⟩⟩
  | ecmLoaded k hc =>
    exact .inr ⟨by simp [loadDataKey, setFlagDk], by simp [loadDataKey, setFlagDk],
      .inr (.inr (.inr ⟨_, _, _, k, rfl, hc⟩)), .inl rfl⟩
  | ecmCleared hc =>
    exact .inr ⟨by simp [clearDataKey, clearFlagDk], by simp [clearDataKey, clearFlagDk],
      .inr (.inr (.inr ⟨_, _, _, _, rfl, hc⟩)), .inl rfl⟩
  | opened => exact .inl ⟨trivial, reinitialised_reset _⟩
  | ended hi =>
    refine .inl ⟨?_, reinitialised_reset 4⟩
    rcases hi with rfl | rfl | ⟨p, rfl⟩ <;> trivial

end Sys2Proof.Safety
end

section
/-! The state right after reset (spec/10_state.md R48 to R52), and the machine with its tables wiped (R159, R165). -/

namespace Sys2Proof.Safety

open Sys2Proof.Machine

/-- The PID role table after reset (R50). -/
theorem mapAt_of_mapReset {s : State} (h : s.map = mapReset) (p : Nat) :
    s.mapAt p = if p = 0 then MapEntry.pat else MapEntry.reset := by
  rw [State.mapAt, h, mapReset, Table.get_cons, Table.get_nil]
  exact if_congr eq_comm rfl rfl

theorem progAt_of_nil {s : State} (h : s.prog = []) (i : Nat) : s.progAt i = .reset := by
  rw [State.progAt, h, Table.get_nil]

theorem decAt_of_nil {s : State} (h : s.dec = []) (d : Nat) : s.decAt d = .reset := by
  rw [State.decAt, h, Table.get_nil]

/-- With no valid program no PID stands in a list. -/
theorem streamRefs_of_nil {s : State} (h : s.prog = []) (p : Nat) : streamRefs s p = 0 := by
  simp [streamRefs, validProgs, progAt_of_nil h, ProgSlot.reset]

/-- The table invariants of the wiped tables: PID 0 is the PAT, and nothing else has a role or an owner. -/
theorem topologyOk_of_wiped {s : State} (hmap : s.map = mapReset) (hprog : s.prog = []) (hdec : s.dec = []) :
    TopologyOk s where
  entry p := by
    rw [mapAt_of_mapReset hmap]
    split
    · next hp => exact ⟨hp, rfl, rfl, streamRefs_of_nil hprog p⟩
    · exact ⟨rfl, rfl, streamRefs_of_nil hprog p⟩
  patPid := by rw [mapAt_of_mapReset hmap, if_pos rfl]; rfl
  oneCat p q hp := by rw [mapAt_of_mapReset hmap] at hp; split at hp <;> cases hp
  oneEmm p q hp := by rw [mapAt_of_mapReset hmap] at hp; split at hp <;> cases hp
  progRole i hi := by rw [progAt_of_nil hprog] at hi; cases hi
  decRole d hd := by rw [decAt_of_nil hdec] at hd; cases hd
  decRef d hd := by rw [decAt_of_nil hdec] at hd; cases hd
  progFree i _ := progAt_of_nil hprog i
  decFree d _ := decAt_of_nil hdec d
  listLength i := by rw [progAt_of_nil hprog]; exact ⟨Nat.zero_le _, Nat.zero_le _⟩

theorem canonical_resetWith (p : Config.Params) (n : Nat) : Canonical (State.resetWith p n) where
  pmemRising := .nil
  pmemBelow := by simp [State.resetWith]
  ceRising := .nil
  ceBelow := by simp [State.resetWith]
  ceNoDefault := by simp [State.resetWith]
  mapRising := mapReset_rising
  mapBelow := mapReset_below
  mapNoDefault := mapReset_noDefault
  progRising := .nil
  progBelow := by simp [State.resetWith]
  progNoDefault := by simp [State.resetWith]
  decRising := .nil
  decBelow := by simp [State.resetWith]
  decNoDefault := by simp [State.resetWith]

theorem contextsOk_resetWith (p : Config.Params) (n : Nat) : ContextsOk (State.resetWith p n) :=
  ⟨fun _ => contextOk_reset, (by decide : (4 : Byte) ≠ 0)⟩

/-- Nothing is asked of the parameters: what is listed after reset is in range for each of them. -/
theorem sound_resetWith (p : Config.Params) (n : Nat) : Sound (State.resetWith p n) where
  canonical := canonical_resetWith p n
  contexts := contextsOk_resetWith p n
  pipe := .of_unit (x := .reset) rfl rfl rfl rfl
  topology := topologyOk_of_wiped rfl rfl rfl

/-- Settles O59: the reset state with the default parameters is one with parameters. -/
theorem soundAtReset : Obligations.SoundAtReset :=
  ⟨fun p n _ => sound_resetWith p n, sound_resetWith _ _⟩

/-- The values of R48, R49 and R50, of every register that is reset. -/
theorem resetWith_values (p : Config.Params) (n : Nat) :
    (∀ c, (State.resetWith p n).ctx c = Context.reset) ∧ (State.resetWith p n).pipe = Pipe.reset ∧
    (∀ q, (State.resetWith p n).mapAt q = if q = 0 then MapEntry.pat else MapEntry.reset) ∧
    (∀ i, ((State.resetWith p n).progAt i).valid = false) ∧ (∀ d, ((State.resetWith p n).decAt d).valid = false) ∧
    (State.resetWith p n).cmd = [] ∧ (State.resetWith p n).rsp = [] ∧ (State.resetWith p n).par = p :=
  ⟨fun _ => rfl, rfl, mapAt_of_mapReset rfl, fun _ => rfl, fun _ => rfl, rfl, rfl, rfl⟩

/-- Settles O60: a hardware reset keeps the parameters and brings everything else to its value at reset. -/
theorem resetValues : Obligations.ResetValues := by
  rintro s r (rfl | ⟨rfl, rfl⟩)
  · exact resetWith_values s.par (s.epoch + 1)
  · exact resetWith_values Config.defaults 0

end Sys2Proof.Safety
end

section
/-! The reference-count protocol (spec/44_demux_tables.md R162), one operation at a time. Between the steps of STRM_BIND and
PMT_END the counts of `MAP` and the stream lists disagree, so the invariant here takes the number of list places of each
PID as an argument. -/

namespace Sys2Proof.Safety

open Sys2Proof.Machine

/-! ### How often a PID stands in the lists -/

/-- What a program slot adds to the references on a PID (R162 (a)). -/
def slotRefs (p : Nat) (x : ProgSlot) : Nat := if x.valid then listRefs p x.streams + listRefs p x.old else 0

theorem slotRefs_of_valid {x : ProgSlot} (h : x.valid = true) (p : Nat) :
    slotRefs p x = listRefs p x.streams + listRefs p x.old := if_pos h

@[simp] theorem listRefs_nil (p : Nat) : listRefs p [] = 0 := rfl

theorem listRefs_cons (p : Nat) (e : StreamElem) (es : List StreamElem) :
    listRefs p (e :: es) = listRefs p es + if e.pid.toNat = p then 1 else 0 := by
  simp [listRefs, List.countP_cons]

theorem listRefs_append (p : Nat) (es fs : List StreamElem) : listRefs p (es ++ fs) = listRefs p es + listRefs p fs :=
  List.countP_append ..

theorem sum_map_filter_range (f : Nat → Bool) (g : Nat → Nat) (n : Nat) :
    (((List.range n).filter f).map g).sum = ∑ i ∈ Finset.range n, if f i then g i else 0 := by
  induction n with
  | zero => rfl
  | succ n ih =>
    rw [List.range_succ, List.filter_append, List.map_append, List.sum_append, ih, Finset.sum_range_succ]
    cases h : f n <;> simp [h]

theorem streamRefs_eq_sum (s : State) (p : Nat) :
    streamRefs s p = ∑ i ∈ Finset.range s.par.nProg, slotRefs p (s.progAt i) := sum_map_filter_range ..

theorem streamRefs_congr {s t : State} (hpar : t.par = s.par) (hprog : t.prog = s.prog) (p : Nat) :
    streamRefs t p = streamRefs s p := by
  simp only [streamRefs_eq_sum, State.progAt, hpar, hprog]

/-- A write of one program slot replaces what the slot adds. -/
theorem streamRefs_setProg {s : State} {i : Nat} (hi : i < s.par.nProg) (x : ProgSlot) (p : Nat) :
    streamRefs (s.setProg i x) p + slotRefs p (s.progAt i) = streamRefs s p + slotRefs p x := by
  have hmem := Finset.mem_range.mpr hi
  have hrest : ∑ j ∈ (Finset.range s.par.nProg).erase i, slotRefs p ((s.setProg i x).progAt j) =
      ∑ j ∈ (Finset.range s.par.nProg).erase i, slotRefs p (s.progAt j) :=
    Finset.sum_congr rfl fun j hj => by rw [State.progAt_setProg, if_neg (Finset.ne_of_mem_erase hj)]
  rw [streamRefs_eq_sum, streamRefs_eq_sum, State.setProg_par, ← Finset.add_sum_erase _ _ hmem,
    ← Finset.add_sum_erase _ _ hmem, hrest, State.progAt_setProg_self]
  omega

/-- `streamRefs_setProg` for a valid slot that stays valid. -/
theorem streamRefs_setProg_valid {s : State} {i : Nat} {x : ProgSlot} (hi : progValid s i = true) (hx : x.valid = true)
    (p : Nat) : streamRefs (s.setProg i x) p + (listRefs p (s.progAt i).streams + listRefs p (s.progAt i).old) =
      streamRefs s p + (listRefs p x.streams + listRefs p x.old) := by
  obtain ⟨hlt, hvalid⟩ := (progValid_iff s i).mp hi
  rw [← slotRefs_of_valid hvalid, ← slotRefs_of_valid hx]
  exact streamRefs_setProg hlt x p

/-- What one slot adds is part of the whole. -/
theorem listRefs_le_streamRefs {s : State} {i : Nat} (hi : progValid s i = true) (p : Nat) :
    listRefs p (s.progAt i).streams + listRefs p (s.progAt i).old ≤ streamRefs s p := by
  obtain ⟨hlt, hvalid⟩ := (progValid_iff s i).mp hi
  rw [← slotRefs_of_valid hvalid, streamRefs_eq_sum]
  exact Finset.single_le_sum (f := fun i => slotRefs p (s.progAt i)) (fun _ _ => Nat.zero_le _) (Finset.mem_range.mpr hlt)

/-! ### How many entries are linked to a decryptor -/

/-- What an entry adds to the references on decryptor `d` (R162 (c)). -/
def decShare (d : Nat) (e : MapEntry) : Nat := if decide (e.role = .other ∧ e.link = .dec d) then 1 else 0

theorem decShare_of_linked {d : Nat} {e : MapEntry} (h : e.role = .other ∧ e.link = .dec d) : decShare d e = 1 :=
  if_pos (decide_eq_true h)

theorem decShare_of_not_linked {d : Nat} {e : MapEntry} (h : ¬ (e.role = .other ∧ e.link = .dec d)) :
    decShare d e = 0 := if_neg (by simpa using h)

theorem decShare_of_not_other {e : MapEntry} (h : e.role ≠ .other) (d : Nat) : decShare d e = 0 :=
  decShare_of_not_linked fun he => h he.1

theorem decShare_congr {e e' : MapEntry} (hr : e'.role = e.role) (hl : e'.link = e.link) (d : Nat) :
    decShare d e' = decShare d e := by rw [decShare, hr, hl, decShare]

theorem boundPids_setMap {s : State} (h : Table.Rising s.map) (p : Nat) (e : MapEntry) (d : Nat) :
    boundPids (s.setMap p e) d + decShare d (s.mapAt p) = boundPids s d + decShare d e :=
  Table.countP_set (fun e : Nat × MapEntry => decide (e.2.role = .other ∧ e.2.link = .dec d)) MapEntry.reset p e h rfl

/-- An entry is among those that `DEC[d].REF` counts. -/
theorem decShare_le_boundPids {s : State} (h : Table.Rising s.map) (p d : Nat) :
    decShare d (s.mapAt p) ≤ boundPids s d := by
  have hreset := boundPids_setMap h p .reset d
  rw [decShare_of_not_other (by decide : MapEntry.reset.role ≠ .other)] at hreset
  omega

/-- A decryptor that no entry links has no bound PID. -/
theorem boundPids_eq_zero {s : State} (h : Table.Rising s.map) {d : Nat}
    (hd : ∀ p, ¬ ((s.mapAt p).role = .other ∧ (s.mapAt p).link = .dec d)) : boundPids s d = 0 := by
  refine List.countP_eq_zero.mpr fun ⟨p, e⟩ he hlink => hd p ?_
  have hat : s.mapAt p = e := by rw [State.mapAt, Table.get, (Table.mem_iff_find h p e).mp he]; rfl
  rw [hat]
  exact of_decide_eq_true hlink

/-- With no bound PID, no entry links the decryptor. -/
theorem not_linked_of_boundPids_eq_zero {s : State} (h : Table.Rising s.map) {d : Nat} (hd : boundPids s d = 0) (p : Nat) :
    ¬ ((s.mapAt p).role = .other ∧ (s.mapAt p).link = .dec d) := by
  intro hlink
  have hle := decShare_le_boundPids h p d
  rw [decShare_of_linked hlink] at hle
  omega

/-! ### The invariant -/

/-- An entry of `MAP` is in order when its PID stands `n` times in the stream lists. -/
def EntryWith (s : State) (n p : Nat) (e : MapEntry) : Prop :=
  match e.role with
  | .unknown => e.ref = 0 ∧ e.link = .none ∧ n = 0
  | .pat => p = 0 ∧ e.ref = 1 ∧ e.link = .none ∧ n = 0
  | .cat => e.ref = 1 ∧ e.link = .none ∧ n = 0
  | .emm => e.ref = 1 ∧ e.link = .none ∧ n = 0
  | .pmt => e.ref = 1 ∧ n = 0 ∧ ∃ i, e.link = .prog i ∧ progValid s i = true ∧ (s.progAt i).pmtPid.toNat = p
  | .ecm => e.ref = 1 ∧ n = 0 ∧ ∃ d, e.link = .dec d ∧ decValid s d = true ∧ (s.decAt d).ecmPid.toNat = p
  | .other => 1 ≤ e.ref ∧ e.ref = n ∧ (e.link = .none ∨ ∃ d, e.link = .dec d ∧ decValid s d = true)

theorem entryOk_iff (s : State) (p : Nat) (e : MapEntry) : EntryOk s p e ↔ EntryWith s (streamRefs s p) p e := by
  unfold EntryOk EntryWith
  cases e.role <;> exact Iff.rfl

/-- What `TopologyOk` says of the program and decryptor slots, but for the reference counts. -/
structure SlotsOk (s : State) : Prop where
  progRole : ∀ i, (s.progAt i).valid = true →
    i < s.par.nProg ∧ (s.mapAt (s.progAt i).pmtPid.toNat).role = .pmt ∧
      (s.mapAt (s.progAt i).pmtPid.toNat).link = .prog i
  decRole : ∀ d, (s.decAt d).valid = true →
    d < s.par.nCtx ∧ (s.mapAt (s.decAt d).ecmPid.toNat).role = .ecm ∧
      (s.mapAt (s.decAt d).ecmPid.toNat).link = .dec d
  progFree : ∀ i, (s.progAt i).valid = false → s.progAt i = .reset
  decFree : ∀ d, (s.decAt d).valid = false → s.decAt d = .reset
  listLength : ∀ i, (s.progAt i).streams.length ≤ s.par.nStrm ∧ (s.progAt i).old.length ≤ s.par.nStrm

/-- `TopologyOk` with `refs p` for the number of places of PID `p` in the stream lists, and the table of roles with rising
indices. -/
structure Linked (refs : Nat → Nat) (s : State) : Prop extends SlotsOk s where
  rising : Table.Rising s.map
  entry : ∀ p, EntryWith s (refs p) p (s.mapAt p)
  patPid : (s.mapAt 0).role = .pat
  oneCat : ∀ p q, (s.mapAt p).role = .cat → (s.mapAt q).role = .cat → p = q
  oneEmm : ∀ p q, (s.mapAt p).role = .emm → (s.mapAt q).role = .emm → p = q
  decRef : ∀ d, (s.decAt d).valid = true → (s.decAt d).ref = boundPids s d

theorem TopologyOk.linked {s : State} (h : TopologyOk s) (hr : Table.Rising s.map) : Linked (streamRefs s) s :=
  { h with rising := hr, entry := fun p => (entryOk_iff s p _).mp (h.entry p) }

theorem Linked.topologyOk {s : State} (h : Linked (streamRefs s) s) : TopologyOk s :=
  { h with entry := fun p => (entryOk_iff s p _).mpr (h.entry p) }

variable {s t : State} {refs : Nat → Nat}

/-- The invariant is about the parameters and the three tables of unit DX alone. -/
theorem Linked.of_tables (h : Linked refs s) (hpar : t.par = s.par) (hmap : t.map = s.map) (hprog : t.prog = s.prog)
    (hdec : t.dec = s.dec) : Linked refs t := by
  cases s
  cases t
  cases hpar
  cases hmap
  cases hprog
  cases hdec
  exact { h with }

theorem Linked.of_refs {refs' : Nat → Nat} (h : Linked refs s) (he : ∀ p, refs' p = refs p) : Linked refs' s :=
  funext he ▸ h

/-! ### Entries -/

section Entries

variable {n p : Nat} {e : MapEntry}

/-- An entry stays in order while the slot it links stays valid with the same PID. -/
theorem EntryWith.mono (h : EntryWith s n p e)
    (hp : ∀ i, e.link = .prog i → progValid s i = true →
      progValid t i = true ∧ (t.progAt i).pmtPid = (s.progAt i).pmtPid)
    (hd : ∀ d, e.link = .dec d → decValid s d = true →
      decValid t d = true ∧ (t.decAt d).ecmPid = (s.decAt d).ecmPid) : EntryWith t n p e := by
  unfold EntryWith at h ⊢
  cases hr : e.role <;> simp only [hr] at h ⊢
  case pmt =>
    obtain ⟨href, hn, i, hl, hv, hq⟩ := h
    obtain ⟨hv', hq'⟩ := hp i hl hv
    exact ⟨href, hn, i, hl, hv', hq' ▸ hq⟩
  case ecm =>
    obtain ⟨href, hn, d, hl, hv, hq⟩ := h
    obtain ⟨hv', hq'⟩ := hd d hl hv
    exact ⟨href, hn, d, hl, hv', hq' ▸ hq⟩
  case other =>
    obtain ⟨hpos, href, hl | ⟨d, hl, hv⟩⟩ := h
    · exact ⟨hpos, href, .inl hl⟩
    · exact ⟨hpos, href, .inr ⟨d, hl, (hd d hl hv).1⟩⟩
  all_goals exact h

/-- A PID that stands in a list is an elementary stream. -/
theorem EntryWith.role_other (h : EntryWith s n p e) (hn : n ≠ 0) : e.role = .other := by
  unfold EntryWith at h
  cases hr : e.role <;> simp only [hr] at h
  case other => rfl
  all_goals omega

/-- A PID that is no elementary stream stands in no list. -/
theorem EntryWith.refs_eq_zero (h : EntryWith s n p e) (hr : e.role ≠ .other) : n = 0 := by
  by_contra hn
  exact hr (h.role_other hn)

theorem EntryWith.link_of_unknown (h : EntryWith s n p e) (hr : e.role = .unknown) : e.link = .none := by
  simp only [EntryWith, hr] at h
  exact h.2.1

/-- A link to a decryptor names a valid one. -/
theorem EntryWith.decValid_of_link (h : EntryWith s n p e) {d : Nat} (hl : e.link = .dec d) : decValid s d = true := by
  unfold EntryWith at h
  cases hr : e.role <;> simp_all

/-- A decryptor linked by an entry that is no elementary stream is the one whose ECM PID the entry is. -/
theorem EntryWith.ecmPid_of_link (h : EntryWith s n p e) {d : Nat} (hl : e.link = .dec d) (hr : e.role ≠ .other) :
    (s.decAt d).ecmPid.toNat = p := by
  unfold EntryWith at h
  cases hr' : e.role <;> simp_all

end Entries

end Sys2Proof.Safety
end

section
/-! The reference-count protocol, continued: each operation of the demux commands keeps the invariant `Linked`. -/

namespace Sys2Proof.Safety

open Sys2Proof.Machine

variable {s t : State} {refs : Nat → Nat}

/-! ### Changing one entry, and the reference counts with it -/

/-- A decryptor slot `x` that became `y` when its bound PIDs lost `lost` and gained `gained`. -/
structure Reshared (lost gained : Nat) (x y : DecSlot) : Prop where
  valid : y.valid = x.valid
  ecmPid : y.ecmPid = x.ecmPid
  free : x.valid = false → y = x
  ref : x.valid = true → y.ref + lost = x.ref + gained

theorem reshared_refl (n : Nat) (x : DecSlot) : Reshared n n x x := ⟨rfl, rfl, fun _ => rfl, fun _ => rfl⟩

/-- One entry is replaced, by one that has or has not a control role as before, and the counts of the decryptors follow. -/
theorem Linked.replaceEntry (h : Linked refs s) {p n : Nat} {e : MapEntry} (hpar : t.par = s.par)
    (hprog : t.prog = s.prog) (hrising : Table.Rising t.map) (hmap : ∀ q, t.mapAt q = if q = p then e else s.mapAt q)
    (hbound : ∀ d, boundPids t d + decShare d (s.mapAt p) = boundPids s d + decShare d e)
    (hdec : ∀ d, Reshared (decShare d (s.mapAt p)) (decShare d e) (s.decAt d) (t.decAt d))
    (hctl : controlRole (s.mapAt p).role = true ∨ controlRole e.role = true →
      e.role = (s.mapAt p).role ∧ e.link = (s.mapAt p).link)
    (he : EntryWith s n p e) : Linked (Function.update refs p n) t := by
  have hprogAt (i : Nat) : t.progAt i = s.progAt i := by rw [State.progAt, hprog, State.progAt]
  have hmono {k q : Nat} {x : MapEntry} (hx : EntryWith s k q x) : EntryWith t k q x :=
    hx.mono (fun i _ hv => ⟨by rwa [progValid, hprogAt, hpar], by rw [hprogAt]⟩)
      (fun d _ hv => ⟨by rwa [decValid, (hdec d).valid, hpar], (hdec d).ecmPid⟩)
  have hkeep (q : Nat) (hq : controlRole (s.mapAt q).role = true) :
      (t.mapAt q).role = (s.mapAt q).role ∧ (t.mapAt q).link = (s.mapAt q).link := by
    rw [hmap]
    split
    · next hqp => exact hqp ▸ hctl (.inl (hqp ▸ hq))
    · exact ⟨rfl, rfl⟩
  have hback (q : Nat) (hq : controlRole (t.mapAt q).role = true) : (t.mapAt q).role = (s.mapAt q).role := by
    rw [hmap] at hq ⊢
    split at hq
    · next hqp => rw [if_pos hqp, hqp]; exact (hctl (.inr hq)).1
    · next hqp => rw [if_neg hqp]
  refine
    { progRole := fun i hi => ?_
      decRole := fun d hd => ?_
      progFree := fun i hi => ?_
      decFree := fun d hd => ?_
      listLength := fun i => ?_
      rising := hrising
      entry := fun q => ?_
      patPid := (hkeep 0 (by rw [h.patPid]; rfl)).1.trans h.patPid
      oneCat := fun q q' hq hq' => h.oneCat q q' ((hback q (by rw [hq]; rfl)).symm.trans hq)
        ((hback q' (by rw [hq']; rfl)).symm.trans hq')
      oneEmm := fun q q' hq hq' => h.oneEmm q q' ((hback q (by rw [hq]; rfl)).symm.trans hq)
        ((hback q' (by rw [hq']; rfl)).symm.trans hq')
      decRef := fun d hd => ?_ }
  · rw [hprogAt] at hi ⊢
    obtain ⟨hlt, hrole, hlink⟩ := h.progRole i hi
    obtain ⟨hrole', hlink'⟩ := hkeep _ (by rw [hrole]; rfl)
    exact ⟨hpar ▸ hlt, hrole'.trans hrole, hlink'.trans hlink⟩
  · rw [(hdec d).valid] at hd
    obtain ⟨hlt, hrole, hlink⟩ := h.decRole d hd
    obtain ⟨hrole', hlink'⟩ := hkeep _ (by rw [hrole]; rfl)
    rw [(hdec d).ecmPid]
    exact ⟨hpar ▸ hlt, hrole'.trans hrole, hlink'.trans hlink⟩
  · rw [hprogAt] at hi ⊢
    exact h.progFree i hi
  · rw [(hdec d).valid] at hd
    exact ((hdec d).free hd).trans (h.decFree d hd)
  · rw [hprogAt, hpar]
    exact h.listLength i
  · rw [hmap, Function.update_apply]
    split
    · next hqp => exact hqp ▸ hmono he
    · exact hmono (h.entry q)
  · rw [(hdec d).valid] at hd
    have href := (hdec d).ref hd
    have hcount := h.decRef d hd
    have hnow := hbound d
    omega

/-- `replaceEntry` for the table that `setMap` gives. -/
theorem Linked.relink (h : Linked refs s) {p n : Nat} {e : MapEntry} (hpar : t.par = s.par) (hprog : t.prog = s.prog)
    (hmap : t.map = (s.setMap p e).map)
    (hdec : ∀ d, Reshared (decShare d (s.mapAt p)) (decShare d e) (s.decAt d) (t.decAt d))
    (hctl : controlRole (s.mapAt p).role = true ∨ controlRole e.role = true →
      e.role = (s.mapAt p).role ∧ e.link = (s.mapAt p).link)
    (he : EntryWith s n p e) : Linked (Function.update refs p n) t := by
  refine h.replaceEntry hpar hprog (hmap ▸ Table.rising_set _ _ _ h.rising) (fun q => ?_) (fun d => ?_) hdec hctl he
  · rw [State.mapAt, hmap]
    exact State.mapAt_setMap ..
  · rw [boundPids, hmap]
    exact boundPids_setMap h.rising p e d

/-- Only the decryptor slots change, and in nothing that the invariant looks at. -/
theorem Linked.of_decs (h : Linked refs s) (hpar : t.par = s.par) (hprog : t.prog = s.prog) (hmap : t.map = s.map)
    (hdec : ∀ d, Reshared 0 0 (s.decAt d) (t.decAt d)) : Linked refs t := by
  have hat (q : Nat) : t.mapAt q = s.mapAt q := by rw [State.mapAt, hmap, State.mapAt]
  refine (h.replaceEntry (p := 0) (e := s.mapAt 0) hpar hprog (hmap ▸ h.rising) (fun q => ?_) (fun d => ?_) (fun d => ?_)
    (fun _ => ⟨rfl, rfl⟩) (h.entry 0)).of_refs fun q => ?_
  · rw [hat]
    split
    · next hq => rw [hq]
    · rfl
  · rw [boundPids, hmap, boundPids]
  · exact ⟨(hdec d).valid, (hdec d).ecmPid, (hdec d).free, fun hv => by have := (hdec d).ref hv; omega⟩
  · rw [Function.update_eq_self]

/-- A write of a valid decryptor slot that leaves it valid, with the same ECM PID and the same count. -/
theorem Linked.setDec (h : Linked refs s) {d : Nat} {x : DecSlot} (hd : (s.decAt d).valid = true) (hv : x.valid = true)
    (hpid : x.ecmPid = (s.decAt d).ecmPid) (href : x.ref = (s.decAt d).ref) : Linked refs (s.setDec d x) := by
  refine h.of_decs rfl rfl rfl fun k => ?_
  rw [State.decAt_setDec]
  split
  · next hk =>
    subst hk
    exact ⟨hv.trans hd.symm, hpid, fun hf => absurd (hd.symm.trans hf) (by decide), fun _ => congrArg (· + 0) href⟩
  · exact reshared_refl 0 _

/-- A write of a valid program slot that leaves it valid, with the same PMT PID. -/
theorem Linked.setProg (h : Linked refs s) {i : Nat} {x : ProgSlot} (hi : (s.progAt i).valid = true)
    (hv : x.valid = true) (hpid : x.pmtPid = (s.progAt i).pmtPid)
    (hlen : x.streams.length ≤ s.par.nStrm ∧ x.old.length ≤ s.par.nStrm) : Linked refs (s.setProg i x) := by
  have hvalid (k : Nat) : ((s.setProg i x).progAt k).valid = (s.progAt k).valid := by
    rw [State.progAt_setProg]
    split
    · next hk => rw [hk, hv, hi]
    · rfl
  have hsame (k : Nat) : ((s.setProg i x).progAt k).pmtPid = (s.progAt k).pmtPid := by
    rw [State.progAt_setProg]
    split
    · next hk => rw [hk, hpid]
    · rfl
  refine
    { h with
      entry := fun p =>
        (h.entry p).mono (fun k _ hk => ⟨by rwa [progValid, hvalid], hsame k⟩) fun d _ hd => ⟨hd, rfl⟩
      progRole := fun k hk => ?_
      progFree := fun k hk => ?_
      listLength := fun k => ?_ }
  · rw [hvalid] at hk
    rw [hsame]
    exact h.progRole k hk
  · rw [hvalid] at hk
    rw [State.progAt_setProg, if_neg (by rintro rfl; exact absurd (hi.symm.trans hk) (by decide))]
    exact h.progFree k hk
  · rw [State.progAt_setProg]
    split
    · exact hlen
    · exact h.listLength k

/-! ### Binding and releasing (R172, R175) -/

theorem decAt_incDecRef (l : Link) (s : State) (d : Nat) :
    (incDecRef l s).decAt d = if l = .dec d then { s.decAt d with ref := (s.decAt d).ref + 1 } else s.decAt d := by
  cases l with
  | dec k =>
    simp only [incDecRef, State.decAt_setDec, Link.dec.injEq, eq_comm (a := d)]
    split
    · next hk => rw [hk]
    · rfl
  | _ => rfl

theorem decAt_decDecRef (l : Link) (s : State) (d : Nat) :
    (decDecRef l s).decAt d = if l = .dec d then { s.decAt d with ref := (s.decAt d).ref - 1 } else s.decAt d := by
  cases l with
  | dec k =>
    simp only [decDecRef, State.decAt_setDec, Link.dec.injEq, eq_comm (a := d)]
    split
    · next hk => rw [hk]
    · rfl
  | _ => rfl

/-- The share of an entry is given by its link alone, unless it has a control role. -/
theorem decShare_eq {e : MapEntry} (h : e.role = .other ∨ e.link = .none) (d : Nat) :
    decShare d e = if e.link = .dec d then 1 else 0 := by
  by_cases hl : e.link = .dec d
  · have hr : e.role = .other := h.resolve_right (by simp [hl])
    rw [decShare_of_linked ⟨hr, hl⟩, if_pos hl]
  · rw [decShare_of_not_linked fun he => hl he.2, if_neg hl]

/-- One reference taken off the decryptor of `l` and one put on that of `l'`. -/
theorem reshared_moved {l l' : Link} (hne : l' ≠ l) {d : Nat}
    (hl : l = .dec d → (s.decAt d).valid = true ∧ 1 ≤ (s.decAt d).ref)
    (hl' : l' = .dec d → (s.decAt d).valid = true) (hdec : t.decAt d = s.decAt d) :
    Reshared (if l = .dec d then 1 else 0) (if l' = .dec d then 1 else 0) (s.decAt d)
      ((incDecRef l' (decDecRef l t)).decAt d) := by
  rw [decAt_incDecRef, decAt_decDecRef, hdec]
  by_cases h1 : l = .dec d
  · obtain ⟨hv, hpos⟩ := hl h1
    have h2 : l' ≠ .dec d := fun h2 => hne (h2.trans h1.symm)
    rw [if_pos h1, if_neg h2, if_pos h1, if_neg h2]
    exact ⟨rfl, rfl, fun hf => absurd (hv.symm.trans hf) (by decide), fun _ => by dsimp only; omega⟩
  · rw [if_neg h1, if_neg h1]
    split
    · next h2 => exact ⟨rfl, rfl, fun hf => absurd ((hl' h2).symm.trans hf) (by decide), fun _ => rfl⟩
    · exact reshared_refl 0 _

/-- A decryptor that an elementary stream links has a reference. -/
theorem Linked.one_le_ref (h : Linked refs s) {p d : Nat} (hr : (s.mapAt p).role = .other) (hl : (s.mapAt p).link = .dec d) :
    (s.decAt d).valid = true ∧ 1 ≤ (s.decAt d).ref := by
  have hv := ((decValid_iff s d).mp ((h.entry p).decValid_of_link hl)).2
  have hshare := decShare_le_boundPids h.rising p d
  rw [decShare_of_linked ⟨hr, hl⟩, ← h.decRef d hv] at hshare
  exact ⟨hv, hshare⟩

/-- Moving the link of an entry without a control role to `l`, and the references of the decryptors with it. -/
theorem Linked.moveLink (h : Linked refs s) {p n : Nat} {e : MapEntry} (hc : controlRole (s.mapAt p).role = false)
    (hne : e.link ≠ (s.mapAt p).link) (hc' : controlRole e.role = false) (he : EntryWith s n p e) :
    Linked (Function.update refs p n) (incDecRef e.link (decDecRef (s.mapAt p).link (s.setMap p e))) := by
  have hold : (s.mapAt p).role = .other ∨ (s.mapAt p).link = .none := by
    cases hr : (s.mapAt p).role <;> simp [hr, controlRole] at hc ⊢
    exact (h.entry p).link_of_unknown hr
  have hnew : e.role = .other ∨ e.link = .none := by
    cases hr : e.role <;> simp [hr, controlRole] at hc' ⊢
    exact he.link_of_unknown hr
  refine h.relink (by rw [incDecRef_only, decDecRef_only]; rfl) (by rw [incDecRef_only, decDecRef_only]; rfl)
    (by rw [incDecRef_only, decDecRef_only]) (fun d => ?_) (by simp [hc, hc']) he
  rw [decShare_eq hold, decShare_eq hnew]
  refine reshared_moved hne (fun hl => ?_) (fun hl => ?_) rfl
  · exact h.one_le_ref (hold.resolve_right (by simp [hl])) hl
  · exact ((decValid_iff s d).mp (he.decValid_of_link hl)).2

/-- `bind` adds one place of the PID (R172). -/
theorem Linked.bindPid (h : Linked refs s) {p : Nat} {l : Link} (hc : controlRole (s.mapAt p).role = false)
    (hl : l = .none ∨ ∃ d, l = .dec d ∧ decValid s d = true) :
    Linked (Function.update refs p (refs p + 1)) (bindPid p l s) := by
  have hentry := h.entry p
  cases hr : (s.mapAt p).role <;> simp only [hr, controlRole, Bool.true_eq_false] at hc
  case unknown =>
    simp only [EntryWith, hr] at hentry
    obtain ⟨href, hlink, hzero⟩ := hentry
    have he : EntryWith s (refs p + 1) p { s.mapAt p with role := .other, link := l, ref := 1 } := by
      simp only [EntryWith]
      exact ⟨le_refl 1, by omega, hl⟩
    have hdo : Machine.bindPid p l s =
        incDecRef l (decDecRef (s.mapAt p).link (s.setMap p { s.mapAt p with role := .other, link := l, ref := 1 })) := by
      simp only [Machine.bindPid, hr, hlink, decDecRef]
    rw [hdo]
    by_cases hnone : l = .none
    · subst hnone
      rw [hlink]
      exact h.relink rfl rfl rfl
        (fun d => by rw [decShare_eq (.inr hlink), decShare_eq (.inr rfl), hlink]; exact reshared_refl _ _)
        (by simp [hr, controlRole]) he
    · exact h.moveLink (by rw [hr]; rfl) (by rw [hlink]; exact hnone) rfl he
  case other =>
    simp only [EntryWith, hr] at hentry
    obtain ⟨hpos, href, hold⟩ := hentry
    by_cases hsame : (s.mapAt p).link = l
    · have hdo : Machine.bindPid p l s = s.setMap p { s.mapAt p with ref := (s.mapAt p).ref + 1 } := by
        simp only [Machine.bindPid, hr, if_pos hsame]
      rw [hdo]
      refine h.relink rfl rfl rfl (fun d => reshared_refl _ _) (fun _ => ⟨rfl, rfl⟩) ?_
      simp only [EntryWith, hr]
      exact ⟨by omega, by omega, hold⟩
    · have hdo : Machine.bindPid p l s = incDecRef l (decDecRef (s.mapAt p).link
          (s.setMap p { s.mapAt p with link := l, ref := (s.mapAt p).ref + 1 })) := by
        simp only [Machine.bindPid, hr, if_neg hsame]
      rw [hdo]
      refine h.moveLink (e := { s.mapAt p with link := l, ref := (s.mapAt p).ref + 1 }) (by rw [hr]; rfl)
        (Ne.symm hsame) (by rw [hr]; rfl) ?_
      simp only [EntryWith, hr]
      exact ⟨by omega, by omega, hl⟩

/-- `release` takes one place of the PID away (R175). -/
theorem Linked.releasePid (h : Linked refs s) {p : Nat} (hp : refs p ≠ 0) :
    Linked (Function.update refs p (refs p - 1)) (releasePid p s) := by
  have hentry := h.entry p
  have hr := hentry.role_other hp
  simp only [EntryWith, hr] at hentry
  obtain ⟨hpos, href, hold⟩ := hentry
  simp only [Machine.releasePid, hr, if_true]
  split
  · next hlast =>
    have he : EntryWith s (refs p - 1) p (vacate (s.mapAt p)) := by
      simp only [EntryWith, vacate]
      exact ⟨trivial, trivial, by omega⟩
    by_cases hnone : (s.mapAt p).link = .none
    · rw [hnone]
      refine h.relink rfl rfl rfl (fun d => ?_) (by simp [vacate, hr, controlRole]) he
      rw [decShare_eq (.inr hnone), decShare_eq (.inr rfl), hnone]
      exact reshared_refl _ _
    · exact h.moveLink (e := vacate (s.mapAt p)) (by rw [hr]; rfl) (Ne.symm hnone) rfl he
  · refine h.relink rfl rfl rfl (fun d => ?_) (fun _ => ⟨hr.symm, rfl⟩) ?_
    · rw [decShare_eq (.inl hr), decShare_eq (.inl rfl)]
      exact reshared_refl _ _
    · show 1 ≤ (s.mapAt p).ref - 1 ∧ (s.mapAt p).ref - 1 = refs p - 1 ∧ _
      exact ⟨by omega, by omega, hold⟩

/-- Releasing a list takes away each of its places (R177). -/
theorem Linked.releaseList (h : Linked refs s) (es : List StreamElem) (hes : ∀ p, listRefs p es ≤ refs p) :
    Linked (fun p => refs p - listRefs p es) (releaseList es s) := by
  induction es generalizing s refs with
  | nil => exact h
  | cons e es ih =>
    simp only [listRefs_cons] at hes ⊢
    have hpos := hes e.pid.toNat
    rw [if_pos rfl] at hpos
    refine (ih (h.releasePid (p := e.pid.toNat) (by omega)) fun p => ?_).of_refs fun p => ?_
    all_goals
      have hp := hes p
      rw [Function.update_apply]
      by_cases hpe : p = e.pid.toNat
      · subst hpe
        simp only [if_true] at hp ⊢
        omega
      · simp only [if_neg hpe, if_neg (Ne.symm hpe)] at hp ⊢
        omega

/-- Counting a packet changes no role, reference or link (R151). -/
theorem Linked.recount (h : Linked refs s) (p : Nat) {e : MapEntry} (hrole : e.role = (s.mapAt p).role)
    (href : e.ref = (s.mapAt p).ref) (hlink : e.link = (s.mapAt p).link) : Linked refs (s.setMap p e) := by
  refine (h.relink (t := s.setMap p e) (n := refs p) rfl rfl rfl (fun d => ?_) (fun _ => ⟨hrole, hlink⟩)
    ?_).of_refs fun q => by rw [Function.update_eq_self]
  · rw [decShare_congr hrole hlink]
    exact reshared_refl _ _
  · have hentry := h.entry p
    simp only [EntryWith, hrole, href, hlink] at hentry ⊢
    exact hentry

end Sys2Proof.Safety
end

section
/-! The table invariants (spec/10_state.md R36 to R45, R51; spec/44_demux_tables.md R162, R167), kept by every step: the
operations that give a PID an owner or take it away, and then every effect of a command. -/

namespace Sys2Proof.Machine

/-- A count of entries that `f` does not change. -/
theorem Table.countP_mapAll {α : Type} [DecidableEq α] (P : Nat × α → Bool) (d : α) (f : Nat → α → α) (t : Table α)
    (hd : ∀ k, P (k, d) = false) (hf : ∀ k v, P (k, f k v) = P (k, v)) :
    (Table.mapAll d f t).countP P = t.countP P := by
  induction t with
  | nil => rfl
  | cons e t ih =>
    obtain ⟨k, v⟩ := e
    unfold Table.mapAll at ih ⊢
    by_cases hk : f k v = d
    · have hv : P (k, v) = false := by rw [← hf, hk, hd]
      rw [List.filterMap_cons_none (by simp [hk]), ih, List.countP_cons_of_neg (by simp [hv])]
    · rw [List.filterMap_cons_some (by simp [hk]; rfl), List.countP_cons, List.countP_cons, ih, hf]

/-- The PID role table after the first half of ROLE_SET (R167). -/
theorem mapAt_vacateOthers {s : State} (h : Table.Rising s.map) (p : Nat) {r : Role} (hr : r ≠ .unknown) (q : Nat) :
    (vacateOthers p r s).mapAt q = if q ≠ p ∧ (s.mapAt q).role = r then vacate (s.mapAt q) else s.mapAt q :=
  Table.get_mapAll MapEntry.reset (fun q e => if q ≠ p ∧ e.role = r then vacate e else e) h q
    (if_neg fun hq => hr hq.2.symm)

theorem rising_vacateOthers {s : State} (h : Table.Rising s.map) (p : Nat) (r : Role) :
    Table.Rising (vacateOthers p r s).map :=
  Table.rising_mapAll MapEntry.reset (fun q (e : MapEntry) => if q ≠ p ∧ e.role = r then vacate e else e) h

theorem decAt_unlockDecs {s : State} (h : Table.Rising s.dec) (d : Nat) :
    (unlockDecs s).decAt d = unlockSlot (s.decAt d) := 
  Table.get_mapAll DecSlot.reset (fun _ x => unlockSlot x) h d rfl

/-- ROLE_SET sets one of two roles (R91). -/
theorem roleOfByte_cases (b : Byte) : roleOfByte b = .cat ∨ roleOfByte b = .emm := by
  unfold roleOfByte
  split
  · exact .inl rfl
  · exact .inr rfl

end Sys2Proof.Machine

namespace Sys2Proof.Safety

open Sys2Proof.Machine

variable {s t : State} {refs : Nat → Nat}

/-! ### Owners come and go -/

/-- The entry of a PID that is nobody's or a decryptor's becomes nobody's or an owner's. What is left to show is that the
entries and the slots fit together again. -/
theorem Linked.reassign (h : Linked refs s) {p : Nat} {e : MapEntry} (hmap : t.map = (s.setMap p e).map)
    (hold : (s.mapAt p).role = .unknown ∨ (s.mapAt p).role = .ecm)
    (hnew : e.role = .unknown ∨ e.role = .pmt ∨ e.role = .ecm)
    (hentry : ∀ q, EntryWith t (refs q) q (if q = p then e else s.mapAt q)) (hslots : SlotsOk t)
    (href : ∀ d, (t.decAt d).valid = true → (t.decAt d).ref = boundPids s d) : Linked refs t := by
  have hat (q : Nat) : t.mapAt q = if q = p then e else s.mapAt q := by
    rw [State.mapAt, hmap]
    exact State.mapAt_setMap ..
  have hshared {q : Nat} {r : Role} (hr : r = .cat ∨ r = .emm) (hq : (t.mapAt q).role = r) : (s.mapAt q).role = r := by
    rw [hat] at hq
    split at hq
    · rcases hr with rfl | rfl <;> simp [hq] at hnew
    · exact hq
  refine
    { hslots with
      rising := hmap ▸ Table.rising_set _ _ _ h.rising
      entry := fun q => hat q ▸ hentry q
      patPid := ?_
      oneCat := fun q q' hq hq' => h.oneCat q q' (hshared (.inl rfl) hq) (hshared (.inl rfl) hq')
      oneEmm := fun q q' hq hq' => h.oneEmm q q' (hshared (.inr rfl) hq) (hshared (.inr rfl) hq')
      decRef := fun d hd => ?_ }
  · have hne : 0 ≠ p := by
      rintro rfl
      simp [h.patPid] at hold
    rw [hat, if_neg hne, h.patPid]
  · have hcount := boundPids_setMap h.rising p e d
    rw [decShare_of_not_other (by rcases hold with ho | ho <;> simp [ho]),
      decShare_of_not_other (by rcases hnew with hn | hn | hn <;> simp [hn])] at hcount
    rw [href d hd, boundPids, boundPids, hmap]
    exact hcount.symm

/-- PROG_ADD gives the PID to a program (R166). -/
theorem Linked.progAdd (h : Linked refs s) {p : Pid} {i : Nat} (num : Half) (hp : (s.mapAt p.toNat).role = .unknown)
    (hi : freeProg s = some i) : Linked refs ((s.setProg i (newProg num p)).setMap p.toNat
      { s.mapAt p.toNat with role := .pmt, ref := 1, link := .prog i }) := by
  obtain ⟨hlt, hfree⟩ := freeProg_some hi
  refine h.reassign rfl (.inl hp) (.inr (.inl rfl)) (fun q => ?_)
    ⟨fun k hk => ?_, fun d hd => ?_, fun k hk => ?_, h.decFree, fun k => ?_⟩ h.decRef
  · split
    · next hq =>
      have hzero := (h.entry p.toNat).refs_eq_zero (by simp [hp])
      simp only [EntryWith]
      exact ⟨trivial, hq ▸ hzero, i, rfl, by simpa [progValid_iff, newProg] using hlt, by simp [newProg, hq]⟩
    · refine (h.entry q).mono (fun k _ hk => ?_) fun d _ hd => ⟨hd, rfl⟩
      have hki : k ≠ i := by
        rintro rfl
        simp [((progValid_iff s k).mp hk).2] at hfree
      rw [progValid_iff] at hk ⊢
      simpa [State.progAt_setProg, hki] using hk
  · rw [State.setMap_progAt, State.progAt_setProg] at hk ⊢
    split
    · next hki => simp [newProg, hki, hlt]
    · next hki =>
      rw [if_neg hki] at hk
      obtain ⟨hlt, hrole, hlink⟩ := h.progRole k hk
      have hne : (s.progAt k).pmtPid.toNat ≠ p.toNat := fun he => by simp [he, hp] at hrole
      rw [State.mapAt_setMap, if_neg hne]
      exact ⟨hlt, hrole, hlink⟩
  · obtain ⟨hlt, hrole, hlink⟩ := h.decRole d hd
    have hne : (s.decAt d).ecmPid.toNat ≠ p.toNat := fun he => by simp [he, hp] at hrole
    rw [State.setMap_decAt, State.setProg_decAt, State.mapAt_setMap, if_neg hne]
    exact ⟨hlt, hrole, hlink⟩
  · rw [State.setMap_progAt, State.progAt_setProg] at hk ⊢
    split at hk
    · simp [newProg] at hk
    · next hki => rw [if_neg hki]; exact h.progFree k hk
  · rw [State.setMap_progAt, State.progAt_setProg]
    split
    · exact ⟨Nat.zero_le _, Nat.zero_le _⟩
    · exact h.listLength k

/-- DEC_OPEN gives the PID to a decryptor, which no stream is bound to yet (R170). -/
theorem Linked.decOpen (h : Linked refs s) {p : Pid} {d : Nat} (x : Context) (hp : (s.mapAt p.toNat).role = .unknown)
    (hd : freeDec s = some d) : Linked refs (((s.setDec d (newDec p)).setCtx d x).setMap p.toNat
      { s.mapAt p.toNat with role := .ecm, ref := 1, link := .dec d }) := by
  obtain ⟨hlt, hfree⟩ := freeDec_some hd
  have hunbound : boundPids s d = 0 := boundPids_eq_zero h.rising fun q hq => by
    have hv := (h.entry q).decValid_of_link hq.2
    simp [((decValid_iff s d).mp hv).2] at hfree
  have hdecAt (k : Nat) : (((s.setDec d (newDec p)).setCtx d x).setMap p.toNat
      { s.mapAt p.toNat with role := .ecm, ref := 1, link := .dec d }).decAt k =
        if k = d then newDec p else s.decAt k :=
    s.decAt_setDec d k (newDec p)
  refine h.reassign rfl (.inl hp) (.inr (.inr rfl)) (fun q => ?_)
    ⟨fun i hi => ?_, fun k hk => ?_, h.progFree, fun k hk => ?_, h.listLength⟩ (fun k hk => ?_)
  · split
    · next hq =>
      have hzero := (h.entry p.toNat).refs_eq_zero (by simp [hp])
      simp only [EntryWith]
      exact ⟨trivial, hq ▸ hzero, d, rfl, by simpa [decValid_iff, newDec] using hlt, by simp [newDec, hq]⟩
    · refine (h.entry q).mono (fun i _ hi => ⟨hi, rfl⟩) fun k _ hk => ?_
      have hkd : k ≠ d := by
        rintro rfl
        simp [((decValid_iff s k).mp hk).2] at hfree
      rw [decValid_iff] at hk ⊢
      rw [hdecAt, if_neg hkd]
      exact ⟨hk, rfl⟩
  · obtain ⟨hlt, hrole, hlink⟩ := h.progRole i hi
    have hne : (s.progAt i).pmtPid.toNat ≠ p.toNat := fun he => by simp [he, hp] at hrole
    rw [State.setMap_progAt, State.setCtx_progAt, State.setDec_progAt, State.mapAt_setMap, if_neg hne]
    exact ⟨hlt, hrole, hlink⟩
  · rw [hdecAt] at hk ⊢
    split
    · next hkd => simp [newDec, hkd, hlt]
    · next hkd =>
      rw [if_neg hkd] at hk
      obtain ⟨hlt, hrole, hlink⟩ := h.decRole k hk
      have hne : (s.decAt k).ecmPid.toNat ≠ p.toNat := fun he => by simp [he, hp] at hrole
      rw [State.mapAt_setMap, if_neg hne]
      exact ⟨hlt, hrole, hlink⟩
  · rw [hdecAt] at hk ⊢
    split at hk
    · simp [newDec] at hk
    · next hkd => rw [if_neg hkd]; exact h.decFree k hk
  · rw [hdecAt] at hk ⊢
    split
    · next hkd => rw [hkd, hunbound]; rfl
    · next hkd => rw [if_neg hkd] at hk; exact h.decRef k hk

/-- The end of a decryptor that no stream is bound to gives its ECM PID back (R174). -/
theorem Linked.destroyDec (h : Linked refs s) {d : Nat} (hd : (s.decAt d).valid = true) (href : (s.decAt d).ref = 0) :
    Linked refs (destroyDec d s) := by
  obtain ⟨-, hrole, hlink⟩ := h.decRole d hd
  have hfree := not_linked_of_boundPids_eq_zero h.rising ((h.decRef d hd).symm.trans href)
  have hdecAt (k : Nat) : (Machine.destroyDec d s).decAt k = if k = d then .reset else s.decAt k :=
    s.decAt_setDec d k .reset
  have hmapAt (q : Nat) : (Machine.destroyDec d s).mapAt q =
      if q = (s.decAt d).ecmPid.toNat then vacate (s.mapAt (s.decAt d).ecmPid.toNat) else s.mapAt q :=
    State.mapAt_setMap ..
  refine h.reassign (p := (s.decAt d).ecmPid.toNat) (e := vacate (s.mapAt (s.decAt d).ecmPid.toNat)) rfl
    (.inr hrole) (.inl rfl) (fun q => ?_)
    ⟨fun i hi => ?_, fun k hk => ?_, h.progFree, fun k hk => ?_, h.listLength⟩ (fun k hk => ?_)
  · split
    · next hq =>
      exact ⟨rfl, rfl, hq ▸ (h.entry _).refs_eq_zero (by simp [hrole])⟩
    · next hq =>
      refine (h.entry q).mono (fun i _ hi => ⟨hi, rfl⟩) fun k hl hk => ?_
      have hkd : k ≠ d := by
        rintro rfl
        by_cases hother : (s.mapAt q).role = .other
        · exact hfree q ⟨hother, hl⟩
        · exact hq ((h.entry q).ecmPid_of_link hl hother).symm
      rw [decValid_iff] at hk ⊢
      rw [hdecAt, if_neg hkd]
      exact ⟨hk, rfl⟩
  · obtain ⟨hlt, hr, hl⟩ := h.progRole i hi
    have hne : (s.progAt i).pmtPid.toNat ≠ (s.decAt d).ecmPid.toNat := fun he => by simp [he, hrole] at hr
    rw [show (Machine.destroyDec d s).progAt i = s.progAt i from rfl, hmapAt, if_neg hne]
    exact ⟨hlt, hr, hl⟩
  · rw [hdecAt] at hk ⊢
    split at hk
    · simp [DecSlot.reset] at hk
    · next hkd =>
      obtain ⟨hlt, hr, hl⟩ := h.decRole k hk
      have hne : (s.decAt k).ecmPid.toNat ≠ (s.decAt d).ecmPid.toNat := fun he => by
        rw [he, hlink] at hl
        exact hkd (Link.dec.inj hl).symm
      rw [if_neg hkd, hmapAt, if_neg hne]
      exact ⟨hlt, hr, hl⟩
  · rw [hdecAt] at hk ⊢
    split at hk
    · next hkd => rw [if_pos hkd]
    · next hkd => rw [if_neg hkd]; exact h.decFree k hk
  · rw [hdecAt] at hk ⊢
    split at hk
    · simp [DecSlot.reset] at hk
    · next hkd => rw [if_neg hkd]; exact h.decRef k hk

theorem Linked.sweepDecs (h : Linked refs s) (ds : List Nat) : Linked refs (sweepDecs ds s) := by
  induction ds generalizing s with
  | nil => exact h
  | cons d ds ih =>
    unfold Machine.sweepDecs
    split
    · next hd => exact ih (h.destroyDec hd.1 hd.2)
    · exact ih h

/-! ### ROLE_SET (R167) -/

@[simp] theorem setRole_progAt (p : Nat) (r : Role) (s : State) (i : Nat) : (setRole p r s).progAt i = s.progAt i := rfl

@[simp] theorem setRole_decAt (p : Nat) (r : Role) (s : State) (d : Nat) : (setRole p r s).decAt d = s.decAt d := rfl

/-- The PID has the role, no other PID has it, and nothing else has changed. -/
theorem mapAt_setRole (h : Table.Rising s.map) {p : Nat} {r : Role} (hr : r ≠ .unknown) (q : Nat) :
    (setRole p r s).mapAt q =
      if q = p then { s.mapAt p with role := r, ref := 1, link := .none }
      else if (s.mapAt q).role = r then vacate (s.mapAt q) else s.mapAt q := by
  rw [setRole, State.mapAt_setMap, mapAt_vacateOthers h p hr]
  by_cases hq : q = p <;> simp [hq]

section SetRole

variable {p : Nat} {r : Role}

/-- An entry with another role is as before. -/
theorem mapAt_setRole_of_ne (h : Table.Rising s.map) (hr : r ≠ .unknown)
    (hp : (s.mapAt p).role = .unknown ∨ (s.mapAt p).role = r) {q : Nat} (hq : (s.mapAt q).role ≠ .unknown)
    (hq' : (s.mapAt q).role ≠ r) : (setRole p r s).mapAt q = s.mapAt q := by
  have hqp : q ≠ p := by
    rintro rfl
    exact hp.elim hq hq'
  rw [mapAt_setRole h hr, if_neg hqp, if_neg hq']

/-- Who has a role afterwards: the PID has the role set, and whoever had another one still has it. -/
theorem role_setRole (h : Table.Rising s.map) (hr : r ≠ .unknown) {q : Nat} {r' : Role} (hr' : r' ≠ .unknown)
    (hq : ((setRole p r s).mapAt q).role = r') : r' = r ∧ q = p ∨ r' ≠ r ∧ (s.mapAt q).role = r' := by
  rw [mapAt_setRole h hr] at hq
  split at hq
  · next hqp => exact .inl ⟨hq.symm, hqp⟩
  · split at hq
    · exact absurd hq.symm hr'
    · next hqr => exact .inr ⟨hq ▸ hqr, hq⟩

/-- A role that at most one PID had is a role that at most one PID has. -/
theorem setRole_unique (h : Table.Rising s.map) (hr : r ≠ .unknown) {r' : Role} (hr' : r' ≠ .unknown)
    (hone : ∀ q q', (s.mapAt q).role = r' → (s.mapAt q').role = r' → q = q') (q q' : Nat)
    (hq : ((setRole p r s).mapAt q).role = r') (hq' : ((setRole p r s).mapAt q').role = r') : q = q' := by
  rcases role_setRole h hr hr' hq with ⟨heq, hqp⟩ | ⟨hne, hqs⟩ <;>
    rcases role_setRole h hr hr' hq' with ⟨heq', hqp'⟩ | ⟨hne', hqs'⟩
  · exact hqp.trans hqp'.symm
  · exact absurd heq hne'
  · exact absurd heq' hne
  · exact hone q q' hqs hqs'

/-- No elementary stream is concerned. -/
theorem boundPids_setRole (h : Table.Rising s.map) (hr : r ≠ .unknown) (hr' : r ≠ .other)
    (hp : (s.mapAt p).role = .unknown ∨ (s.mapAt p).role = r) (d : Nat) :
    boundPids (setRole p r s) d = boundPids s d := by
  have hvacated : boundPids (vacateOthers p r s) d = boundPids s d := by
    refine Table.countP_mapAll (fun e : Nat × MapEntry => decide (e.2.role = .other ∧ e.2.link = .dec d)) MapEntry.reset
      (fun q e => if q ≠ p ∧ e.role = r then vacate e else e) s.map (fun _ => rfl) fun k v => ?_
    dsimp only
    split
    · next hv => simp [vacate, hv.2, hr']
    · rfl
  have hset := boundPids_setMap (rising_vacateOthers h p r) p
    { s.mapAt p with role := r, ref := 1, link := .none } d
  rw [mapAt_vacateOthers h p hr, if_neg (by simp), decShare_of_not_other (by rcases hp with hp | hp <;> simp [hp, hr']),
    decShare_of_not_other (by simpa using hr'), hvacated] at hset
  exact hset

/-- ROLE_SET moves a role that has no other owner to the PID. -/
theorem Linked.setRole (h : Linked refs s) (hr : r = .cat ∨ r = .emm)
    (hp : (s.mapAt p).role = .unknown ∨ (s.mapAt p).role = r) : Linked refs (setRole p r s) := by
  have hunknown : r ≠ .unknown := by rcases hr with rfl | rfl <;> decide
  have hother : r ≠ .other := by rcases hr with rfl | rfl <;> decide
  have hkeep {q : Nat} {r' : Role} (hq : (s.mapAt q).role = r') (hr' : r' = .pat ∨ r' = .pmt ∨ r' = .ecm) :
      (Machine.setRole p r s).mapAt q = s.mapAt q := by
    refine mapAt_setRole_of_ne h.rising hunknown hp ?_ ?_ <;> rw [hq]
    · rcases hr' with rfl | rfl | rfl <;> decide
    · rcases hr with rfl | rfl <;> rcases hr' with rfl | rfl | rfl <;> decide
  refine
    { progRole := fun i hi => ?_
      decRole := fun d hd => ?_
      progFree := h.progFree
      decFree := h.decFree
      listLength := h.listLength
      rising := Table.rising_set _ _ _ (rising_vacateOthers h.rising p r)
      entry := fun q => ?_
      patPid := (congrArg MapEntry.role (hkeep h.patPid (.inl rfl))).trans h.patPid
      oneCat := setRole_unique h.rising hunknown (by decide) h.oneCat
      oneEmm := setRole_unique h.rising hunknown (by decide) h.oneEmm
      decRef := fun d hd => (h.decRef d hd).trans (boundPids_setRole h.rising hunknown hother hp d).symm }
  · obtain ⟨hlt, hpmt, hlink⟩ := h.progRole i hi
    rw [setRole_progAt, hkeep hpmt (.inr (.inl rfl))]
    exact ⟨hlt, hpmt, hlink⟩
  · obtain ⟨hlt, hecm, hlink⟩ := h.decRole d hd
    rw [setRole_decAt, hkeep hecm (.inr (.inr rfl))]
    exact ⟨hlt, hecm, hlink⟩
  · rw [mapAt_setRole h.rising hunknown]
    split
    · next hqp =>
      have hzero : refs p = 0 := (h.entry p).refs_eq_zero (by rcases hp with hp | hp <;> simp [hp, hother])
      rcases hr with rfl | rfl <;> exact ⟨rfl, rfl, hqp ▸ hzero⟩
    · split
      · next hqr => exact ⟨rfl, rfl, (h.entry q).refs_eq_zero (hqr ▸ hother)⟩
      · exact (h.entry q).mono (fun _ _ hv => ⟨hv, rfl⟩) fun _ _ hv => ⟨hv, rfl⟩

end SetRole

/-! ### Every effect -/

/-- The invariant with the number of list places that the lists have: `TopologyOk`, and the table of roles in order. -/
def Balanced (s : State) : Prop := Linked (streamRefs s) s

theorem Balanced.of_tables (h : Balanced s) (hpar : t.par = s.par) (hmap : t.map = s.map) (hprog : t.prog = s.prog)
    (hdec : t.dec = s.dec) : Balanced t :=
  (Linked.of_tables h hpar hmap hprog hdec).of_refs (streamRefs_congr hpar hprog)

/-- Back from the counts as an operation has left them. -/
theorem Linked.balanced (h : Linked refs t) (hrefs : ∀ p, streamRefs t p = refs p) : Balanced t := h.of_refs hrefs

theorem Balanced.advance (h : Balanced s) : Balanced (advance s) := by
  rw [advance_only]
  exact h.of_tables rfl rfl rfl rfl

theorem Balanced.charge (h : Balanced s) (n : Nat) : Balanced (charge n s) := by
  unfold Machine.charge
  split
  · exact h.of_tables rfl rfl rfl rfl
  · exact h

theorem Balanced.chainCommand {dir : Direction} {k : BitVec 2} {c a n : Nat} (h : Balanced s)
    (ht : chainCommand dir k c a n s = .ok t) : Balanced t := by
  rw [chainCommand_only ht]
  exact h.of_tables rfl rfl rfl rfl

theorem balanced_of_wiped (hmap : s.map = mapReset) (hprog : s.prog = []) (hdec : s.dec = []) : Balanced s :=
  (topologyOk_of_wiped hmap hprog hdec).linked (hmap ▸ mapReset_rising)

theorem Balanced.recount (h : Balanced s) (p : Nat) {e : MapEntry} (hrole : e.role = (s.mapAt p).role)
    (href : e.ref = (s.mapAt p).ref) (hlink : e.link = (s.mapAt p).link) : Balanced (s.setMap p e) :=
  (Linked.recount h p hrole href hlink).balanced fun _ => rfl

/-- A valid decryptor slot written with the same ECM PID and the same count (R178, R179). -/
theorem Balanced.setDec (h : Balanced s) {d : Nat} {x : DecSlot} (hd : decValid s d = true)
    (hv : x.valid = (s.decAt d).valid) (hpid : x.ecmPid = (s.decAt d).ecmPid) (href : x.ref = (s.decAt d).ref) :
    Balanced (s.setDec d x) := by
  have hvalid := ((decValid_iff s d).mp hd).2
  exact (Linked.setDec h hvalid (hv.trans hvalid) hpid href).balanced fun _ => rfl

theorem Balanced.writeByte (h : Balanced s) (a : Nat) (v : Byte) : Balanced (s.writeByte a v) :=
  h.of_tables rfl rfl rfl rfl

theorem Balanced.setCtx (h : Balanced s) (c : Nat) (x : Context) : Balanced (s.setCtx c x) :=
  h.of_tables rfl rfl rfl rfl

/-- A valid slot written with the same places in its lists (R169). -/
theorem Balanced.setProg (h : Balanced s) {i : Nat} {x : ProgSlot} (hi : progValid s i = true)
    (hv : x.valid = (s.progAt i).valid) (hpid : x.pmtPid = (s.progAt i).pmtPid)
    (hlen : x.streams.length ≤ s.par.nStrm ∧ x.old.length ≤ s.par.nStrm)
    (hrefs : ∀ p, listRefs p x.streams + listRefs p x.old =
      listRefs p (s.progAt i).streams + listRefs p (s.progAt i).old) : Balanced (s.setProg i x) := by
  have hvalid := ((progValid_iff s i).mp hi).2
  refine Linked.balanced (Linked.setProg h hvalid (hv.trans hvalid) hpid hlen) fun p => ?_
  have hsum := streamRefs_setProg_valid hi (hv.trans hvalid) p
  rw [hrefs] at hsum
  omega

/-- STRM_BIND: the reference that `bind` adds is the one that the new list element has (R171, R172). -/
theorem Balanced.strmBind (h : Balanced s) {i : Nat} {p : Pid} {l : Link} (type : Byte) (hi : progValid s i = true)
    (hc : controlRole (s.mapAt p.toNat).role = false) (hl : l = .none ∨ ∃ d, l = .dec d ∧ decValid s d = true)
    (hroom : (s.progAt i).streams.length < s.par.nStrm) :
    Balanced ((bindPid p.toNat l s).setProg i
      { s.progAt i with streams := (s.progAt i).streams ++ [⟨p, type⟩] }) := by
  have hvalid := ((progValid_iff s i).mp hi).2
  have hprog : (Machine.bindPid p.toNat l s).prog = s.prog := by rw [bindPid_only]
  have hprogAt : (Machine.bindPid p.toNat l s).progAt i = s.progAt i := by rw [State.progAt, hprog, State.progAt]
  have hpar := bindPid_par p.toNat l s
  refine Linked.balanced ((Linked.bindPid h hc hl).setProg (hprogAt ▸ hvalid) hvalid (by rw [hprogAt]) ?_) fun q => ?_
  · rw [hpar, List.length_append]
    exact ⟨hroom, (h.listLength i).2⟩
  · have hsum := streamRefs_setProg_valid (s := Machine.bindPid p.toNat l s) (i := i)
      (x := { s.progAt i with streams := (s.progAt i).streams ++ [⟨p, type⟩] }) (by rwa [progValid, hprogAt, hpar])
      hvalid q
    rw [hprogAt, streamRefs_congr hpar hprog, listRefs_append, listRefs_cons, listRefs_nil] at hsum
    rw [Function.update_apply]
    by_cases hq : q = p.toNat
    · subst hq
      simp only [if_true] at hsum ⊢
      omega
    · simp only [if_neg hq, if_neg (Ne.symm hq)] at hsum ⊢
      omega

/-- PMT_END: the references that are released are those of the old list (R175, R177). -/
theorem Balanced.closePmt (h : Balanced s) {i : Nat} (hi : progValid s i = true) : Balanced (closePmt i s) := by
  have hvalid := ((progValid_iff s i).mp hi).2
  have hprog : (Machine.releaseList (s.progAt i).old s).prog = s.prog := by rw [releaseList_only]
  have hprogAt : (Machine.releaseList (s.progAt i).old s).progAt i = s.progAt i := by
    rw [State.progAt, hprog, State.progAt]
  have hpar : (Machine.releaseList (s.progAt i).old s).par = s.par := by rw [releaseList_only]
  have hreleased := Linked.releaseList h (s.progAt i).old fun p => by
    have hle := listRefs_le_streamRefs hi p
    omega
  unfold Machine.closePmt
  refine Linked.balanced (hreleased.setProg (by rwa [hprogAt]) hvalid (by rw [hprogAt]) ?_) fun p => ?_
  · rw [hpar]
    exact ⟨(h.listLength i).1, Nat.zero_le _⟩
  · have hsum := streamRefs_setProg_valid (s := Machine.releaseList (s.progAt i).old s) (i := i)
      (x := { s.progAt i with old := [], phase := settleBump (s.progAt i).phase }) (by rwa [progValid, hprogAt, hpar])
      hvalid p
    rw [hprogAt, streamRefs_congr hpar hprog, listRefs_nil] at hsum
    dsimp only at hsum ⊢
    omega

theorem Balanced.sweepDecs (h : Balanced s) (ds : List Nat) : Balanced (sweepDecs ds s) :=
  (Linked.sweepDecs h ds).balanced (streamRefs_congr (sweepDecs_par ds s) (by rw [sweepDecs_only]))

/-- PROG_ADD: the new slot has no list element (R166). -/
theorem Balanced.progAdd (h : Balanced s) {p : Pid} {i : Nat} (num : Half) (hp : (s.mapAt p.toNat).role = .unknown)
    (hi : freeProg s = some i) : Balanced ((s.setProg i (newProg num p)).setMap p.toNat
      { s.mapAt p.toNat with role := .pmt, ref := 1, link := .prog i }) := by
  obtain ⟨hlt, hfree⟩ := freeProg_some hi
  refine (Linked.progAdd h num hp hi).balanced fun q => ?_
  have hsum := streamRefs_setProg hlt (newProg num p) q
  rw [slotRefs, if_neg (by simp [hfree])] at hsum
  exact hsum

/-- EMM_OK unlocks, and nothing else (R181). -/
theorem Balanced.unlockDecs (h : Balanced s) (hr : Table.Rising s.dec) : Balanced (unlockDecs s) := by
  refine Linked.balanced (Linked.of_decs h rfl rfl rfl fun d => ?_) fun _ => rfl
  rw [decAt_unlockDecs hr, unlockSlot]
  split
  · next hv => exact ⟨rfl, rfl, fun hf => absurd (hv.symm.trans hf) (by decide), fun _ => rfl⟩
  · exact reshared_refl 0 _

/-- Every effect of a command keeps the table invariants. -/
theorem Balanced.effect {i : Instr} {u : State} (h : Balanced s) (hc : Canonical s) (hu : Effect s i u) : Balanced u := by
  cases hu with
  | encrypt hr => exact h.chainCommand hr
  | decrypt hr => exact h.chainCommand hr
  | dmxReset => exact balanced_of_wiped rfl rfl rfl
  | packetAdvances => exact h.advance
  | packetCharged => exact h.charge _
  | packetClear _ p => exact h.recount p.toNat rfl rfl rfl
  | packetUndec _ p => exact h.recount p.toNat rfl rfl rfl
  | packetDescrambled p v _ hr =>
    exact Balanced.recount ((h.chainCommand hr).writeByte _ v) p.toNat rfl rfl rfl
  | patAcquired => exact balanced_of_wiped rfl rfl rfl
  | patUpdated => exact balanced_of_wiped rfl rfl rfl
  | progAdd hp hi => exact h.progAdd _ hp hi
  | roleSet hp => exact (Linked.setRole h (roleOfByte_cases _) hp).balanced fun _ => rfl
  | pmtBegin pcr hi ho =>
    refine h.setProg hi rfl rfl ⟨Nat.zero_le _, (h.listLength _).1⟩ fun p => ?_
    rw [ho, listRefs_nil]
    exact Nat.add_comm ..
  | decOpen hp hd => exact (Linked.decOpen h _ hp hd).balanced fun _ => rfl
  | strmBind type hi hl hctl hroom => exact h.strmBind type hi hctl (selectDec_some hl).symm hroom
  | pmtEnd hi => exact ((h.closePmt hi).sweepDecs _).advance
  | ecmBegin hd => exact Balanced.advance (h.setDec hd rfl rfl rfl)
  | ecmPurchased _ _ hd => exact Balanced.advance ((h.setCtx _ _).setDec hd rfl rfl rfl)
  | ecmUnpurchased _ _ hd => exact Balanced.advance ((h.setCtx _ _).setDec hd rfl rfl rfl)
  | emmOk => exact h.unlockDecs hc.decRising
  | _ => exact h.of_tables rfl rfl rfl rfl

theorem TopologyOk.effect {i : Instr} {u : State} (h : TopologyOk s) (hc : Canonical s) (hu : Effect s i u) :
    TopologyOk u :=
  Linked.topologyOk (Balanced.effect (h.linked hc.mapRising) hc hu)

/-- Settles O58: neither port is part of the tables, and every effect of a command keeps their invariants together with
the canonical form. -/
theorem topologyKept : Obligations.TopologyKept := fun _ _ hc hs h =>
  (step_keeps (P := fun s => Canonical s ∧ TopologyOk s) (fun _ bs ⟨hc, hs⟩ => ⟨hc.takeCommand bs, { hs with }⟩)
    (fun _ bs ⟨hc, hs⟩ => ⟨hc.send bs, { hs with }⟩) (fun _ _ _ ⟨hc, hs⟩ hu => ⟨hc.effect hu, hs.effect hc hu⟩)
    ⟨hc, hs⟩ h).2

end Sys2Proof.Safety
end

section
/-! What every command keeps of an entry of the PID role table (spec/10_state.md R38). -/

namespace Sys2Proof.Safety

open Sys2Proof.Machine

/-! ### An entry before and after -/

/-- The entry `e` became `e'` without one active role taking the place of another and without a counter going down. -/
structure Continues (e e' : MapEntry) : Prop where
  role : e'.role = e.role ∨ e.role = .unknown ∨ e'.role = .unknown
  normal : e.normal ≤ e'.normal
  undec : e.undec ≤ e'.undec

/-- The entry `e` became `e'` by being given back, or not at all. -/
structure Fades (e e' : MapEntry) : Prop where
  role : e'.role = e.role ∨ e'.role = .unknown
  normal : e'.normal = e.normal
  undec : e'.undec = e.undec

theorem continues_refl (e : MapEntry) : Continues e e := ⟨.inl rfl, le_rfl, le_rfl⟩

theorem fades_refl (e : MapEntry) : Fades e e := ⟨.inl rfl, rfl, rfl⟩

theorem fades_vacate (e : MapEntry) : Fades e (vacate e) := ⟨.inr rfl, rfl, rfl⟩

theorem Fades.trans {e e' e'' : MapEntry} (h : Fades e e') (h' : Fades e' e'') : Fades e e'' where
  role := by
    rcases h'.role with hr | hr
    · rw [hr]
      exact h.role
    · exact .inr hr
  normal := h'.normal.trans h.normal
  undec := h'.undec.trans h.undec

theorem Fades.continues {e e' : MapEntry} (h : Fades e e') : Continues e e' :=
  ⟨h.role.imp_right .inr, h.normal.ge, h.undec.ge⟩

theorem Continues.of_eq {e e' : MapEntry} (h : e' = e) : Continues e e' := h ▸ continues_refl e

theorem Continues.of_unknown {e e' : MapEntry} (h : e.role = .unknown) (hn : e'.normal = e.normal)
    (hu : e'.undec = e.undec) : Continues e e' := ⟨.inr (.inl h), hn.ge, hu.ge⟩

/-! ### The shared operations -/

variable {s t : State}

theorem mapAt_congr (h : t.map = s.map) (p : Nat) : t.mapAt p = s.mapAt p := by rw [State.mapAt, h, State.mapAt]

@[simp] theorem incDecRef_mapAt (l : Link) (s : State) (p : Nat) : (incDecRef l s).mapAt p = s.mapAt p :=
  mapAt_congr (by rw [incDecRef_only]) p

@[simp] theorem decDecRef_mapAt (l : Link) (s : State) (p : Nat) : (decDecRef l s).mapAt p = s.mapAt p :=
  mapAt_congr (by rw [decDecRef_only]) p

@[simp] theorem advance_mapAt (s : State) (p : Nat) : (advance s).mapAt p = s.mapAt p :=
  mapAt_congr (by rw [advance_only]) p

theorem chainCommand_mapAt {dir : Direction} {k : BitVec 2} {d a n : Nat} (h : chainCommand dir k d a n s = .ok t)
    (p : Nat) : t.mapAt p = s.mapAt p := mapAt_congr (by rw [chainCommand_only h]) p

theorem charge_mapAt (n : Nat) (s : State) (p : Nat) : (charge n s).mapAt p = s.mapAt p := by
  unfold charge
  split <;> rfl

theorem Continues.setMap {p q : Nat} {e : MapEntry} (h : Continues (s.mapAt p) e) :
    Continues (s.mapAt q) ((s.setMap p e).mapAt q) := by
  rw [State.mapAt_setMap]
  split
  · next hq => exact hq ▸ h
  · exact continues_refl _

theorem Fades.setMap {p q : Nat} {e : MapEntry} (h : Fades (s.mapAt p) e) :
    Fades (s.mapAt q) ((s.setMap p e).mapAt q) := by
  rw [State.mapAt_setMap]
  split
  · next hq => exact hq ▸ h
  · exact fades_refl _

/-- `bind` gives a role only to an entry that has none (R172). -/
theorem bindPid_continues (p : Nat) (l : Link) (q : Nat) : Continues (s.mapAt q) ((bindPid p l s).mapAt q) := by
  unfold bindPid
  dsimp only
  split
  · next hr =>
    rw [incDecRef_mapAt]
    exact Continues.setMap (.of_unknown hr rfl rfl)
  · next hr =>
    split
    · exact Continues.setMap ⟨.inl rfl, le_rfl, le_rfl⟩
    · rw [incDecRef_mapAt, decDecRef_mapAt]
      exact Continues.setMap ⟨.inl rfl, le_rfl, le_rfl⟩
  all_goals exact continues_refl _

theorem releasePid_fades (p q : Nat) : Fades (s.mapAt q) ((releasePid p s).mapAt q) := by
  unfold releasePid
  dsimp only
  split
  · split
    · rw [decDecRef_mapAt]
      exact (fades_vacate _).setMap
    · exact Fades.setMap ⟨.inl rfl, rfl, rfl⟩
  · exact fades_refl _

theorem releaseList_fades (es : List StreamElem) (q : Nat) : Fades (s.mapAt q) ((releaseList es s).mapAt q) := by
  induction es generalizing s with
  | nil => exact fades_refl _
  | cons e es ih => exact (releasePid_fades _ q).trans ih

theorem sweepDecs_fades (ds : List Nat) (q : Nat) : Fades (s.mapAt q) ((sweepDecs ds s).mapAt q) := by
  induction ds generalizing s with
  | nil => exact fades_refl _
  | cons d ds ih =>
    unfold sweepDecs
    split
    · exact ((fades_vacate _).setMap).trans (ih (s := destroyDec d s))
    · exact ih

/-- ROLE_SET gives the PID a role that it had or had none, and takes it from the others (R167). -/
theorem setRole_continues (h : Table.Rising s.map) {p : Nat} {r : Role} (hr : r ≠ .unknown)
    (hp : (s.mapAt p).role = .unknown ∨ (s.mapAt p).role = r) (q : Nat) :
    Continues (s.mapAt q) ((setRole p r s).mapAt q) := by
  rw [mapAt_setRole h hr]
  split
  · next hq =>
    subst hq
    exact ⟨hp.symm.imp Eq.symm .inl, le_rfl, le_rfl⟩
  · split
    · exact (fades_vacate _).continues
    · exact continues_refl _

/-! ### Every effect -/

/-- What an effect of a command makes of an entry: DMX_RESET and PAT_BEGIN wipe the table, no other command does more than
`Continues` allows. -/
theorem Effect.mapAt {i : Instr} {u : State} (hc : Canonical s) (hu : Effect s i u) (q : Nat) :
    (i = .dmxReset ∨ i = .patBegin) ∧ u.map = mapReset ∨ Continues (s.mapAt q) (u.mapAt q) := by
  cases hu with
  | dmxReset => exact .inl ⟨.inl rfl, rfl⟩
  | patAcquired => exact .inl ⟨.inr rfl, rfl⟩
  | patUpdated => exact .inl ⟨.inr rfl, rfl⟩
  | encrypt hr => exact .inr (.of_eq (chainCommand_mapAt hr q))
  | decrypt hr => exact .inr (.of_eq (chainCommand_mapAt hr q))
  | packetAdvances => exact .inr (.of_eq (advance_mapAt s q))
  | packetCharged => exact .inr (.of_eq (charge_mapAt _ s q))
  | packetClear _ p => exact .inr (Continues.setMap ⟨.inl rfl, Nat.le_succ _, le_rfl⟩)
  | packetUndec _ p => exact .inr (Continues.setMap ⟨.inl rfl, le_rfl, Nat.le_succ _⟩)
  | packetDescrambled _ _ _ hr =>
    rw [← chainCommand_mapAt hr q]
    exact .inr (Continues.setMap (s := State.writeByte _ _ _) ⟨.inl rfl, Nat.le_succ _, le_rfl⟩)
  | progAdd hp => exact .inr (Continues.setMap (s := s.setProg _ _) (.of_unknown hp rfl rfl))
  | roleSet hp =>
    exact .inr (setRole_continues hc.mapRising (by rcases roleOfByte_cases _ with h | h <;> rw [h] <;> decide) hp q)
  | decOpen hp => exact .inr (Continues.setMap (s := (s.setDec _ _).setCtx _ _) (.of_unknown hp rfl rfl))
  | strmBind => exact .inr (bindPid_continues _ _ q)
  | pmtEnd =>
    rw [advance_mapAt]
    exact .inr ((releaseList_fades _ q).trans (sweepDecs_fades (s := closePmt _ s) _ q)).continues
  | ecmBegin => exact .inr (.of_eq (advance_mapAt _ q))
  | ecmPurchased => exact .inr (.of_eq (advance_mapAt _ q))
  | ecmUnpurchased => exact .inr (.of_eq (advance_mapAt _ q))
  | _ => exact .inr (continues_refl _)

/-- An entry has a role exactly when it has a reference (R38). -/
theorem EntryWith.unknown_iff {n p : Nat} {e : MapEntry} (h : EntryWith s n p e) : e.role = .unknown ↔ e.ref = 0 := by
  unfold EntryWith at h
  cases hr : e.role <;> simp only [hr] at h <;> simp
  case other => omega
  all_goals omega

/-- The wiped table has a role in PID 0 alone, and PID 0 was the PAT before. -/
theorem TopologyOk.role_of_wiped {u : State} (h : TopologyOk s) (hu : u.map = mapReset) {q : Nat}
    (hq : (u.mapAt q).role ≠ .unknown) : (u.mapAt q).role = (s.mapAt q).role := by
  rw [mapAt_of_mapReset hu] at hq ⊢
  split
  · next h0 => rw [h0, h.patPid]; rfl
  · next h0 => rw [if_neg h0] at hq; exact absurd rfl hq

/-- Settles O55: the first two parts are the table invariants after the command, the others are read off its effect on
the entry. -/
theorem roleTableInvariants : Obligations.RoleTableInvariants := by
  intro i s t p hc hs h
  obtain ⟨u, bs, hu, rfl⟩ := effect_of_exec h
  have hentry := (entryOk_iff u p _).mp ((hs.effect hc hu).entry p)
  rw [State.send_mapAt]
  refine ⟨hentry.unknown_iff, hentry.link_of_unknown, ?_⟩
  rcases Effect.mapAt hc hu p with ⟨hi, hwiped⟩ | hcont
  · exact ⟨fun _ hq => hs.role_of_wiped hwiped hq, hi.imp_right .inl⟩
  · refine ⟨fun hq hq' => ?_, .inr (.inr ⟨hcont.normal, hcont.undec⟩)⟩
    rcases hcont.role with hr | hr | hr
    · exact hr
    · exact absurd hr hq
    · exact absurd hr hq'

end Sys2Proof.Safety
end

section
/-! Keys cannot be read back (spec/10_state.md R26): two machines that differ in the contexts alone, and there not in the
flags, stay alike through every command. -/

namespace Sys2Proof.Safety

open Sys2Proof.Machine

/-! ### Machines that are alike -/

/-- The two states differ in the contexts and in payload memory alone, and no context differs in its flags. -/
def Alike (s s' : State) : Prop :=
  ∃ C M, s' = { s with ce := C, pmem := M } ∧ ∀ c, (Table.get Context.reset C c).st = (s.ctx c).st

section Operations

variable {s s' : State}

theorem Alike.par (h : Alike s s') : s'.par = s.par := by obtain ⟨C, M, rfl, -⟩ := h; rfl

theorem Alike.pipe (h : Alike s s') : s'.pipe = s.pipe := by obtain ⟨C, M, rfl, -⟩ := h; rfl

theorem Alike.mapAt (h : Alike s s') (p : Nat) : s'.mapAt p = s.mapAt p := by obtain ⟨C, M, rfl, -⟩ := h; rfl

theorem Alike.progAt (h : Alike s s') (i : Nat) : s'.progAt i = s.progAt i := by obtain ⟨C, M, rfl, -⟩ := h; rfl

theorem Alike.decAt (h : Alike s s') (d : Nat) : s'.decAt d = s.decAt d := by obtain ⟨C, M, rfl, -⟩ := h; rfl

theorem Alike.flags (h : Alike s s') (c : Nat) : (s'.ctx c).st = (s.ctx c).st := by
  obtain ⟨C, M, rfl, hst⟩ := h
  exact hst c

theorem Alike.progsParsed (h : Alike s s') : progsParsed s' = progsParsed s := by obtain ⟨C, M, rfl, -⟩ := h; rfl

theorem Alike.decsParsed (h : Alike s s') : decsParsed s' = decsParsed s := by obtain ⟨C, M, rfl, -⟩ := h; rfl

/-- Both machines take the same branch. -/
theorem Alike.ite {c : Prop} [Decidable c] {x y x' y' : State} (hx : Alike x x') (hy : Alike y y') :
    Alike (if c then x else y) (if c then x' else y') := by
  split
  · exact hx
  · exact hy

/-! ### The named updates -/

theorem Alike.send (h : Alike s s') (bs : List Byte) : Alike (s.send bs) (s'.send bs) := by
  obtain ⟨C, M, rfl, hst⟩ := h
  exact ⟨C, M, rfl, hst⟩

theorem Alike.setPipe (h : Alike s s') (x : Pipe) : Alike (s.setPipe x) (s'.setPipe x) := by
  obtain ⟨C, M, rfl, hst⟩ := h
  exact ⟨C, M, rfl, hst⟩

theorem Alike.setMap (h : Alike s s') (p : Nat) (e : MapEntry) : Alike (s.setMap p e) (s'.setMap p e) := by
  obtain ⟨C, M, rfl, hst⟩ := h
  exact ⟨C, M, rfl, hst⟩

theorem Alike.setProg (h : Alike s s') (i : Nat) (x : ProgSlot) : Alike (s.setProg i x) (s'.setProg i x) := by
  obtain ⟨C, M, rfl, hst⟩ := h
  exact ⟨C, M, rfl, hst⟩

theorem Alike.setDec (h : Alike s s') (d : Nat) (x : DecSlot) : Alike (s.setDec d x) (s'.setDec d x) := by
  obtain ⟨C, M, rfl, hst⟩ := h
  exact ⟨C, M, rfl, hst⟩

/-- Whatever the two machines write to payload memory. -/
theorem Alike.writeMemory (h : Alike s s') (m m' : Memory) : Alike { s with pmem := m } { s' with pmem := m' } := by
  obtain ⟨C, M, rfl, hst⟩ := h
  exact ⟨C, m', rfl, hst⟩

/-- Two contexts with the same flags, written to the same slot. -/
theorem Alike.setCtx (h : Alike s s') (c : Nat) {x x' : Context} (hx : x'.st = x.st) :
    Alike (s.setCtx c x) (s'.setCtx c x') := by
  obtain ⟨C, M, rfl, hst⟩ := h
  refine ⟨Table.set .reset C c x', M, rfl, fun k => ?_⟩
  rw [Table.get_set, State.ctx_setCtx]
  split
  · exact hx
  · exact hst k

theorem Alike.loadDataKey (h : Alike s s') (c : Nat) (key : Bytes16) :
    Alike (s.setCtx c (loadDataKey (s.ctx c) key)) (s'.setCtx c (loadDataKey (s'.ctx c) key)) :=
  h.setCtx c (x := Machine.loadDataKey (s.ctx c) key) (congrArg setFlagDk (h.flags c))

theorem Alike.clearDataKey (h : Alike s s') (c : Nat) :
    Alike (s.setCtx c (clearDataKey (s.ctx c))) (s'.setCtx c (clearDataKey (s'.ctx c))) :=
  h.setCtx c (x := Machine.clearDataKey (s.ctx c)) (congrArg clearFlagDk (h.flags c))

theorem Alike.respond (h : Alike s s') (u : Port) (fields : List Byte) :
    Alike (respond u fields s) (respond u fields s') := by
  cases u with
  | ce => exact h.send _
  | dx => simpa only [Machine.respond, h.pipe] using h.send _

theorem Alike.raise (h : Alike s s') (u : Port) (e : Status) : Alike (raise u e s) (raise u e s') := by
  cases u with
  | ce => exact h.send _
  | dx => simpa only [Machine.raise, h.pipe] using h.send _

/-! ### The shared operations -/

theorem Alike.incDecRef (h : Alike s s') (l : Link) : Alike (incDecRef l s) (incDecRef l s') := by
  cases l with
  | dec d => simpa only [Machine.incDecRef, h.decAt] using h.setDec d _
  | _ => exact h

theorem Alike.decDecRef (h : Alike s s') (l : Link) : Alike (decDecRef l s) (decDecRef l s') := by
  cases l with
  | dec d => simpa only [Machine.decDecRef, h.decAt] using h.setDec d _
  | _ => exact h

theorem Alike.bindPid (h : Alike s s') (p : Nat) (l : Link) : Alike (bindPid p l s) (bindPid p l s') := by
  simp only [Machine.bindPid, h.mapAt]
  split
  · exact (h.setMap _ _).incDecRef _
  · exact .ite (h.setMap _ _) (((h.setMap _ _).decDecRef _).incDecRef _)
  all_goals exact h

theorem Alike.releasePid (h : Alike s s') (p : Nat) : Alike (releasePid p s) (releasePid p s') := by
  simp only [Machine.releasePid, h.mapAt]
  exact .ite (.ite ((h.setMap _ _).decDecRef _) (h.setMap _ _)) h

theorem Alike.releaseList (h : Alike s s') (es : List StreamElem) : Alike (releaseList es s) (releaseList es s') := by
  induction es generalizing s s' with
  | nil => exact h
  | cons e es ih => exact ih (h.releasePid _)

theorem Alike.destroyDec (h : Alike s s') (d : Nat) : Alike (destroyDec d s) (destroyDec d s') := by
  simp only [Machine.destroyDec, h.decAt, h.mapAt]
  exact ((h.setMap _ _).setDec _ _).setCtx _ rfl

theorem Alike.sweepDecs (h : Alike s s') (ds : List Nat) : Alike (sweepDecs ds s) (sweepDecs ds s') := by
  induction ds generalizing s s' with
  | nil => exact h
  | cons d ds ih =>
    simp only [Machine.sweepDecs, h.decAt]
    exact .ite (ih (h.destroyDec d)) (ih h)

theorem Alike.closePmt (h : Alike s s') (i : Nat) : Alike (closePmt i s) (closePmt i s') := by
  simp only [Machine.closePmt, h.progAt]
  exact (h.releaseList _).setProg _ _

/-- Wiping the tables re-initialises the same contexts in both machines (R159, R165). -/
theorem Alike.clearTopology (h : Alike s s') : Alike (clearTopology s) (clearTopology s') := by
  have hst (c : Nat) : ((Machine.clearTopology s').ctx c).st = ((Machine.clearTopology s).ctx c).st := by
    rw [clearTopology_ctx, clearTopology_ctx, h.decAt]
    split
    · rfl
    · exact h.flags c
  obtain ⟨C, M, rfl, -⟩ := h
  exact ⟨_, M, rfl, hst⟩

theorem Alike.enterPhase (h : Alike s s') (ph : Phase) : Alike (enterPhase ph s) (enterPhase ph s') := by
  simpa only [Machine.enterPhase, h.pipe] using h.setPipe _

theorem Alike.advance (h : Alike s s') : Alike (advance s) (advance s') := by
  have hpmt : Alike (advancePmt s) (advancePmt s') := by
    simp only [advancePmt, h.pipe, h.progsParsed]
    exact .ite (h.enterPhase _) h
  simp only [Machine.advance, advanceEcm, hpmt.pipe, hpmt.decsParsed]
  exact .ite (hpmt.enterPhase _) hpmt

theorem Alike.charge (h : Alike s s') (n : Nat) : Alike (charge n s) (charge n s') := by
  simp only [Machine.charge, h.pipe]
  exact .ite (h.setPipe _) h

theorem Alike.countNormal (h : Alike s s') (p : Nat) : Alike (countNormal p s) (countNormal p s') := by
  simpa only [Machine.countNormal, h.mapAt] using h.setMap p _

theorem Alike.countUndec (h : Alike s s') (p : Nat) : Alike (countUndec p s) (countUndec p s') := by
  simpa only [Machine.countUndec, h.mapAt] using h.setMap p _

/-! ### ENCRYPT and DECRYPT -/

/-- The checks of R130 read the flags alone of a context. -/
theorem Alike.chainCheck (h : Alike s s') (t : BitVec 2) (c a n : Nat) : chainCheck t c a n s' = chainCheck t c a n s := by
  simp only [Machine.chainCheck, h.par, h.flags]

/-- Both machines fail with the same status, or both transform the payload, each with its own keys. -/
theorem Alike.chainCommand (h : Alike s s') (dir : Direction) (t : BitVec 2) (c a n : Nat) :
    (∃ e, chainCommand dir t c a n s = .error e ∧ chainCommand dir t c a n s' = .error e) ∨
    (∃ u u', chainCommand dir t c a n s = .ok u ∧ chainCommand dir t c a n s' = .ok u' ∧ Alike u u') := by
  rcases chainCommand_cases dir t c a n s with ⟨e, he, hc⟩ | ⟨hn, hc⟩ <;>
    rcases chainCommand_cases dir t c a n s' with ⟨e', he', hc'⟩ | ⟨hn', hc'⟩ <;>
    rw [h.chainCheck] at *
  · cases he.symm.trans he'
    exact .inl ⟨e, hc, hc'⟩
  · cases he.symm.trans hn'
  · cases hn.symm.trans he'
  · refine .inr ⟨_, _, hc, hc', ?_⟩
    rw [chainRun_only, chainRun_only (s := s')]
    exact h.writeMemory _ _

theorem Alike.chainResponse (h : Alike s s') (dir : Direction) (t : BitVec 2) (c a n : Nat) :
    Alike (chainResponse (Machine.chainCommand dir t c a n s) s)
      (chainResponse (Machine.chainCommand dir t c a n s') s') := by
  rcases h.chainCommand dir t c a n with ⟨e, he, he'⟩ | ⟨u, u', hu, hu', hal⟩
  · rw [he, he']
    exact h.raise .ce e
  · rw [hu, hu']
    exact hal.respond .ce []

end Operations

/-! ### DMX_PACKET -/

section Packet

variable {s : State} {C : Table Context}

/-- The decryptor is found by the flags alone of its context (R150). -/
theorem Alike.descrambler {s' : State} (h : Alike s s') (e : MapEntry) : descrambler s' e = descrambler s e := by
  simp only [Machine.descrambler, h.flags]

/-- Step 11 of R145 in two machines with the same payload memory. -/
theorem Alike.steadyPacket (h : Alike s { s with ce := C }) (a : Nat) (hd : PacketHeader) (p : PayloadSpan) :
    (∃ e, steadyPacket a hd p s = .error e ∧ steadyPacket a hd p { s with ce := C } = .error e) ∨
    (∃ r u u', steadyPacket a hd p s = .ok (r, u) ∧ steadyPacket a hd p { s with ce := C } = .ok (r, u') ∧
      Alike u u') := by
  have hdesc := h.descrambler (s.mapAt hd.pid.toNat)
  unfold Machine.steadyPacket descramble
  simp only [h.mapAt, hdesc]
  split
  · cases Machine.descrambler s (s.mapAt hd.pid.toNat) with
    | none => exact .inr ⟨_, _, _, rfl, rfl, h.countUndec _⟩
    | some d =>
      rcases h.chainCommand .decrypt hd.sc d (a + p.off) p.len with ⟨e, he, he'⟩ | ⟨u, u', hu, hu', hal⟩
      · simp only [he, he']
        exact .inl ⟨_, rfl, rfl⟩
      · simp only [hu, hu']
        exact .inr ⟨_, _, _, rfl, rfl, (hal.writeMemory _ _).countNormal _⟩
  · exact .inr ⟨_, _, _, rfl, rfl, h.countNormal _⟩

theorem Alike.classifyPacket (h : Alike s { s with ce := C }) (a : Nat) (hd : PacketHeader) :
    Alike (classifyPacket a hd s) (classifyPacket a hd { s with ce := C }) := by
  unfold Machine.classifyPacket
  refine .ite ((h.charge 1).respond ..) (.ite ((h.charge _).respond ..) ?_)
  rcases h.steadyPacket a hd (spanAt s a hd) with ⟨e, he, he'⟩ | ⟨r, u, u', hu, hu', hal⟩
  · rw [show spanAt { s with ce := C } a hd = spanAt s a hd from rfl, he, he']
    exact h.raise ..
  · rw [show spanAt { s with ce := C } a hd = spanAt s a hd from rfl, hu, hu']
    exact hal.respond ..

theorem Alike.examinePacket (h : Alike s { s with ce := C }) (a : Nat) :
    Alike (examinePacket a s) (examinePacket a { s with ce := C }) := by
  unfold Machine.examinePacket
  refine .ite (h.respond ..) ?_
  rw [show budgetError { s with ce := C } = budgetError s from rfl]
  cases budgetError s with
  | some e => exact h.raise ..
  | none => exact .ite ((h.charge _).respond ..) (.ite (h.respond ..) (h.classifyPacket ..))

end Packet

/-! ### Every command -/

/-- Both machines go on, and stay alike. -/
def AlikeOutcome (o o' : Host.Outcome State Fault Refusal) : Prop := ∃ u u', o = .next u ∧ o' = .next u' ∧ Alike u u'

theorem Alike.next {u u' : State} (h : Alike u u') : AlikeOutcome (.next u) (.next u') := ⟨u, u', rfl, rfl, h⟩

theorem AlikeOutcome.ite {c : Prop} [Decidable c] {x y x' y' : Host.Outcome State Fault Refusal} (hx : AlikeOutcome x x')
    (hy : AlikeOutcome y y') : AlikeOutcome (if c then x else y) (if c then x' else y') := by
  split
  · exact hx
  · exact hy

variable {s : State} {C : Table Context}

theorem execDmxPacket_alike (h : Alike s { s with ce := C }) (addr : Half) :
    AlikeOutcome (execDmxPacket addr s) (execDmxPacket addr { s with ce := C }) := by
  unfold execDmxPacket
  refine .ite (.ite (h.raise ..).next ?_) (h.raise ..).next
  rw [h.advance.pipe]
  exact .ite (h.advance.respond ..).next (h.examinePacket _).next

theorem execProgAdd_alike (h : Alike s { s with ce := C }) (num pid : Half) :
    AlikeOutcome (execProgAdd num pid s) (execProgAdd num pid { s with ce := C }) := by
  unfold execProgAdd
  refine .ite (h.raise ..).next (.ite (h.raise ..).next (.ite (h.raise ..).next ?_))
  rw [show freeProg { s with ce := C } = freeProg s from rfl]
  cases freeProg s with
  | none => exact (h.raise ..).next
  | some i => exact (((h.setProg ..).setMap ..).respond ..).next

theorem execDecOpen_alike (h : Alike s { s with ce := C }) (pid : Half) :
    AlikeOutcome (execDecOpen pid s) (execDecOpen pid { s with ce := C }) := by
  unfold execDecOpen
  refine .ite ?_ (h.raise ..).next
  rw [show decOfEcm { s with ce := C } (pidOf pid) = decOfEcm s (pidOf pid) from rfl]
  cases decOfEcm s (pidOf pid) with
  | some d => exact (h.respond ..).next
  | none =>
    refine .ite (h.raise ..).next ?_
    rw [show freeDec { s with ce := C } = freeDec s from rfl]
    cases freeDec s with
    | none => exact (h.raise ..).next
    | some d => exact ((((h.setDec ..).setCtx _ rfl).setMap ..).respond ..).next

theorem execStrmBind_alike (h : Alike s { s with ce := C }) (slot : Byte) (pid : Half) (type d : Byte) :
    AlikeOutcome (execStrmBind slot pid type d s) (execStrmBind slot pid type d { s with ce := C }) := by
  unfold execStrmBind
  refine .ite ?_ (h.raise ..).next
  rw [show selectDec { s with ce := C } d = selectDec s d from rfl]
  cases selectDec s d with
  | none => exact (h.raise ..).next
  | some t =>
    exact .ite (h.respond ..).next (.ite (h.raise ..).next (((h.bindPid ..).setProg ..).respond ..).next)

theorem execEcmDone_alike (h : Alike s { s with ce := C }) (d fail : Byte) (rc : Half) (key : Bytes16) :
    AlikeOutcome (execEcmDone d fail rc key s) (execEcmDone d fail rc key { s with ce := C }) :=
  .ite (.ite ((h.clearDataKey _).raise ..).next
    (.ite (((h.loadDataKey ..).setDec ..).advance.respond ..).next
      (((h.clearDataKey _).setDec ..).advance.respond ..).next)) (h.raise ..).next

/-- Every command leaves the two machines alike, its response included (R26). -/
theorem exec_alike (h : Alike s { s with ce := C }) (i : Instr) :
    AlikeOutcome (exec i s) (exec i { s with ce := C }) := by
  cases i with
  | setSystemKey c k =>
    exact .ite ((h.setCtx _ (congrArg setFlagSk (h.flags c.toNat))).respond ..).next (h.raise ..).next
  | setInitVector c v =>
    exact .ite ((h.setCtx _ (congrArg setFlagIv (h.flags c.toNat))).respond ..).next (h.raise ..).next
  | setDataKey c k => exact .ite ((h.loadDataKey ..).respond ..).next (h.raise ..).next
  | clearDataKey c => exact .ite ((h.clearDataKey _).respond ..).next (h.raise ..).next
  | setRound c n =>
    refine .ite (Alike.next (Alike.respond (h.setCtx _ ?_) ..)) (h.raise ..).next
    exact h.flags c.toNat
  | encrypt t c a n => exact (h.chainResponse ..).next
  | decrypt t c a n => exact (h.chainResponse ..).next
  | dmxReset => exact ((h.clearTopology.setPipe _).respond ..).next
  | dmxConfig f n => exact .ite ((h.setPipe _).respond ..).next (h.raise ..).next
  | dmxUnit z => exact .ite (.ite ((h.setPipe _).respond ..).next (h.raise ..).next) (h.raise ..).next
  | dmxPacket a => exact execDmxPacket_alike h a
  | patBegin =>
    exact .ite (h.raise ..).next (Alike.respond (.ite (h.clearTopology.enterPhase _) h.clearTopology) ..).next
  | progAdd n p => exact execProgAdd_alike h n p
  | roleSet p r =>
    have hothers : Alike (vacateOthers (pidOf p).toNat (roleOfByte r) s)
        (vacateOthers (pidOf p).toNat (roleOfByte r) { s with ce := C }) := by
      obtain ⟨C', M, he, hst⟩ := h
      cases he
      exact ⟨C, s.pmem, rfl, hst⟩
    exact .ite (.ite (h.raise ..).next ((hothers.setMap ..).respond ..).next) (h.raise ..).next
  | pmtBegin p c => exact .ite (.ite (h.raise ..).next ((h.setProg ..).respond ..).next) (h.raise ..).next
  | decOpen p => exact execDecOpen_alike h p
  | strmBind p q t d => exact execStrmBind_alike h p q t d
  | pmtEnd p => exact .ite (((h.closePmt _).sweepDecs _).advance.respond ..).next (h.raise ..).next
  | ecmBegin d => exact .ite (.ite ((h.setDec ..).advance.respond ..).next (h.respond ..).next) (h.raise ..).next
  | ecmDone d f r k => exact execEcmDone_alike h d f r k
  | emmOk =>
    have hunlocked : Alike (unlockDecs s) (unlockDecs { s with ce := C }) := by
      obtain ⟨C', M, he, hst⟩ := h
      cases he
      exact ⟨C, s.pmem, rfl, hst⟩
    exact .ite (hunlocked.respond ..).next (h.raise ..).next
  | dmxQuery p => exact .ite (h.respond ..).next (.ite (h.respond ..).next (h.raise ..).next)

/-! ### Payload memory -/

/-- A command that reaches no address changes no payload memory (R61). -/
theorem Effect.pmem {i : Instr} {u : State} (hu : Effect s i u) (hi : ∀ b, ¬ InReach i b) : u.pmem = s.pmem := by
  cases hu with
  | encrypt hr =>
    obtain ⟨-, hn, -⟩ := chainCommand_ok hr
    exact absurd (.inl ⟨_, _, _, _, .inl rfl, le_rfl, by omega⟩) (hi _)
  | decrypt hr =>
    obtain ⟨-, hn, -⟩ := chainCommand_ok hr
    exact absurd (.inl ⟨_, _, _, _, .inr rfl, le_rfl, by omega⟩) (hi _)
  | packetAdvances addr => exact absurd (.inr ⟨addr, rfl, le_rfl, by omega⟩) (hi addr.toNat)
  | packetCharged addr => exact absurd (.inr ⟨addr, rfl, le_rfl, by omega⟩) (hi addr.toNat)
  | packetClear addr => exact absurd (.inr ⟨addr, rfl, le_rfl, by omega⟩) (hi addr.toNat)
  | packetUndec addr => exact absurd (.inr ⟨addr, rfl, le_rfl, by omega⟩) (hi addr.toNat)
  | @packetDescrambled addr => exact absurd (.inr ⟨addr, rfl, le_rfl, by omega⟩) (hi addr.toNat)
  | strmBind => rw [State.setProg_pmem, bindPid_only]
  | pmtEnd => rw [advance_only, sweepDecs_only, closePmt, State.setProg_pmem, releaseList_only]
  | ecmBegin => rw [advance_only]; rfl
  | ecmPurchased => rw [advance_only]; rfl
  | ecmUnpurchased => rw [advance_only]; rfl
  | _ => rfl

/-- Settles O53: the two machines stay alike, and a command that reaches no payload memory leaves it as it was in both. -/
theorem keysCannotBeReadBack : Obligations.KeysCannotBeReadBack := by
  intro i s s' t he hst h
  have hal : Alike s { s with ce := s'.ce } := ⟨s'.ce, s.pmem, rfl, hst⟩
  obtain ⟨u, t', hu, ht', hout⟩ := exec_alike hal i
  rw [← he] at ht'
  cases hu.symm.trans h
  refine ⟨t', ht', ?_, hout.flags, fun hi => ?_⟩
  · obtain ⟨C, M, rfl, -⟩ := hout
    rfl
  · obtain ⟨v, bs, hv, rfl⟩ := effect_of_exec h
    obtain ⟨v', bs', hv', rfl⟩ := effect_of_exec ht'
    rw [State.send_pmem, State.send_pmem, Effect.pmem hv hi, Effect.pmem hv' hi, he]

end Sys2Proof.Safety
end

section
/-! Replacing payload memory (spec/20_memory.md R61, R62): the operations and the commands that do not see it, for which a
machine with other bytes goes on in the same way and keeps them. -/

namespace Sys2Proof.Machine

/-- The machine with `M` as the written bytes of payload memory, and the unwritten ones those of hardware reset `E`. -/
def State.withMemory (M : Memory) (E : Nat) (s : State) : State := { s with pmem := M, epoch := E }

/-! ### Operations that do not see payload memory -/

/-- The operation gives the same result whatever stands in payload memory, and leaves that as it is. -/
def MemoryBlind (f : State → State) : Prop := ∀ M E s, f (s.withMemory M E) = (f s).withMemory M E

/-- A blind operation writes nothing: otherwise it would not give back the machine's own memory. -/
theorem MemoryBlind.readByte {f : State → State} (hf : MemoryBlind f) (s : State) (b : Nat) :
    (f s).readByte b = s.readByte b := by
  have hown : f s = (f s).withMemory s.pmem s.epoch := hf s.pmem s.epoch s
  rw [hown]
  rfl

theorem MemoryBlind.comp {f g : State → State} (hf : MemoryBlind f) (hg : MemoryBlind g) :
    MemoryBlind fun s => f (g s) := fun M E s =>
  (congrArg f (hg M E s)).trans (hf M E (g s))

/-- A test that does not see payload memory chooses between two blind operations. -/
theorem MemoryBlind.ite {c : State → Prop} [DecidablePred c] {f g : State → State}
    (hc : ∀ M E s, c (s.withMemory M E) ↔ c s) (hf : MemoryBlind f) (hg : MemoryBlind g) :
    MemoryBlind fun s => if c s then f s else g s := fun M E s => by
  dsimp only
  rw [hf, hg, apply_ite (State.withMemory M E)]
  exact if_congr (hc M E s) rfl rfl

theorem respond_blind (u : Port) (fields : List Byte) : MemoryBlind (respond u fields) := fun _ _ _ => by
  cases u <;> rfl

theorem raise_blind (u : Port) (e : Status) : MemoryBlind (raise u e) := fun _ _ _ => by
  cases u <;> rfl

theorem charge_blind (n : Nat) : MemoryBlind (charge n) :=
  .ite (fun _ _ _ => Iff.rfl) (fun _ _ _ => rfl) fun _ _ _ => rfl

theorem countNormal_blind (p : Nat) : MemoryBlind (countNormal p) := fun _ _ _ => rfl

theorem countUndec_blind (p : Nat) : MemoryBlind (countUndec p) := fun _ _ _ => rfl

theorem advancePmt_blind : MemoryBlind advancePmt :=
  .ite (fun _ _ _ => Iff.rfl) (fun _ _ _ => rfl) fun _ _ _ => rfl

theorem advanceEcm_blind : MemoryBlind advanceEcm :=
  .ite (fun _ _ _ => Iff.rfl) (fun _ _ _ => rfl) fun _ _ _ => rfl

theorem advance_blind : MemoryBlind advance := advanceEcm_blind.comp advancePmt_blind

theorem incDecRef_blind (l : Link) : MemoryBlind (incDecRef l) := fun _ _ _ => by cases l <;> rfl

theorem decDecRef_blind (l : Link) : MemoryBlind (decDecRef l) := fun _ _ _ => by cases l <;> rfl

theorem bindPid_blind (p : Nat) (l : Link) : MemoryBlind (bindPid p l) := fun M E s => by
  unfold bindPid
  rw [show (s.withMemory M E).mapAt p = s.mapAt p from rfl]
  dsimp only
  split
  · rw [← incDecRef_blind]
    rfl
  · split
    · rfl
    · rw [← incDecRef_blind, ← decDecRef_blind]
      rfl
  all_goals rfl

theorem releasePid_blind (p : Nat) : MemoryBlind (releasePid p) := fun M E s => by
  unfold releasePid
  rw [show (s.withMemory M E).mapAt p = s.mapAt p from rfl]
  dsimp only
  split
  · split
    · exact decDecRef_blind _ M E (s.setMap p _)
    · rfl
  · rfl

theorem releaseList_blind (es : List StreamElem) : MemoryBlind (releaseList es) := fun M E s => by
  induction es generalizing s with
  | nil => rfl
  | cons e es ih =>
    simp only [releaseList]
    rw [releasePid_blind, ih]

theorem sweepDecs_blind (ds : List Nat) : MemoryBlind (sweepDecs ds) := fun M E s => by
  induction ds generalizing s with
  | nil => rfl
  | cons d ds ih =>
    simp only [sweepDecs]
    rw [show (s.withMemory M E).decAt d = s.decAt d from rfl]
    split
    · exact ih (destroyDec d s)
    · exact ih s

theorem closePmt_blind (i : Nat) : MemoryBlind (closePmt i) := fun M E s =>
  congrArg (State.setProg · i _) (releaseList_blind (s.progAt i).old M E s)

/-! ### Commands that do not see payload memory -/

/-- Both outcomes are a next state, and the two states are related by `P`. -/
def BothNext (P : State → State → Prop) (o o' : Host.Outcome State Fault Refusal) : Prop :=
  ∃ u u', o = .next u ∧ o' = .next u' ∧ P u u'

/-- Both machines take the same branch. -/
theorem BothNext.ite {P : State → State → Prop} {c : Prop} [Decidable c]
    {x y x' y' : Host.Outcome State Fault Refusal} (hx : BothNext P x x') (hy : BothNext P y y') :
    BothNext P (if c then x else y) (if c then x' else y') := by
  split
  · exact hx
  · exact hy

/-- The state `u'` is `u` with the payload memory `M` of hardware reset `E`. -/
def MemorySwapped (M : Memory) (E : Nat) (u u' : State) : Prop := u' = u.withMemory M E

section Commands

variable {M : Memory} {E : Nat}

/-- A response to a state that was reached without a look at payload memory. -/
theorem swapped_respond {u u' : State} (h : u' = u.withMemory M E) (port : Port) (fields : List Byte) :
    BothNext (MemorySwapped M E) (.next (respond port fields u)) (.next (respond port fields u')) :=
  ⟨_, _, rfl, rfl, h ▸ respond_blind port fields M E u⟩

theorem swapped_raise {u u' : State} (h : u' = u.withMemory M E) (port : Port) (e : Status) :
    BothNext (MemorySwapped M E) (.next (raise port e u)) (.next (raise port e u')) :=
  ⟨_, _, rfl, rfl, h ▸ raise_blind port e M E u⟩

variable (M E) (s : State)

theorem execProgAdd_swapped (num pid : Half) :
    BothNext (MemorySwapped M E) (execProgAdd num pid s) (execProgAdd num pid (s.withMemory M E)) := by
  unfold execProgAdd
  refine .ite (swapped_raise rfl ..) (.ite (swapped_raise rfl ..) (.ite (swapped_raise rfl ..) ?_))
  rw [show freeProg (s.withMemory M E) = freeProg s from rfl]
  cases freeProg s with
  | none => exact swapped_raise rfl ..
  | some i => exact swapped_respond rfl ..

theorem execDecOpen_swapped (pid : Half) :
    BothNext (MemorySwapped M E) (execDecOpen pid s) (execDecOpen pid (s.withMemory M E)) := by
  unfold execDecOpen
  refine .ite ?_ (swapped_raise rfl ..)
  rw [show decOfEcm (s.withMemory M E) (pidOf pid) = decOfEcm s (pidOf pid) from rfl]
  cases decOfEcm s (pidOf pid) with
  | some d => exact swapped_respond rfl ..
  | none =>
    refine .ite (swapped_raise rfl ..) ?_
    rw [show freeDec (s.withMemory M E) = freeDec s from rfl]
    cases freeDec s with
    | none => exact swapped_raise rfl ..
    | some d => exact swapped_respond rfl ..

theorem execStrmBind_swapped (slot : Byte) (pid : Half) (type d : Byte) :
    BothNext (MemorySwapped M E) (execStrmBind slot pid type d s) (execStrmBind slot pid type d (s.withMemory M E)) := by
  unfold execStrmBind
  refine .ite ?_ (swapped_raise rfl ..)
  rw [show selectDec (s.withMemory M E) d = selectDec s d from rfl]
  cases selectDec s d with
  | none => exact swapped_raise rfl ..
  | some l =>
    refine .ite (swapped_respond rfl ..) (.ite (swapped_raise rfl ..) (swapped_respond ?_ ..))
    rw [bindPid_blind]
    rfl

/-- The commands that R61 gives no range of payload memory. -/
def memoryFree : Instr → Bool
  | .encrypt _ _ _ _ => false
  | .decrypt _ _ _ _ => false
  | .dmxPacket _ => false
  | _ => true

/-- A command without a range goes on in the same way whatever stands in payload memory, and leaves that as it is (R61). -/
theorem exec_swapped {i : Instr} (hi : memoryFree i = true) :
    BothNext (MemorySwapped M E) (exec i s) (exec i (s.withMemory M E)) := by
  cases i with
  | encrypt | decrypt | dmxPacket => cases hi
  | setSystemKey | setInitVector | setDataKey | clearDataKey | setRound | dmxConfig | emmOk =>
    exact .ite (swapped_respond rfl ..) (swapped_raise rfl ..)
  | dmxReset => exact swapped_respond rfl ..
  | dmxUnit =>
    exact .ite (.ite (swapped_respond rfl ..) (swapped_raise rfl ..)) (swapped_raise rfl ..)
  | patBegin =>
    exact .ite (swapped_raise rfl ..)
      (swapped_respond (apply_ite (State.withMemory M E) _ _ _).symm ..)
  | progAdd n p => exact execProgAdd_swapped M E s n p
  | roleSet | pmtBegin =>
    exact .ite (.ite (swapped_raise rfl ..) (swapped_respond rfl ..)) (swapped_raise rfl ..)
  | decOpen p => exact execDecOpen_swapped M E s p
  | strmBind p q t d => exact execStrmBind_swapped M E s p q t d
  | pmtEnd p =>
    exact .ite (swapped_respond (((advance_blind.comp (sweepDecs_blind _)).comp (closePmt_blind _)) M E s) ..)
      (swapped_raise rfl ..)
  | ecmBegin =>
    exact .ite (.ite (swapped_respond (advance_blind M E _) ..) (swapped_respond rfl ..))
      (swapped_raise rfl ..)
  | ecmDone =>
    exact .ite (.ite (swapped_raise rfl ..) (.ite (swapped_respond (advance_blind M E _) ..)
      (swapped_respond (advance_blind M E _) ..))) (swapped_raise rfl ..)
  | dmxQuery =>
    exact .ite (swapped_respond rfl ..) (.ite (swapped_respond rfl ..) (swapped_raise rfl ..))

variable {s}

/-- A command without a range writes nothing: its next state carries the machine's own memory. -/
theorem exec_readByte_of_memoryFree {i : Instr} {t : State} (hi : memoryFree i = true) (h : exec i s = .next t)
    (b : Nat) : t.readByte b = s.readByte b := by
  obtain ⟨u, u', hu, hu', hswap⟩ := exec_swapped s.pmem s.epoch s hi
  cases hu.symm.trans h
  have hsame : t = u' := Host.Outcome.next.inj (h.symm.trans hu')
  have hown : t = t.withMemory s.pmem s.epoch := hsame.trans hswap
  rw [hown]
  rfl

end Commands

end Sys2Proof.Machine
end

section
/-! Which bytes of payload memory a command changes (spec/20_memory.md R61): the commands with a range, and the statement of
R61 for all of them. -/

namespace Sys2Proof.Machine

/-! ### The payload of a packet -/

/-- The payload of a packet that is not corrupt ends with the packet (R141). -/
theorem payloadSpan_fits {afc : BitVec 2} {afl : Byte} (h : (payloadSpan afc afl).corrupt = false) :
    (payloadSpan afc afl).off + (payloadSpan afc afl).len ≤ 188 := by
  unfold payloadSpan at h ⊢
  simp only [Bool.or_eq_false_iff, decide_eq_false_iff_not] at h
  obtain ⟨hn, -⟩ := h
  dsimp only
  generalize (if afc.getLsbD 1 then 5 + afl.toNat else 4) = off at hn ⊢
  split <;> omega

theorem spanAt_fits {s : State} {a : Nat} {h : PacketHeader} (hc : (spanAt s a h).corrupt = false) :
    (spanAt s a h).off + (spanAt s a h).len ≤ 188 := payloadSpan_fits hc

/-! ### What the commands with a range leave unchanged -/

variable {s u : State} {b : Nat}

/-- A transform leaves every byte outside its range alone (R61). -/
theorem chainCommand_ok_readByte {dir : Direction} {t : BitVec 2} {c a n : Nat}
    (h : chainCommand dir t c a n s = .ok u) (hb : b < a ∨ a + n ≤ b) : u.readByte b = s.readByte b := by
  obtain ⟨-, -, -, rfl⟩ := chainCommand_ok h
  exact chainRun_outside _ _ _ _ _ _ _ hb

theorem chainResponse_readByte (dir : Direction) (t : BitVec 2) (c a n : Nat) (hb : b < a ∨ a + n ≤ b) :
    (chainResponse (chainCommand dir t c a n s) s).readByte b = s.readByte b := by
  cases h : chainCommand dir t c a n s with
  | error e => exact raise_readByte ..
  | ok u => exact (respond_readByte ..).trans (chainCommand_ok_readByte h hb)

/-- Step 11 of R145 writes the byte of the scrambling control and the payload (R150). -/
theorem steadyPacket_ok_readByte {a : Nat} {h : PacketHeader} {p : PayloadSpan} {r : Route}
    (hok : steadyPacket a h p s = .ok (r, u)) (hctrl : b ≠ a + 3) (hb : b < a + p.off ∨ a + p.off + p.len ≤ b) :
    u.readByte b = s.readByte b := by
  rcases steadyPacket_cases a h p s with ⟨-, he⟩ | ⟨-, -, he⟩ | ⟨-, d, v, -, hv, he⟩ | ⟨-, d, e, -, -, he⟩
  all_goals cases he.symm.trans hok
  · rfl
  · rfl
  · rw [(countNormal_blind _).readByte, State.readByte_writeByte_ne _ _ hctrl]
    exact chainCommand_ok_readByte hv hb

theorem classifyPacket_readByte {a : Nat} (hctrl : b ≠ a + 3)
    (hb : b < a + (spanAt s a (headerAt s a)).off ∨ a + 188 ≤ b) :
    (classifyPacket a (headerAt s a) s).readByte b = s.readByte b := by
  rcases classifyPacket_cases a s with ⟨-, he⟩ | ⟨-, -, he⟩ | ⟨-, -, e, -, he⟩ | ⟨hc, -, r, u, hs, he⟩ <;> rw [he]
  · rw [respond_readByte, (charge_blind 1).readByte]
  · rw [respond_readByte, (charge_blind _).readByte]
  · exact raise_readByte ..
  · have hfits := spanAt_fits hc
    rw [respond_readByte]
    exact steadyPacket_ok_readByte hs hctrl (by omega)

theorem examinePacket_readByte {a : Nat} (hctrl : b ≠ a + 3)
    (hb : b < a + (spanAt s a (headerAt s a)).off ∨ a + 188 ≤ b) : (examinePacket a s).readByte b = s.readByte b := by
  rcases examinePacket_cases a s with ⟨-, he⟩ | ⟨-, e, -, he⟩ | ⟨-, -, -, he⟩ | ⟨-, -, -, -, he⟩ | ⟨-, -, -, -, he⟩ <;>
    rw [he]
  · exact respond_readByte ..
  · exact raise_readByte ..
  · rw [respond_readByte, (charge_blind _).readByte]
  · exact respond_readByte ..
  · exact classifyPacket_readByte hctrl hb

/-- DMX_PACKET writes the byte of the scrambling control and from the payload's offset to the packet's end (R61). -/
theorem execDmxPacket_readByte {addr : Half} (h : execDmxPacket addr s = .next u) (hctrl : b ≠ addr.toNat + 3)
    (hb : b < addr.toNat + (spanAt s addr.toNat (headerAt s addr.toNat)).off ∨ addr.toNat + 188 ≤ b) :
    u.readByte b = s.readByte b := by
  rcases execDmxPacket_cases addr s with ⟨-, he⟩ | ⟨-, -, he⟩ | ⟨-, -, -, he⟩ | ⟨-, -, -, he⟩
  all_goals cases he.symm.trans h
  · exact raise_readByte ..
  · exact raise_readByte ..
  · rw [respond_readByte, advance_blind.readByte]
  · exact examinePacket_readByte hctrl hb

end Sys2Proof.Machine

namespace Sys2Proof.Safety

open Sys2Proof.Machine

/-! ### Every command -/

/-- Outside the reach of the transform of `n` bytes at `a`, as two cases of an address. -/
theorem outside_of_not_within {a n b : Nat} (h : ¬ (a ≤ b ∧ b < a + n)) : b < a ∨ a + n ≤ b := by omega

/-- Settles O51: a transform stays in its range, DMX_PACKET in the control byte and the payload, and a command without a range
writes nothing. -/
theorem memoryWriters : Obligations.MemoryWriters := by
  intro i s t b h hb
  cases i with
  | encrypt k c a n =>
    cases h
    exact chainResponse_readByte _ _ _ _ _ (outside_of_not_within fun hr => hb (.inl ⟨k, c, a, n, .inl rfl, hr⟩))
  | decrypt k c a n =>
    cases h
    exact chainResponse_readByte _ _ _ _ _ (outside_of_not_within fun hr => hb (.inl ⟨k, c, a, n, .inr rfl, hr⟩))
  | dmxPacket a =>
    obtain ⟨hctrl, hr⟩ := not_or.mp fun hr => hb (.inr ⟨a, rfl, hr⟩)
    exact execDmxPacket_readByte h hctrl (by omega)
  | _ => exact exec_readByte_of_memoryFree rfl h b

end Sys2Proof.Safety
end

section
/-! Which bytes of payload memory a command reads (spec/20_memory.md R61, R62): two machines whose payload memories agree within
a command's reach answer alike and still agree there. -/

namespace Sys2Proof.Safety

open Sys2Proof.Machine

/-! ### Machines whose payload memories agree -/

/-- The two states differ in payload memory alone, and at no address of `R`. -/
def AgreeOn (R : Nat → Prop) (s s' : State) : Prop :=
  ∃ M E, s' = s.withMemory M E ∧ ∀ b, R b → s'.readByte b = s.readByte b

/-- The addresses of `[a, a+n)` are all in `R`. -/
def Covers (R : Nat → Prop) (a n : Nat) : Prop := ∀ b, a ≤ b ∧ b < a + n → R b

theorem Covers.first {R : Nat → Prop} {a n : Nat} (h : Covers R a n) (hn : 0 < n) : R a := h a (by omega)

theorem Covers.mem {R : Nat → Prop} {a n : Nat} (h : Covers R a n) (k : Nat) (hk : k < n) : R (a + k) :=
  h _ (by omega)

theorem Covers.sub {R : Nat → Prop} {a n a' n' : Nat} (h : Covers R a n) (ha : a ≤ a') (hn : a' + n' ≤ a + n) :
    Covers R a' n' := fun _ hb => h _ (by omega)

section Operations

variable {R : Nat → Prop} {s s' : State}

theorem AgreeOn.ctx (h : AgreeOn R s s') (c : Nat) : s'.ctx c = s.ctx c := by obtain ⟨M, E, rfl, -⟩ := h; rfl

theorem AgreeOn.readByte (h : AgreeOn R s s') {b : Nat} (hb : R b) : s'.readByte b = s.readByte b := by
  obtain ⟨M, E, -, hr⟩ := h
  exact hr b hb

/-- A blind operation keeps the agreement. -/
theorem AgreeOn.map (h : AgreeOn R s s') {f : State → State} (hf : MemoryBlind f) : AgreeOn R (f s) (f s') := by
  have hread (b : Nat) (hb : R b) : s'.readByte b = s.readByte b := h.readByte hb
  obtain ⟨M, E, rfl, -⟩ := h
  refine ⟨M, E, hf M E s, fun b hb => ?_⟩
  rw [hf.readByte, hf.readByte, hread b hb]

theorem AgreeOn.respond (h : AgreeOn R s s') (u : Port) (fields : List Byte) :
    AgreeOn R (respond u fields s) (respond u fields s') := h.map (respond_blind u fields)

theorem AgreeOn.raise (h : AgreeOn R s s') (u : Port) (e : Status) : AgreeOn R (raise u e s) (raise u e s') :=
  h.map (raise_blind u e)

/-- The same byte written in both machines. -/
theorem AgreeOn.writeByte (h : AgreeOn R s s') (a : Nat) (v : Byte) : AgreeOn R (s.writeByte a v) (s'.writeByte a v) := by
  have hread (b : Nat) (hb : R b) : s'.readByte b = s.readByte b := h.readByte hb
  obtain ⟨M, E, rfl, -⟩ := h
  refine ⟨Table.put M a v, E, rfl, fun b hb => ?_⟩
  rw [State.readByte_writeByte, State.readByte_writeByte, hread b hb]

theorem AgreeOn.writeBytes (h : AgreeOn R s s') (a : Nat) (vs : List Byte) :
    AgreeOn R (s.writeBytes a vs) (s'.writeBytes a vs) := by
  induction vs generalizing s s' a with
  | nil => exact h
  | cons v vs ih => exact ih (h.writeByte a v) (a + 1)

/-- Eight bytes read where the two memories agree. -/
theorem AgreeOn.readBytes8 (h : AgreeOn R s s') {a : Nat} (hR : Covers R a 8) :
    s'.readBytes8 a = s.readBytes8 a := by
  have hread (k : Nat) (hk : k < 8) : s'.readByte (a + k) = s.readByte (a + k) := h.readByte (hR.mem k hk)
  unfold State.readBytes8
  rw [show s'.readByte a = s.readByte a from hread 0 (by decide), hread 1 (by decide), hread 2 (by decide),
    hread 3 (by decide), hread 4 (by decide), hread 5 (by decide), hread 6 (by decide), hread 7 (by decide)]

theorem AgreeOn.ite {c : Prop} [Decidable c] {x y x' y' : State} (hx : c → AgreeOn R x x') (hy : ¬ c → AgreeOn R y y') :
    AgreeOn R (if c then x else y) (if c then x' else y') := by
  split
  · next hc => exact hx hc
  · next hc => exact hy hc

/-! ### ENCRYPT and DECRYPT -/

/-- One block within the agreement: the same chaining value, and the same bytes written. -/
theorem AgreeOn.chainBlock (h : AgreeOn R s s') (dir : Direction) (w : Words8) (r : Nat) {a : Nat} (cbc : Block)
    (hR : Covers R a 8) :
    (chainBlock dir w r a cbc s').1 = (chainBlock dir w r a cbc s).1 ∧
      AgreeOn R (chainBlock dir w r a cbc s).2 (chainBlock dir w r a cbc s').2 := by
  unfold Machine.chainBlock
  rw [h.readBytes8 hR]
  cases dir with
  | encrypt => exact ⟨rfl, h.writeBytes ..⟩
  | decrypt => exact ⟨rfl, h.writeBytes ..⟩

theorem AgreeOn.chainBlocks (h : AgreeOn R s s') (dir : Direction) (w : Words8) (r q : Nat) {a : Nat} (cbc : Block)
    (hR : Covers R a (8 * q)) :
    (chainBlocks dir w r q a cbc s').1 = (chainBlocks dir w r q a cbc s).1 ∧
      AgreeOn R (chainBlocks dir w r q a cbc s).2 (chainBlocks dir w r q a cbc s').2 := by
  induction q generalizing a cbc s s' with
  | zero => exact ⟨rfl, h⟩
  | succ q ih =>
    obtain ⟨hcbc, hblock⟩ := h.chainBlock dir w r cbc (hR.sub le_rfl (by omega))
    simp only [Machine.chainBlocks, hcbc]
    exact ih hblock _ (hR.sub (by omega) (by omega))

theorem AgreeOn.chainTail (h : AgreeOn R s s') (ks : List Byte) {a : Nat} (hR : Covers R a ks.length) :
    AgreeOn R (chainTail ks a s) (chainTail ks a s') := by
  induction ks generalizing a s s' with
  | nil => exact h
  | cons k ks ih =>
    simp only [List.length_cons] at hR
    simp only [Machine.chainTail]
    rw [h.readByte (hR.first (by omega))]
    exact ih (h.writeByte ..) (hR.sub (by omega) (by omega))

/-- The transform reads its range alone (R62). -/
theorem AgreeOn.chainRun (h : AgreeOn R s s') (dir : Direction) (w : Words8) (r : Nat) (iv : Block) {a n : Nat}
    (hR : Covers R a n) : AgreeOn R (chainRun dir w r iv a n s) (chainRun dir w r iv a n s') := by
  obtain ⟨hcbc, hblocks⟩ := h.chainBlocks dir w r (n / 8) iv (hR.sub le_rfl (by omega))
  simp only [Machine.chainRun, hcbc]
  refine .ite (fun _ => hblocks) fun _ => hblocks.chainTail _ (hR.sub (by omega) ?_)
  simp only [List.length_take, bytes8List_length]
  omega

/-- Both machines fail with the same status, or both transform the payload. -/
theorem AgreeOn.chainCommand (h : AgreeOn R s s') (dir : Direction) (t : BitVec 2) (c : Nat) {a n : Nat}
    (hR : Covers R a n) :
    (∃ e, chainCommand dir t c a n s = .error e ∧ chainCommand dir t c a n s' = .error e) ∨
    (∃ u u', chainCommand dir t c a n s = .ok u ∧ chainCommand dir t c a n s' = .ok u' ∧ AgreeOn R u u') := by
  have hcheck : chainCheck t c a n s' = chainCheck t c a n s := by obtain ⟨M, E, rfl, -⟩ := h; rfl
  simp only [Machine.chainCommand, hcheck, h.ctx]
  cases chainCheck t c a n s with
  | some e => exact .inl ⟨e, rfl, rfl⟩
  | none => exact .inr ⟨_, _, rfl, rfl, h.chainRun dir _ _ _ hR⟩

theorem AgreeOn.chainResponse (h : AgreeOn R s s') (dir : Direction) (t : BitVec 2) (c : Nat) {a n : Nat}
    (hR : Covers R a n) :
    AgreeOn R (chainResponse (Machine.chainCommand dir t c a n s) s)
      (chainResponse (Machine.chainCommand dir t c a n s') s') := by
  rcases h.chainCommand dir t c hR with ⟨e, he, he'⟩ | ⟨u, u', hu, hu', hag⟩
  · rw [he, he']
    exact h.raise .ce e
  · rw [hu, hu']
    exact hag.respond .ce []

end Operations

/-! ### DMX_PACKET -/

section Packet

variable {R : Nat → Prop} {s : State} {M : Memory} {E a : Nat}

theorem AgreeOn.headerAt {s' : State} (h : AgreeOn R s s') (hR : Covers R a 188) :
    headerAt s' a = headerAt s a := by
  unfold Machine.headerAt
  rw [h.readByte (hR.first (by decide)), h.readByte (hR.mem 1 (by decide)), h.readByte (hR.mem 2 (by decide)),
    h.readByte (hR.mem 3 (by decide))]

theorem AgreeOn.spanAt {s' : State} (h : AgreeOn R s s') (hR : Covers R a 188) (hd : PacketHeader) :
    spanAt s' a hd = spanAt s a hd := by
  unfold Machine.spanAt
  rw [h.readByte (hR.mem 4 (by decide))]

/-- Step 11 of R145, for a payload within the packet. -/
theorem AgreeOn.steadyPacket (h : AgreeOn R s (s.withMemory M E)) (hR : Covers R a 188)
    (hd : PacketHeader) {p : PayloadSpan} (hp : p.off + p.len ≤ 188) :
    (∃ e, steadyPacket a hd p s = .error e ∧ steadyPacket a hd p (s.withMemory M E) = .error e) ∨
    (∃ r u u', steadyPacket a hd p s = .ok (r, u) ∧ steadyPacket a hd p (s.withMemory M E) = .ok (r, u') ∧
      AgreeOn R u u') := by
  have hctrl : R (a + 3) := hR.mem 3 (by decide)
  have hpayload : Covers R (a + p.off) p.len := hR.sub (by omega) (by omega)
  have hmap : (s.withMemory M E).mapAt = s.mapAt := rfl
  have hdesc : descrambler (s.withMemory M E) = descrambler s := rfl
  have hclear : clearRoute (s.withMemory M E) = clearRoute s := rfl
  unfold Machine.steadyPacket descramble
  simp only [hmap, hdesc, hclear]
  split
  · cases descrambler s (s.mapAt hd.pid.toNat) with
    | none => exact .inr ⟨_, _, _, rfl, rfl, h.map (countUndec_blind _)⟩
    | some d =>
      rcases h.chainCommand .decrypt hd.sc d hpayload with ⟨e, he, he'⟩ | ⟨u, u', hu, hu', hag⟩
      · simp only [he, he']
        exact .inl ⟨_, rfl, rfl⟩
      · simp only [hu, hu', h.readByte hctrl]
        exact .inr ⟨_, _, _, rfl, rfl, (hag.writeByte ..).map (countNormal_blind _)⟩
  · exact .inr ⟨_, _, _, rfl, rfl, h.map (countNormal_blind _)⟩

theorem AgreeOn.classifyPacket (h : AgreeOn R s (s.withMemory M E)) (hR : Covers R a 188)
    (hd : PacketHeader) : AgreeOn R (classifyPacket a hd s) (classifyPacket a hd (s.withMemory M E)) := by
  unfold Machine.classifyPacket
  rw [h.spanAt hR hd]
  refine .ite (fun _ => (h.map (charge_blind 1)).respond ..) fun hc =>
    .ite (fun _ => (h.map (charge_blind _)).respond ..) fun _ => ?_
  rcases h.steadyPacket hR hd (spanAt_fits (Bool.not_eq_true _ ▸ hc)) with ⟨e, he, he'⟩ | ⟨r, u, u', hu, hu', hag⟩
  · rw [he, he']
    exact h.raise ..
  · rw [hu, hu']
    exact hag.respond ..

theorem AgreeOn.examinePacket (h : AgreeOn R s (s.withMemory M E)) (hR : Covers R a 188) :
    AgreeOn R (examinePacket a s) (examinePacket a (s.withMemory M E)) := by
  unfold Machine.examinePacket
  rw [h.headerAt hR]
  refine .ite (fun _ => h.respond ..) fun _ => ?_
  rw [show budgetError (s.withMemory M E) = budgetError s from rfl]
  cases budgetError s with
  | some e => exact h.raise ..
  | none =>
    exact .ite (fun _ => (h.map (charge_blind _)).respond ..) fun _ =>
      .ite (fun _ => h.respond ..) fun _ => h.classifyPacket hR _

end Packet

/-! ### Every command -/

section Commands

variable {R : Nat → Prop} {s : State} {M : Memory} {E : Nat}

theorem AgreeOn.next {u u' : State} (h : AgreeOn R u u') : BothNext (AgreeOn R) (.next u) (.next u') :=
  ⟨u, u', rfl, rfl, h⟩

/-- A command without a range leaves both memories as they are. -/
theorem exec_agree_of_memoryFree {i : Instr} (hi : memoryFree i = true) (h : AgreeOn R s (s.withMemory M E)) :
    BothNext (AgreeOn R) (exec i s) (exec i (s.withMemory M E)) := by
  obtain ⟨u, u', hu, hu', hswap⟩ := exec_swapped M E s hi
  refine ⟨u, u', hu, hu', M, E, hswap, fun b hb => ?_⟩
  rw [exec_readByte_of_memoryFree hi hu, exec_readByte_of_memoryFree hi hu', h.readByte hb]

theorem execDmxPacket_agree (h : AgreeOn R s (s.withMemory M E)) {addr : Half}
    (hR : Covers R addr.toNat 188) :
    BothNext (AgreeOn R) (execDmxPacket addr s) (execDmxPacket addr (s.withMemory M E)) := by
  have hadv := h.map advance_blind
  unfold execDmxPacket
  refine .ite (.ite (h.raise ..).next ?_) (h.raise ..).next
  rw [advance_blind] at hadv ⊢
  exact .ite (hadv.respond ..).next (h.examinePacket hR).next

/-- Every command leaves the two machines in agreement over a set that holds its reach, its response included (R62). -/
theorem exec_agree {i : Instr} (h : AgreeOn R s (s.withMemory M E)) (hR : ∀ b, InReach i b → R b) :
    BothNext (AgreeOn R) (exec i s) (exec i (s.withMemory M E)) := by
  cases i with
  | encrypt t c a n =>
    exact (h.chainResponse .encrypt t _ fun b hb => hR b (.inl ⟨t, c, a, n, .inl rfl, hb⟩)).next
  | decrypt t c a n =>
    exact (h.chainResponse .decrypt t _ fun b hb => hR b (.inl ⟨t, c, a, n, .inr rfl, hb⟩)).next
  | dmxPacket a => exact execDmxPacket_agree h fun b hb => hR b (.inr ⟨a, rfl, hb⟩)
  | _ => exact exec_agree_of_memoryFree rfl h

end Commands

/-- Settles O52: agreement within the reach of a command is kept, and all else of the two machines stays equal. -/
theorem memoryReaders : Obligations.MemoryReaders := by
  intro i s s' t he hreach h
  have hag : AgreeOn (InReach i) s (s.withMemory s'.pmem s'.epoch) := ⟨_, _, rfl, fun b hb => he ▸ hreach b hb⟩
  obtain ⟨u, t', hu, ht', M, E, rfl, hread⟩ := exec_agree hag fun _ hb => hb
  cases hu.symm.trans h
  exact ⟨_, he ▸ ht', rfl, hread⟩

end Sys2Proof.Safety
end

section
/-! The bytes of a command (spec/30_encoding.md R80, R81, R83, R84, R92): the decoder undoes the encoder, and every byte
string that has an opcode byte of R84 and the length of its row is the encoding of a command. -/

namespace Sys2Proof

open Sys2Proof.Machine

/-! ### Decoding an encoding -/

@[simp] theorem take8_bytes8List (x : Bytes8) (rest : List Byte) : take8 (bytes8List x ++ rest) = some (x, rest) := rfl

@[simp] theorem take16_bytes16List (x : Bytes16) (rest : List Byte) : take16 (bytes16List x ++ rest) = some (x, rest) := rfl

@[simp] theorem take32_bytes32List (x : Bytes32) (rest : List Byte) : take32 (bytes32List x ++ rest) = some (x, rest) := rfl

/-- An opcode byte of R84 and the operands of its row are a command. -/
theorem decode_of_operands {b : Byte} {row : OpcodeRow} {bs rest : List Byte} {i : Instr} (hr : opcodeRow b = some row)
    (ho : decodeOperands row.mnemonic b bs = some (i, rest)) : decode (b :: bs) = .command i rest := by
  simp only [decode, hr, ho]

/-- Whatever `T` is in the low bits, the opcode byte selects the row ENCRYPT (R84, R85). -/
theorem opcodeRow_encrypt (t : BitVec 2) : opcodeRow (0x10 ||| t.zeroExtend 8) = some ⟨.encrypt, 0x10, 0xFC, 6⟩ := by
  revert t
  decide

/-- Whatever `T` is in the low bits, the opcode byte selects the row DECRYPT (R84, R85). -/
theorem opcodeRow_decrypt (t : BitVec 2) : opcodeRow (0x14 ||| t.zeroExtend 8) = some ⟨.decrypt, 0x14, 0xFC, 6⟩ := by
  revert t
  decide

/-- The decoder reads `T` back from the opcode byte of ENCRYPT (R81, R85). -/
theorem lowBits_encrypt (t : BitVec 2) : (0x10#8 ||| t.setWidth 8).extractLsb' 0 2 = t := by
  revert t
  decide

/-- The decoder reads `T` back from the opcode byte of DECRYPT (R81, R85). -/
theorem lowBits_decrypt (t : BitVec 2) : (0x14#8 ||| t.setWidth 8).extractLsb' 0 2 = t := by
  revert t
  decide

/-- Decoding undoes encoding, one command at a time: the opcode byte selects the row, the row's format puts every field
back together. -/
theorem decode_encode (i : Instr) (rest : List Byte) : decode (encode i ++ rest) = .command i rest := by
  cases i with
  | setSystemKey c k => exact decode_of_operands rfl (by simp [decodeOperands])
  | setInitVector c v => exact decode_of_operands rfl (by simp [decodeOperands])
  | setDataKey c k => exact decode_of_operands rfl (by simp [decodeOperands])
  | clearDataKey c => rfl
  | setRound c n => rfl
  | encrypt t c a n =>
    exact decode_of_operands (opcodeRow_encrypt t) (by simp [decodeOperands, bytesBe16, be16_bytes, lowBits_encrypt])
  | decrypt t c a n =>
    exact decode_of_operands (opcodeRow_decrypt t) (by simp [decodeOperands, bytesBe16, be16_bytes, lowBits_decrypt])
  | dmxReset => rfl
  | dmxConfig f n => rfl
  | dmxUnit z => exact decode_of_operands rfl (by simp [decodeOperands, bytesBe16, be16_bytes])
  | dmxPacket a => exact decode_of_operands rfl (by simp [decodeOperands, bytesBe16, be16_bytes])
  | patBegin => rfl
  | progAdd n p => exact decode_of_operands rfl (by simp [decodeOperands, bytesBe16, be16_bytes])
  | roleSet p x => exact decode_of_operands rfl (by simp [decodeOperands, bytesBe16, be16_bytes])
  | pmtBegin p c => exact decode_of_operands rfl (by simp [decodeOperands, bytesBe16, be16_bytes])
  | decOpen p => exact decode_of_operands rfl (by simp [decodeOperands, bytesBe16, be16_bytes])
  | strmBind p q t d => exact decode_of_operands rfl (by simp [decodeOperands, bytesBe16, be16_bytes])
  | pmtEnd p => rfl
  | ecmBegin d => rfl
  | ecmDone d f r k => exact decode_of_operands rfl (by simp [decodeOperands, bytesBe16, be16_bytes])
  | emmOk => rfl
  | dmxQuery p => rfl

/-- Settles O1: the case split over the commands is `decode_encode`. -/
theorem decodeOfEncode : Obligations.DecodeOfEncode := decode_encode

/-- Settles O6: each printed byte string is the encoding of the command printed beside it. -/
theorem publishedBytesDecode : Obligations.PublishedBytesDecode :=
  ⟨decode_encode (.decrypt 2 0x00 0x0104 0x00B8) [], decode_encode (.setRound 0x00 0x10) [],
    decode_encode (.dmxPacket 0x0300) [], decode_encode (.dmxUnit 0x00BC) [], decode_encode .patBegin [],
    decode_encode (.progAdd 0x0064 0x0020) [], decode_encode (.decOpen 0x0030) [],
    decode_encode (.strmBind 0x00 0x0041 0x02 0x00) []⟩

/-! ### The rows of the opcode table -/

theorem opcodeRow_some {b : Byte} {row : OpcodeRow} (h : opcodeRow b = some row) :
    row ∈ opcodeTable ∧ b &&& row.mask = row.pattern :=
  ⟨List.mem_of_find?_eq_some h, by simpa using List.find?_some h⟩

theorem commandLength_of_row {b : Byte} {row : OpcodeRow} (h : opcodeRow b = some row) : commandLength b = row.length := by
  simp only [commandLength, h]

theorem commandLength_of_reserved {b : Byte} (h : opcodeRow b = none) : commandLength b = 1 := by
  simp only [commandLength, h]

/-- Two rows that the same byte selects ask the same of the bits both masks keep. -/
theorem row_unique {b : Byte} {row other : OpcodeRow} (hr : row ∈ opcodeTable) (ho : other ∈ opcodeTable)
    (hb : b &&& row.mask = row.pattern) (hb' : b &&& other.mask = other.pattern) : other = row := by
  have hsame : row.pattern &&& other.mask = other.pattern &&& row.mask := by
    rw [← hb, ← hb', BitVec.and_assoc, BitVec.and_comm row.mask, BitVec.and_assoc]
  have htable : ∀ x ∈ opcodeTable, ∀ y ∈ opcodeTable, x.pattern &&& y.mask = y.pattern &&& x.mask → y = x := by decide
  exact htable row hr other ho hsame

/-- The opcode bytes that select no row (R92). -/
theorem opcodeRow_eq_none_iff (b : Byte) : opcodeRow b = none ↔
    b = 0x00 ∨ (0x06 ≤ b.toNat ∧ b.toNat ≤ 0x0F) ∨ (0x18 ≤ b.toNat ∧ b.toNat ≤ 0x1F) ∨ 0x2F ≤ b.toNat := by
  revert b
  decide

/-- An opcode byte of a row whose mask keeps the upper six bits is the row's pattern with `T` in the low bits (R81). -/
theorem pattern_or_lowBits (b : Byte) : (b &&& 0xFC) ||| (b.extractLsb' 0 2).zeroExtend 8 = b := by
  revert b
  decide

/-! ### Every byte string of a row's length is an encoding -/

/-- Eight bytes are an operand of that width. -/
theorem exists_bytes8List {bs : List Byte} (h : bs.length = 8) : ∃ x, bytes8List x = bs :=
  let [b0, b1, b2, b3, b4, b5, b6, b7] := bs
  ⟨⟨b0, b1, b2, b3, b4, b5, b6, b7⟩, rfl⟩

theorem exists_bytes16List {bs : List Byte} (h : bs.length = 16) : ∃ x, bytes16List x = bs := by
  obtain ⟨x, hx⟩ := exists_bytes8List (bs := bs.take 8) (by simp [h])
  obtain ⟨y, hy⟩ := exists_bytes8List (bs := bs.drop 8) (by simp [h])
  exact ⟨⟨x, y⟩, by rw [bytes16List, hx, hy, List.take_append_drop]⟩

theorem exists_bytes32List {bs : List Byte} (h : bs.length = 32) : ∃ x, bytes32List x = bs := by
  obtain ⟨x, hx⟩ := exists_bytes16List (bs := bs.take 16) (by simp [h])
  obtain ⟨y, hy⟩ := exists_bytes16List (bs := bs.drop 16) (by simp [h])
  refine ⟨⟨x.odd, x.even, y.odd, y.even⟩, ?_⟩
  calc bytes32List ⟨x.odd, x.even, y.odd, y.even⟩
    _ = bytes16List x ++ bytes16List y := by simp [bytes32List, bytes16List]
    _ = bs := by rw [hx, hy, List.take_append_drop]

/-- An opcode byte of R84 and operand bytes to the length of its row are the encoding of a command. -/
theorem exists_encode {b : Byte} {row : OpcodeRow} (hr : opcodeRow b = some row) {ops : List Byte}
    (hl : ops.length + 1 = row.length) : ∃ i, encode i = b :: ops := by
  obtain ⟨hmem, hb⟩ := opcodeRow_some hr
  have hfull (h : row.mask = 0xFF) : row.pattern = b := by
    rw [← hb, h]
    exact BitVec.and_allOnes
  obtain ⟨m, pattern, mask, length⟩ := row
  cases m
  all_goals
    simp only [opcodeTable, List.mem_cons, List.not_mem_nil, OpcodeRow.mk.injEq, reduceCtorEq, false_and, true_and,
      or_false, false_or] at hmem
    obtain ⟨rfl, rfl, rfl⟩ := hmem
    dsimp only at hb hl hfull
  case encrypt =>
    let [c, a1, a0, n1, n0] := ops
    refine ⟨.encrypt (b.extractLsb' 0 2) c (be16 a1 a0) (be16 n1 n0), ?_⟩
    rw [encode, ← hb, pattern_or_lowBits, bytesBe16_be16, bytesBe16_be16]
    rfl
  case decrypt =>
    let [c, a1, a0, n1, n0] := ops
    refine ⟨.decrypt (b.extractLsb' 0 2) c (be16 a1 a0) (be16 n1 n0), ?_⟩
    rw [encode, ← hb, pattern_or_lowBits, bytesBe16_be16, bytesBe16_be16]
    rfl
  all_goals obtain rfl := hfull rfl
  case setSystemKey =>
    let c :: bs := ops
    obtain ⟨k, rfl⟩ := exists_bytes32List (bs := bs) (by simpa using hl)
    exact ⟨.setSystemKey c k, rfl⟩
  case setInitVector =>
    let c :: bs := ops
    obtain ⟨v, rfl⟩ := exists_bytes8List (bs := bs) (by simpa using hl)
    exact ⟨.setInitVector c v, rfl⟩
  case setDataKey =>
    let c :: bs := ops
    obtain ⟨k, rfl⟩ := exists_bytes16List (bs := bs) (by simpa using hl)
    exact ⟨.setDataKey c k, rfl⟩
  case ecmDone =>
    let d :: f :: r1 :: r0 :: bs := ops
    obtain ⟨k, rfl⟩ := exists_bytes16List (bs := bs) (by simpa using hl)
    exact ⟨.ecmDone d f (be16 r1 r0) k, by simp [encode, bytesBe16_be16]⟩
  case clearDataKey =>
    match ops with
    | [c] => exact ⟨.clearDataKey c, rfl⟩
  case setRound =>
    match ops with
    | [c, n] => exact ⟨.setRound c n, rfl⟩
  case dmxReset =>
    match ops with
    | [] => exact ⟨.dmxReset, rfl⟩
  case dmxConfig =>
    match ops with
    | [f, n] => exact ⟨.dmxConfig f n, rfl⟩
  case dmxUnit =>
    match ops with
    | [z1, z0] => exact ⟨.dmxUnit (be16 z1 z0), by simp [encode, bytesBe16_be16]⟩
  case dmxPacket =>
    match ops with
    | [a1, a0] => exact ⟨.dmxPacket (be16 a1 a0), by simp [encode, bytesBe16_be16]⟩
  case patBegin =>
    match ops with
    | [] => exact ⟨.patBegin, rfl⟩
  case progAdd =>
    match ops with
    | [n1, n0, p1, p0] => exact ⟨.progAdd (be16 n1 n0) (be16 p1 p0), by simp [encode, bytesBe16_be16]⟩
  case roleSet =>
    match ops with
    | [p1, p0, x] => exact ⟨.roleSet (be16 p1 p0) x, by simp [encode, bytesBe16_be16]⟩
  case pmtBegin =>
    match ops with
    | [p, c1, c0] => exact ⟨.pmtBegin p (be16 c1 c0), by simp [encode, bytesBe16_be16]⟩
  case decOpen =>
    match ops with
    | [p1, p0] => exact ⟨.decOpen (be16 p1 p0), by simp [encode, bytesBe16_be16]⟩
  case strmBind =>
    match ops with
    | [p, q1, q0, t, d] => exact ⟨.strmBind p (be16 q1 q0) t d, by simp [encode, bytesBe16_be16]⟩
  case pmtEnd =>
    match ops with
    | [p] => exact ⟨.pmtEnd p, rfl⟩
  case ecmBegin =>
    match ops with
    | [d] => exact ⟨.ecmBegin d, rfl⟩
  case emmOk =>
    match ops with
    | [] => exact ⟨.emmOk, rfl⟩
  case dmxQuery =>
    match ops with
    | [p] => exact ⟨.dmxQuery p, rfl⟩

/-! ### What stands at the front of the command port -/

/-- Enough bytes for the row of the opcode byte decode to the command whose encoding those bytes are (R83). -/
theorem decode_of_length_le {b : Byte} {row : OpcodeRow} (hr : opcodeRow b = some row) {bs : List Byte}
    (hl : row.length ≤ (b :: bs).length) :
    ∃ i, decode (b :: bs) = .command i ((b :: bs).drop row.length) ∧ encode i = (b :: bs).take row.length := by
  have hpos : 0 < row.length := by
    have htable : ∀ x ∈ opcodeTable, 0 < x.length := by decide
    exact htable row (opcodeRow_some hr).1
  obtain ⟨n, hn⟩ : ∃ n, row.length = n + 1 := ⟨row.length - 1, by omega⟩
  rw [List.length_cons] at hl
  obtain ⟨i, hi⟩ := exists_encode hr (ops := bs.take n) (by rw [List.length_take]; omega)
  refine ⟨i, ?_, by rw [hi, hn, List.take_succ_cons]⟩
  calc decode (b :: bs)
    _ = decode (encode i ++ bs.drop n) := by rw [hi, List.cons_append, List.take_append_drop]
    _ = .command i (bs.drop n) := decode_encode i _
    _ = .command i ((b :: bs).drop row.length) := by rw [hn, List.drop_succ_cons]

/-- Settles O2: a stream that decodes holds the bytes of its opcode byte's row, and those are the encoding of the command
they decode to. -/
theorem encodeOfDecode : Obligations.EncodeOfDecode := by
  intro bs i rest h
  cases bs with
  | nil => cases h
  | cons b r =>
    cases hr : opcodeRow b with
    | none => simp [decode, hr] at h
    | some row =>
      have hl : row.length ≤ (b :: r).length := by
        by_contra hshort
        rw [decode_short (by simp [hr]) (by rw [commandLength_of_row hr]; simpa using hshort)] at h
        cases h
      obtain ⟨j, hj, hbytes⟩ := decode_of_length_le hr hl
      cases hj.symm.trans h
      rw [hbytes, List.take_append_drop]

/-- Settles O3, by whether the opcode byte selects a row: too few bytes for it are incomplete, enough are an encoding. -/
theorem opcodeByteFixesLength : Obligations.OpcodeByteFixesLength := by
  intro s b r hcmd
  rw [hcmd]
  cases hr : opcodeRow b with
  | none =>
    have hone := commandLength_of_reserved hr
    refine ⟨fun h => ?_, fun _ h => absurd rfl h, fun _ => hone⟩
    rw [hone, List.length_cons] at h
    omega
  | some row =>
    rw [commandLength_of_row hr]
    refine ⟨fun h => step_of_incomplete ?_, fun h _ => decode_of_length_le hr h, nofun⟩
    rw [hcmd]
    exact decode_short (by simp [hr]) (by rwa [commandLength_of_row hr])

/-- Settles O4: the decoder finds a reserved opcode byte, or a row of the table, which is the only one. -/
theorem reservedOpcodeIsIllegalCommand : Obligations.ReservedOpcodeIsIllegalCommand := by
  intro s b r hcmd
  rw [← opcodeRow_eq_none_iff]
  constructor
  · intro hr
    have hdec : decode s.cmd = .reserved b r := by rw [hcmd, decode, hr]
    rw [step_of_reserved hdec, raise_eq]
    rfl
  · intro hr
    obtain ⟨row, hrow⟩ := Option.ne_none_iff_exists'.mp hr
    obtain ⟨hmem, hb⟩ := opcodeRow_some hrow
    exact ⟨row, hmem, hb, fun other ho hb' => row_unique hmem ho hb hb'⟩

end Sys2Proof
end

section
/-! The statement of R82 and R95 about responses, read off the ends of every command. -/

namespace Sys2Proof.Machine

open Sys2Proof.Safety

/-- OK is the only status whose code is 0 (R190). -/
theorem statusCode_eq_zero_iff (e : Status) : statusCode e = 0x00 ↔ e = .ok := by
  cases e <;> decide

theorem portOf_ce {i : Instr} (h : isCe i = true) : portOf i = .ce := by simp only [portOf, h]

theorem portOf_dx {i : Instr} (h : isCe i = false) : portOf i = .dx := by simp only [portOf, h]

/-- Settles O8: an error answers its status, and for unit DX the phase, alone; a normal end the result fields of R95 too. -/
theorem responseForm : Obligations.ResponseForm := by
  intro i s t h
  have hends : Ends i s (.next t) := h ▸ exec_ends s i
  cases hends with
  | error e _ notOk =>
    refine ⟨fun hce => ⟨statusCode e, ?_⟩, fun hdx => ⟨statusCode e, [], ?_, ?_⟩⟩
    · rw [portOf_ce hce, raise_eq]
    · rw [portOf_dx hdx, raise_eq]
    · rw [if_neg (mt (statusCode_eq_zero_iff e).mp notOk), List.length_nil]
  | normal fields t sameRsp _ length =>
    refine ⟨fun hce => ⟨0x00, ?_⟩, fun hdx => ⟨0x00, fields, ?_, by rw [if_pos rfl, length]⟩⟩
    · rw [portOf_ce hce, respond_rsp, sameRsp]
    · rw [portOf_dx hdx, respond_rsp, respond_pipe, sameRsp]
  | ecmFailure d rc key command _ =>
    subst command
    exact ⟨nofun, fun _ => ⟨0x17, [], by rw [raise_eq]; rfl, rfl⟩⟩

end Sys2Proof.Machine
end

section
/-! Operand fields outside the values their rules allow (spec/30_encoding.md R85 to R91, R93, R94): each command tests its
fields before anything else, and ends with `InvalidParameter`. -/

namespace Sys2Proof.Machine

open Sys2Proof.Config Sys2Proof.Safety

/-! ### Slots out of range -/

theorem progValid_of_out_of_range {s : State} {p : Byte} (h : progFieldOk s.par p = false) : progValid s p.toNat = false := by
  rw [progFieldOk] at h
  rw [progValid, h, Bool.false_and]

theorem progValid_and_of_illFormed {s : State} {p : Byte} {x : Bool} (h : (progFieldOk s.par p && x) = false) :
    (progValid s p.toNat && x) = false := by
  rcases Bool.and_eq_false_iff.mp h with hp | hx
  · rw [progValid_of_out_of_range hp, Bool.false_and]
  · rw [hx, Bool.and_false]

theorem decValid_of_out_of_range {s : State} {d : Byte} (h : decFieldOk s.par d = false) : decValid s d.toNat = false := by
  rw [decFieldOk] at h
  rw [decValid, h, Bool.false_and]

/-- A selector that is neither a slot in range nor 0xFF nor 0xFE selects nothing (R90, R173). -/
theorem selectDec_of_illFormed {s : State} {d : Byte} (h : selFieldOk s.par d = false) : selectDec s d = none := by
  simp only [selFieldOk, Bool.or_eq_false_iff, beq_eq_false_iff_ne] at h
  obtain ⟨⟨hd, hnone⟩, hsole⟩ := h
  rw [selectDec, decValid_of_out_of_range hd, if_neg Bool.false_ne_true, if_neg hnone, if_neg hsole]

/-! ### ENCRYPT and DECRYPT -/

/-- The operand fields are the first of the checks of R130. -/
theorem chainResponse_of_illFormed {t : BitVec 2} {c a n : Nat} {s : State}
    (h : (ctxOk s.par c && rangeOk s.par a n && tOk s.par t) = false) (dir : Direction) :
    chainResponse (chainCommand dir t c a n s) s = raise .ce .invalidParameter s := by
  simp [chainResponse, chainCommand, chainCheck, h]

theorem ne_two_of_lt_two {t : BitVec 2} (ht : t.toNat < 2) : t ≠ 2 := by
  rintro rfl
  simp at ht

theorem ne_three_of_lt_two {t : BitVec 2} (ht : t.toNat < 2) : t ≠ 3 := by
  rintro rfl
  simp at ht

/-- `T` = 0 and 1 are ill formed under the policy fault (R85, R93). -/
theorem tOk_of_fault {p : Params} {t : BitVec 2} (ht : t.toNat < 2) (hp : p.reservedT = .fault) : tOk p t = false := by
  rw [tOk, beq_eq_false_iff_ne.mpr (ne_two_of_lt_two ht), beq_eq_false_iff_ne.mpr (ne_three_of_lt_two ht), hp]
  rfl

/-- Under the policy index0 a reserved `T` passes the same checks and selects the same work key as `T` = 3 (R93, R138). -/
theorem chainCommand_of_index0 {t : BitVec 2} {s : State} (ht : t.toNat < 2) (hp : s.par.reservedT = .index0)
    (dir : Direction) (c a n : Nat) : chainCommand dir t c a n s = chainCommand dir 3 c a n s := by
  have hcheck : chainCheck t c a n s = chainCheck 3 c a n s := by simp [chainCheck, tOk, hp]
  have hkey (x : Context) : selectWorkKey t x = selectWorkKey 3 x := by
    rw [selectWorkKey, if_neg (ne_two_of_lt_two ht)]
    rfl
  simp only [chainCommand, hcheck, hkey]

/-! ### Every command -/

/-- A command with an ill-formed operand field ends with `InvalidParameter`, whatever the state (R94, R192). -/
theorem exec_of_illFormed {i : Instr} {s : State} (h : wellFormed s.par i = false) :
    exec i s = .next (raise (portOf i) .invalidParameter s) := by
  cases i with
  | setSystemKey c k => exact if_neg (Bool.eq_false_iff.mp h)
  | setInitVector c v => exact if_neg (Bool.eq_false_iff.mp h)
  | setDataKey c k => exact if_neg (Bool.eq_false_iff.mp h)
  | clearDataKey c => exact if_neg (Bool.eq_false_iff.mp h)
  | setRound c n => exact if_neg (Bool.eq_false_iff.mp h)
  | encrypt t c a n => exact congrArg _ (chainResponse_of_illFormed h .encrypt)
  | decrypt t c a n => exact congrArg _ (chainResponse_of_illFormed h .decrypt)
  | dmxReset => cases h
  | dmxConfig f n => exact if_neg (Bool.eq_false_iff.mp h)
  | dmxUnit z => exact if_neg (Bool.eq_false_iff.mp h)
  | dmxPacket a => exact if_neg (Bool.eq_false_iff.mp h)
  | patBegin => cases h
  | progAdd n p => exact if_pos h
  | roleSet p r => exact if_neg (Bool.eq_false_iff.mp h)
  | pmtBegin p c => exact if_neg (Bool.eq_false_iff.mp (progValid_and_of_illFormed h))
  | decOpen p => exact if_neg (Bool.eq_false_iff.mp h)
  | strmBind p q t d =>
    rcases Bool.and_eq_false_iff.mp h with hpq | hd
    · exact if_neg (Bool.eq_false_iff.mp (progValid_and_of_illFormed hpq))
    · simp only [exec, execStrmBind, selectDec_of_illFormed hd, ite_self]
      rfl
  | pmtEnd p => exact if_neg (Bool.eq_false_iff.mp (progValid_of_out_of_range h))
  | ecmBegin d => exact if_neg (Bool.eq_false_iff.mp (decValid_of_out_of_range h))
  | ecmDone d f r k =>
    refine if_neg (Bool.eq_false_iff.mp ?_)
    rcases Bool.and_eq_false_iff.mp h with hd | hf
    · rw [decValid_of_out_of_range hd, Bool.false_and]
    · rw [hf, Bool.and_false]
  | emmOk => cases h
  | dmxQuery p =>
    obtain ⟨hall, hp⟩ := Bool.or_eq_false_iff.mp h
    have hne : p ≠ 0xFF := beq_eq_false_iff_ne.mp hall
    exact (if_neg hne).trans (if_neg (Bool.eq_false_iff.mp (progValid_of_out_of_range hp)))

theorem failsCe_of_illFormed {i : Instr} {s : State} (h : wellFormed s.par i = false) (hce : isCe i = true) :
    FailsCe 0x01 i s := by
  rw [FailsCe, exec_of_illFormed h, portOf_ce hce, raise_eq]
  rfl

theorem failsDx_of_illFormed {i : Instr} {s : State} (h : wellFormed s.par i = false) (hdx : isCe i = false) :
    FailsDx 0x01 i s := by
  rw [FailsDx, exec_of_illFormed h, portOf_dx hdx, raise_eq]
  rfl

/-- Settles O11: under the policy fault a reserved `T` is an ill-formed field like any other. -/
theorem reservedOperandsAreInvalid : Obligations.ReservedOperandsAreInvalid := by
  refine ⟨fun i s h => ⟨failsCe_of_illFormed h, failsDx_of_illFormed h⟩, fun t c a n s ht => ⟨fun hp => ?_, fun hp => ?_⟩⟩
  · have hill : (ctxOk s.par c.toNat && rangeOk s.par a.toNat n.toNat && tOk s.par t) = false := by
      rw [tOk_of_fault ht hp, Bool.and_false]
    exact ⟨failsCe_of_illFormed hill rfl, failsCe_of_illFormed hill rfl⟩
  · simp only [exec, execEncrypt, execDecrypt, chainCommand_of_index0 ht hp, and_self]

end Sys2Proof.Machine
end

section
/-! DMX_QUERY (spec/44_demux_tables.md R182): the model's lists without repeats are the sets of the spec's prose, summed over
and searched alike. -/

namespace Sys2Proof.Machine

open Sys2Proof.Safety

/-! ### Lists without repeats -/

section Distinct

variable {α : Type} [DecidableEq α]

@[simp] theorem mem_distinct (x : α) (l : List α) : x ∈ distinct l ↔ x ∈ l := by
  induction l with
  | nil => rfl
  | cons y l ih =>
    by_cases h : x = y
    · simp [distinct, h]
    · simp [distinct, h, ih]

theorem nodup_distinct (l : List α) : (distinct l).Nodup := by
  induction l with
  | nil => exact List.nodup_nil
  | cons x l ih => exact List.nodup_cons.mpr ⟨by simp, ih.filter _⟩

/-- A sum over the list without repeats is the sum over the set of its elements. -/
theorem sum_map_distinct (l : List α) (f : α → Nat) : ((distinct l).map f).sum = l.toFinset.sum f := by
  have hset : (distinct l).toFinset = l.toFinset := List.toFinset.ext (mem_distinct · l)
  rw [← hset, List.sum_toFinset f (nodup_distinct l)]

/-- Dropping repeats does not change which element a search finds first. -/
theorem find?_distinct (p : α → Bool) (l : List α) : (distinct l).find? p = l.find? p := by
  induction l with
  | nil => rfl
  | cons x l ih =>
    cases hx : p x with
    | true => simp [distinct, hx]
    | false =>
      have hskip (y : α) : (!decide (y = x) && p y) = p y := by
        by_cases h : y = x
        · rw [h, hx, Bool.and_false]
        · simp [h]
      simp [distinct, hx, List.find?_filter, hskip, ih]

end Distinct

/-! ### The answer -/

section Answer

variable (s : State) (i : Nat)

theorem card_validProgs :
    ((Finset.range s.par.nProg).filter fun i => (s.progAt i).valid = true).card = (validProgs s).length := by
  rw [← List.toFinset_range, ← List.toFinset_filter, List.toFinset_card_of_nodup (List.nodup_range.filter _)]
  simp [validProgs]

theorem queryPids_eq : queryPids s i = distinct (listedPids s i) := rfl

/-- Two PIDs of a list may link one decryptor; it counts once, wherever the repeats are dropped (R182). -/
theorem sum_queryDecs (f : Nat → Nat) : ((queryDecs s i).map f).sum = (listedDecs s i).toFinset.sum f := by
  have hset : ((queryPids s i).filterMap fun p => linkedDec (s.mapAt p)).toFinset = (listedDecs s i).toFinset := by
    refine List.toFinset.ext fun d => ?_
    simp only [queryPids_eq, List.mem_filterMap, mem_distinct]
    exact List.mem_filterMap.symm
  rw [queryDecs, sum_map_distinct, hset]

/-- The first error code that is not 0 is the same with and without the repeats (R182). -/
theorem queryLastErr_eq :
    queryLastErr s i = (((listedDecs s i).map fun d => (s.decAt d).lastErr).find? fun x => x != 0).getD 0 := by
  have hdecs : listedDecs s i = (listedPids s i).filterMap fun p => linkedDec (s.mapAt p) := rfl
  simp only [queryLastErr, queryDecs, queryPids_eq, hdecs, List.find?_map, List.find?_filterMap, find?_distinct]

/-- The result fields after COUNT, in the words of the statement (R95, R182). -/
theorem queryFields_eq : queryFields s i =
    bytesBe16 (s.progAt i).num
      ++ bytesBe64 ((listedPids s i).toFinset.sum fun q => (s.mapAt q).normal + (s.mapAt q).undec)
      ++ bytesBe64 ((listedPids s i).toFinset.sum fun q => (s.mapAt q).undec)
      ++ bytesBe64 ((listedDecs s i).toFinset.sum fun d => (s.decAt d).unpurchased)
      ++ bytesBe16 ((((listedDecs s i).map fun d => (s.decAt d).lastErr).find? fun x => x != 0).getD 0) := by
  rw [queryFields, queryPids_eq, sum_map_distinct, sum_map_distinct, sum_queryDecs, queryLastErr_eq]

end Answer

/-- Settles O39: the three cases of the command in the order it tests them. -/
theorem dmxQuery : Obligations.DmxQuery := by
  intro p s count hcount
  have hbyte : countByte (validProgs s).length = count := by rw [hcount, card_validProgs, countByte]
  refine ⟨rfl, fun hall => ?_, fun hone hp => ?_, fun hone hp => ?_⟩
  · rw [← hbyte]
    exact if_pos hall
  · exact (if_neg hone).trans (if_neg (mt (progValid_iff s _).mp hp))
  · rw [← hbyte, ← queryFields_eq]
    exact (if_neg hone).trans (if_pos ((progValid_iff s _).mpr hp))

end Sys2Proof.Machine
end

section
/-! Unit CC (spec/40_cipher_core.md R101, R107, R110 to R112): the rotation as a sum, the round functions as involutions, and
block encryption and decryption as iterations of two inverse rounds. -/

namespace Sys2Proof.Machine

/-! ### Rotation -/

/-- The two parts of a rotation share no bit, so their OR is their sum. -/
theorem rol32_eq_add (x : Word) (n : Nat) : rol32 x n = (x <<< n) + (x >>> (32 - n)) := by
  refine (BitVec.add_eq_or_of_and_eq_zero _ _ (BitVec.eq_of_getLsbD_eq fun i _ => ?_)).symm
  rw [BitVec.getLsbD_and, BitVec.getLsbD_shiftLeft, BitVec.getLsbD_ushiftRight, BitVec.getLsbD_zero]
  by_cases hlow : i < n
  · simp [hlow]
  · rw [BitVec.getLsbD_of_ge x (32 - n + i) (by omega), Bool.and_false]

/-- What a rotation by 1 brings in from the left: bit 31. -/
theorem ushiftRight_31 (x : Word) : x >>> 31 = if x.getLsbD 31 then 1 else 0 := by
  have hmsb : x.getLsbD 31 = decide (2 ^ 31 ≤ x.toNat) := (BitVec.msb_eq_getLsbD_last x).symm.trans (BitVec.msb_eq_decide x)
  rw [hmsb]
  by_cases hbit : 2 ^ 31 ≤ x.toNat
  · rw [if_pos (decide_eq_true hbit)]
    bv_omega
  · rw [if_neg (by simpa using hbit)]
    bv_omega

/-- Settles O14: the rotation doubles `x` and adds its bit 31. -/
theorem rotateByOneMinusSelf : Obligations.RotateByOneMinusSelf := by
  intro x
  have hdouble : x <<< 1 = x + x := by bv_omega
  calc rol32 x 1 - x = (x + x + x >>> 31) - x := by rw [rol32_eq_add, hdouble]
    _ = x + x >>> 31 := by rw [BitVec.add_assoc, BitVec.add_comm x, BitVec.add_sub_cancel]
    _ = if x.getLsbD 31 then x + 1 else x := by rw [ushiftRight_31, apply_ite (x + ·), add_zero]

/-! ### The round functions -/

section RoundFunctions

variable (b : Block) (k k2 k3 : Word)

theorem xor_xor_self (x y : Word) : x ^^^ y ^^^ y = x := by
  rw [BitVec.xor_assoc, BitVec.xor_self, BitVec.xor_zero]

/-! Each XORs one half with a word of the other half, which it leaves as it was (R102): the second time with the same word. -/

@[simp] theorem pi1_pi1 : pi1 (pi1 b) = b := congrArg (Block.mk b.L) (xor_xor_self b.R b.L)

@[simp] theorem pi2_pi2 : pi2 (pi2 b k) k = b := congrArg (Block.mk · b.R) (xor_xor_self b.L (pi2Word b.R k))

@[simp] theorem pi3_pi3 : pi3 (pi3 b k2 k3) k2 k3 = b := congrArg (Block.mk b.L) (xor_xor_self b.R (pi3Word b.L k2 k3))

@[simp] theorem pi4_pi4 : pi4 (pi4 b k) k = b := congrArg (Block.mk · b.R) (xor_xor_self b.L (pi4Word b.R k))

end RoundFunctions

/-- Settles O12: the four functions, one by one. -/
theorem roundFunctionsSelfInverse : Obligations.RoundFunctionsSelfInverse :=
  ⟨pi1_pi1, pi2_pi2, pi3_pi3, pi4_pi4⟩

/-! ### Rounds and blocks -/

section Rounds

variable (w : Words8)

/-- Decryption applies the same eight functions in the reverse order, so each meets itself and cancels (R111). -/
theorem decRound_encRound : Function.LeftInverse (decRound w) (encRound w) := fun b => by
  simp only [decRound, encRound, pi1_pi1, pi2_pi2, pi3_pi3, pi4_pi4]

theorem encRound_decRound : Function.RightInverse (decRound w) (encRound w) := fun b => by
  simp only [decRound, encRound, pi1_pi1, pi2_pi2, pi3_pi3, pi4_pi4]

theorem encBlock_eq_iterate (b : Block) (n : Nat) : encBlock b w n = (encRound w)^[n] b := by
  induction n with
  | zero => rfl
  | succ n ih => rw [encBlock, ih, Function.iterate_succ_apply']

theorem decBlock_eq_iterate (b : Block) (n : Nat) : decBlock b w n = (decRound w)^[n] b := by
  induction n with
  | zero => rfl
  | succ n ih => rw [decBlock, ih, Function.iterate_succ_apply']

@[simp] theorem decBlock_encBlock (b : Block) (n : Nat) : decBlock (encBlock b w n) w n = b := by
  rw [encBlock_eq_iterate, decBlock_eq_iterate]
  exact (decRound_encRound w).iterate n b

@[simp] theorem encBlock_decBlock (b : Block) (n : Nat) : encBlock (decBlock b w n) w n = b := by
  rw [encBlock_eq_iterate, decBlock_eq_iterate]
  exact (encRound_decRound w).iterate n b

end Rounds

/-- Settles O13: decryption is the two-sided inverse that makes encryption a bijection. -/
theorem blockRoundTrip : Obligations.BlockRoundTrip := by
  intro w n
  have hdec : Function.LeftInverse (decBlock · w n) (encBlock · w n) := (decBlock_encBlock w · n)
  have henc : Function.RightInverse (decBlock · w n) (encBlock · w n) := (encBlock_decBlock w · n)
  exact ⟨hdec, henc, hdec.injective, henc.surjective⟩

end Sys2Proof.Machine
end

section
/-! The five key and configuration commands (spec/41_key_commands.md R120 to R126): each writes one context and answers OK, or
fails on an operand. -/

namespace Sys2Proof.Machine

open Sys2Proof.Config Sys2Proof.Safety

/-! ### What the five commands share -/

/-- A context beyond the last one is ill formed (R86). -/
theorem ctxOk_of_out_of_range {p : Params} {c : Nat} (h : p.nCtx ≤ c) : ctxOk p c = false :=
  decide_eq_false (Nat.not_lt.mpr h)

/-- A normal end after a write of one context: the context written, the frame, and the response (R82, R126). -/
theorem respond_setCtx_frame {s t : State} {c : Nat} {x : Context} (ht : t = respond .ce [] (s.setCtx c x)) :
    t.ctx c = x ∧ SameContextsBut c s t ∧ SameMemory s t ∧ SameTables s t ∧ t.pipe = s.pipe ∧ SameRest s t ∧
      Answers [0x00] s t := by
  subst ht
  refine ⟨?ctx, fun k hk => ?others, fun a => ?memory, ?tables, respond_pipe .., ?rest, respond_rsp ..⟩
  case ctx => rw [respond_ctx, State.ctx_setCtx_self]
  case others => rw [respond_ctx, State.ctx_setCtx, if_neg hk]
  case memory => rw [respond_readByte, State.setCtx_readByte]
  case tables => simp [SameTables, SameMap, SameProgs, SameDecs]
  case rest => simp [SameRest]

/-! ### The commands when their operands are well formed -/

section Completes

variable {s : State} {c : Byte} (h : c.toNat < s.par.nCtx)

include h

theorem exec_setSystemKey (k : Bytes32) : exec (.setSystemKey c k) s =
    .next (respond .ce [] (s.setCtx c.toNat
      { s.ctx c.toNat with sk := words8Of k, st := setFlagSk (s.ctx c.toNat).st })) :=
  if_pos ((ctxOk_iff ..).mpr h)

theorem exec_setInitVector (v : Bytes8) : exec (.setInitVector c v) s =
    .next (respond .ce [] (s.setCtx c.toNat
      { s.ctx c.toNat with iv := blk v, st := setFlagIv (s.ctx c.toNat).st })) :=
  if_pos ((ctxOk_iff ..).mpr h)

theorem exec_setDataKey (k : Bytes16) : exec (.setDataKey c k) s =
    .next (respond .ce [] (s.setCtx c.toNat (loadDataKey (s.ctx c.toNat) k))) :=
  if_pos ((ctxOk_iff ..).mpr h)

theorem exec_clearDataKey : exec (.clearDataKey c) s =
    .next (respond .ce [] (s.setCtx c.toNat (clearDataKey (s.ctx c.toNat)))) :=
  if_pos ((ctxOk_iff ..).mpr h)

theorem exec_setRound {n : Byte} (hn : n ≠ 0) : exec (.setRound c n) s =
    .next (respond .ce [] (s.setCtx c.toNat { s.ctx c.toNat with round := n })) :=
  if_pos (Bool.and_eq_true_iff.mpr ⟨(ctxOk_iff ..).mpr h, (roundOk_iff n).mpr hn⟩)

end Completes

end Sys2Proof.Machine

/-! ### The statements

In a namespace of their own: `clearDataKey` is also what CLEAR_DATA_KEY makes of a context. -/

namespace Sys2Proof.KeyCommands

open Sys2Proof.Machine

/-- Settles O15: the eight words are those of the four blocks of the 32 bytes. -/
theorem setSystemKey : Obligations.SetSystemKey := fun _ k s =>
  ⟨rfl, fun hc => ⟨_, exec_setSystemKey hc k, respond_setCtx_frame rfl⟩,
    fun hc => failsCe_of_illFormed (ctxOk_of_out_of_range hc) rfl⟩

/-- Settles O16: the vector is the block of the eight bytes. -/
theorem setInitVector : Obligations.SetInitVector := fun _ v s =>
  ⟨rfl, fun hc => ⟨_, exec_setInitVector hc v, respond_setCtx_frame rfl⟩,
    fun hc => failsCe_of_illFormed (ctxOk_of_out_of_range hc) rfl⟩

/-- Settles O17: the context is the one with the pair loaded (`loadDataKey`), whatever its flags were (R231). -/
theorem setDataKey : Obligations.SetDataKey := fun _ k s =>
  ⟨rfl, fun hc => ⟨_, blk k.odd, blk k.even, exec_setDataKey hc k, rfl, rfl, respond_setCtx_frame rfl⟩,
    fun hc => failsCe_of_illFormed (ctxOk_of_out_of_range hc) rfl⟩

/-- Settles O18: the context is the one with the keys zeroed. -/
theorem clearDataKey : Obligations.ClearDataKey := fun _ s =>
  ⟨rfl, fun hc => ⟨_, exec_clearDataKey hc, respond_setCtx_frame rfl⟩,
    fun hc => failsCe_of_illFormed (ctxOk_of_out_of_range hc) rfl⟩

/-- Settles O19: either operand alone, out of its range, makes the command ill formed. -/
theorem setRound : Obligations.SetRound := by
  intro c n s
  refine ⟨rfl, fun hc hn => ⟨_, exec_setRound hc hn, respond_setCtx_frame rfl⟩, fun h => failsCe_of_illFormed ?_ rfl⟩
  change (ctxOk s.par c.toNat && roundOk n) = false
  rcases h with hc | rfl
  · rw [ctxOk_of_out_of_range hc, Bool.false_and]
  · exact Bool.and_false _

end Sys2Proof.KeyCommands
end

section
/-! ENCRYPT and DECRYPT as functions of the payload (spec/42_chaining_commands.md R131 to R134, R136): the two directions of
the transform, one block and one tail at a time, and that each undoes the other. -/

namespace Sys2Proof.Machine

/-! ### One block -/

/-- The direction that undoes the given one (R136). -/
def Direction.inverse : Direction → Direction
  | .encrypt => .decrypt
  | .decrypt => .encrypt

/-- What the transform puts in the place of the block `b` (R132, R134). -/
def blockOut (dir : Direction) (w : Words8) (r : Nat) (cbc b : Block) : Block :=
  match dir with
  | .encrypt => encBlock (b.xor cbc) w r
  | .decrypt => (decBlock b w r).xor cbc

/-- The chaining value after the block `b`: the block of ciphertext, in both directions (R132, R134). -/
def blockNext (dir : Direction) (w : Words8) (r : Nat) (cbc b : Block) : Block :=
  match dir with
  | .encrypt => encBlock (b.xor cbc) w r
  | .decrypt => b

variable (dir : Direction) (w : Words8) (r : Nat) (cbc b : Block)

/-- The loop body in these words. -/
theorem chainBlock_eq (a : Nat) (s : State) :
    chainBlock dir w r a cbc s =
      (blockNext dir w r cbc (blk (s.readBytes8 a)),
        s.writeBytes8 a (bytesBlk (blockOut dir w r cbc (blk (s.readBytes8 a))))) := by
  cases dir <;> rfl

/-- XOR with the same block twice. -/
@[simp] theorem block_xor_xor_self (x y : Block) : (x.xor y).xor y = x := by
  simp only [Block.xor, xor_xor_self]

/-- The inverse direction restores the block (R136). -/
@[simp] theorem blockOut_inverse : blockOut dir.inverse w r cbc (blockOut dir w r cbc b) = b := by
  cases dir <;> simp [blockOut, Direction.inverse]

/-- The inverse direction goes on with the same chaining value (R136). -/
@[simp] theorem blockNext_inverse :
    blockNext dir.inverse w r cbc (blockOut dir w r cbc b) = blockNext dir w r cbc b := by
  cases dir <;> simp [blockOut, blockNext, Direction.inverse]

end Sys2Proof.Machine

namespace Sys2Proof.Safety

open Sys2Proof.Machine

/-! ### A payload -/

/-- The function of the payload that a direction of the transform computes (R132, R134). -/
def payloadTransform : Direction → Words8 → Nat → Block → List Byte → List Byte
  | .encrypt => payloadEncrypt
  | .decrypt => payloadDecrypt

/-- A payload is full blocks and a tail of fewer than 8 bytes (R131). -/
theorem payload_induction {P : List Byte → Prop} (tail : ∀ l, l.length < 8 → P l)
    (block : ∀ (b : Bytes8) (l : List Byte), P l → P (bytes8List b ++ l)) (l : List Byte) : P l := by
  match l with
  | b0 :: b1 :: b2 :: b3 :: b4 :: b5 :: b6 :: b7 :: rest =>
    exact block ⟨b0, b1, b2, b3, b4, b5, b6, b7⟩ rest (payload_induction tail block rest)
  | [] | [_] | [_, _] | [_, _, _] | [_, _, _, _] | [_, _, _, _, _] | [_, _, _, _, _, _] | [_, _, _, _, _, _, _] =>
    exact tail _ (by simp)

variable (dir : Direction) (w : Words8) (r : Nat) (cbc : Block)

/-- The first block of a payload, then the rest under the next chaining value. -/
theorem payloadTransform_block (b : Bytes8) (l : List Byte) :
    payloadTransform dir w r cbc (bytes8List b ++ l) =
      bytes8List (bytesBlk (blockOut dir w r cbc (blk b))) ++
        payloadTransform dir w r (blockNext dir w r cbc (blk b)) l := by
  cases dir <;> rfl

/-- Fewer than 8 bytes are all tail, and treated alike in both directions (R132, R133). -/
theorem payloadTransform_short {l : List Byte} (h : l.length < 8) :
    payloadTransform dir w r cbc l = payloadTail w r cbc l := by
  cases dir
  · exact payloadEncrypt.eq_2 _ _ _ _ fun b0 b1 b2 b3 b4 b5 b6 b7 rest hl => by simp [hl] at h; omega
  · exact payloadDecrypt.eq_2 _ _ _ _ fun b0 b1 b2 b3 b4 b5 b6 b7 rest hl => by simp [hl] at h; omega

/-- As many bytes of the keystream are used as the tail has (R133). -/
theorem payloadTail_eq_take {l : List Byte} (h : l.length < 8) :
    payloadTail w r cbc l =
      List.zipWith (· ^^^ ·) l ((bytes8List (bytesBlk (encBlock cbc w r))).take l.length) := by
  rw [payloadTail, List.zipWith_eq_zipWith_take_min, bytes8List_length, Nat.min_eq_left (Nat.le_of_lt h), List.take_length]

theorem payloadTail_length {l : List Byte} (h : l.length < 8) : (payloadTail w r cbc l).length = l.length := by
  rw [payloadTail, List.length_zipWith, bytes8List_length]
  omega

/-- XOR with the same bytes twice, of which there are as many (R133). -/
theorem zipWith_xor_zipWith_xor {l ks : List Byte} (h : l.length ≤ ks.length) :
    List.zipWith (· ^^^ ·) (List.zipWith (· ^^^ ·) l ks) ks = l := by
  induction l generalizing ks with
  | nil => rfl
  | cons x l ih =>
    cases ks with
    | nil => cases h
    | cons k ks =>
      simp only [List.length_cons, Nat.add_le_add_iff_right] at h
      rw [List.zipWith_cons_cons, List.zipWith_cons_cons, ih h, BitVec.xor_assoc, BitVec.xor_self, BitVec.xor_zero]

/-- The two directions undo each other on every payload (R136). -/
theorem payloadTransform_inverse (l : List Byte) :
    payloadTransform dir.inverse w r cbc (payloadTransform dir w r cbc l) = l := by
  induction l using payload_induction generalizing cbc with
  | tail l h =>
    rw [payloadTransform_short _ _ _ _ h, payloadTransform_short _ _ _ _ (by rwa [payloadTail_length _ _ _ h])]
    exact zipWith_xor_zipWith_xor (by rw [bytes8List_length]; omega)
  | block b l ih => simp only [payloadTransform_block, blk_bytesBlk, blockOut_inverse, blockNext_inverse, bytesBlk_blk, ih]

end Sys2Proof.Safety
end

section
/-! ENCRYPT and DECRYPT (spec/42_chaining_commands.md R130 to R137): the in-place transform computes the function of the
payload, whatever its address and its length, and the statements about both commands. -/

namespace Sys2Proof.Machine

open Sys2Proof.Safety

/-! ### Reading payload memory -/

/-- A range read in two parts. -/
theorem State.readBytes_add (s : State) (a m n : Nat) :
    s.readBytes a (m + n) = s.readBytes a m ++ s.readBytes (a + m) n := by
  induction m generalizing a with
  | zero => simp [State.readBytes]
  | succ m ih =>
    rw [Nat.add_right_comm, State.readBytes, State.readBytes, ih, List.cons_append, Nat.add_assoc a 1 m, Nat.add_comm 1 m]

/-- A range that reads the same has the same bytes. -/
theorem State.readByte_of_readBytes_eq {s t : State} {a n b : Nat} (h : t.readBytes a n = s.readBytes a n) (ha : a ≤ b)
    (hn : b < a + n) : t.readByte b = s.readByte b := by
  have hget : (t.readBytes a n)[b - a]? = (s.readBytes a n)[b - a]? := by rw [h]
  rw [State.readBytes_getElem?, State.readBytes_getElem?, if_pos (by omega), if_pos (by omega),
    Nat.add_sub_cancel' ha] at hget
  exact Option.some.inj hget

/-- Eight bytes written and read back as a string. -/
theorem State.readBytes_writeBytes8 (s : State) (a : Nat) (v : Bytes8) :
    (s.writeBytes8 a v).readBytes a 8 = bytes8List v := s.readBytes_writeBytes a (bytes8List v)

/-- Eight bytes written leave the bytes after them alone. -/
theorem State.readBytes_writeBytes8_after (s : State) (a n : Nat) (v : Bytes8) :
    (s.writeBytes8 a v).readBytes (a + 8) n = s.readBytes (a + 8) n :=
  State.readBytes_congr fun _ hb _ => s.readByte_writeBytes8_outside v (.inr hb)

/-! ### The transform, block by block -/

/-- A number of bytes is a number of blocks and fewer than 8 bytes (R131). -/
theorem block_induction {P : Nat → Prop} (tail : ∀ n, n < 8 → P n) (block : ∀ n, P n → P (n + 8)) (n : Nat) : P n := by
  induction n using Nat.strongRecOn with
  | ind n ih =>
    rcases Nat.lt_or_ge n 8 with h | h
    · exact tail n h
    · exact Nat.sub_add_cancel h ▸ block (n - 8) (ih _ (by omega))

section Transform

variable (dir : Direction) (w : Words8) (r : Nat) (cbc : Block) (a n : Nat) (s : State)

/-- Fewer than 8 bytes are all tail, whatever the direction (R132). -/
theorem chainRun_short {n : Nat} (h : n < 8) :
    chainRun dir w r cbc a n s = chainTail ((bytes8List (bytesBlk (encBlock cbc w r))).take n) a s := by
  simp only [chainRun, Nat.div_eq_of_lt h, Nat.mod_eq_of_lt h, chainBlocks]
  split
  · next h0 => rw [h0]; rfl
  · rfl

/-- Eight bytes or more: the first block, then the transform of the rest (R131). -/
theorem chainRun_add_eight :
    chainRun dir w r cbc a (n + 8) s =
      chainRun dir w r (blockNext dir w r cbc (blk (s.readBytes8 a))) (a + 8) n
        (s.writeBytes8 a (bytesBlk (blockOut dir w r cbc (blk (s.readBytes8 a))))) := by
  simp only [chainRun, Nat.add_mod_right, Nat.add_div_right n (show 0 < 8 by decide), chainBlocks, chainBlock_eq,
    Nat.mul_succ, show a + (8 * (n / 8) + 8) = a + 8 + 8 * (n / 8) by omega]

/-- The tail read back is the XOR with the keystream (R133). -/
theorem readBytes_chainTail (ks : List Byte) :
    (chainTail ks a s).readBytes a ks.length = List.zipWith (· ^^^ ·) (s.readBytes a ks.length) ks := by
  induction ks generalizing a s with
  | nil => rfl
  | cons k ks ih =>
    have hrest : (s.writeByte a (s.readByte a ^^^ k)).readBytes (a + 1) ks.length = s.readBytes (a + 1) ks.length :=
      State.readBytes_congr fun b hb _ => State.readByte_writeByte_ne _ _ (by omega)
    rw [chainTail, List.length_cons, State.readBytes, State.readBytes, List.zipWith_cons_cons, ih, hrest,
      chainTail_outside _ _ _ (by omega), State.readByte_writeByte_self]

/-- The transform of the rest leaves the first block as it was written. -/
theorem readBytes_chainRun_after_block (v : Bytes8) :
    (chainRun dir w r cbc (a + 8) n (s.writeBytes8 a v)).readBytes a (n + 8) =
      bytes8List v ++ (chainRun dir w r cbc (a + 8) n (s.writeBytes8 a v)).readBytes (a + 8) n := by
  have hfirst : (chainRun dir w r cbc (a + 8) n (s.writeBytes8 a v)).readBytes a 8 = (s.writeBytes8 a v).readBytes a 8 :=
    State.readBytes_congr fun b _ hb => chainRun_outside _ _ _ _ _ _ _ (.inl hb)
  rw [Nat.add_comm n 8, State.readBytes_add, hfirst, State.readBytes_writeBytes8]

/-- The in-place transform leaves, in its range, the function of the payload that its direction computes (R132, R134). -/
theorem readBytes_chainRun :
    (chainRun dir w r cbc a n s).readBytes a n = payloadTransform dir w r cbc (s.readBytes a n) := by
  induction n using block_induction generalizing cbc a s with
  | tail n h =>
    have hlen : (s.readBytes a n).length < 8 := by rwa [State.readBytes_length]
    have htail := readBytes_chainTail a s ((bytes8List (bytesBlk (encBlock cbc w r))).take n)
    rw [List.length_take, bytes8List_length, Nat.min_eq_left (Nat.le_of_lt h)] at htail
    rw [chainRun_short _ _ _ _ _ _ h, htail, payloadTransform_short _ _ _ _ hlen, payloadTail_eq_take _ _ _ hlen,
      State.readBytes_length]
  | block n ih =>
    rw [chainRun_add_eight, readBytes_chainRun_after_block, ih, State.readBytes_writeBytes8_after, ← payloadTransform_block,
      State.bytes8List_readBytes8, ← State.readBytes_add, Nat.add_comm 8 n]

end Transform

/-! ### The checks -/

theorem tOk_iff (p : Config.Params) (t : BitVec 2) : tOk p t = true ↔ t = 2 ∨ t = 3 ∨ p.reservedT = .index0 := by
  simp [tOk, or_assoc]

/-- The model's checks are those of the words (R130). -/
theorem chainCheck_none_iff_ready (t : BitVec 2) (c a n : Nat) (s : State) :
    chainCheck t c a n s = none ↔ ChainReady t c a n s := by
  simp only [chainCheck_none_iff, Bool.and_eq_true, ctxOk_iff, rangeOk_iff, tOk_iff, ChainReady, and_assoc]

variable {t : BitVec 2} {c a n : Nat} {s : State}

/-- An operand out of its range is found before any flag is looked at (R130). -/
theorem chainCheck_of_bad_operand
    (h : s.par.nCtx ≤ c ∨ n = 0 ∨ s.par.pmemSize < a + n ∨ (t.toNat < 2 ∧ s.par.reservedT = .fault)) :
    chainCheck t c a n s = some .invalidParameter := by
  refine if_neg fun hok => ?_
  simp only [Bool.and_eq_true, ctxOk_iff, rangeOk_iff] at hok
  obtain ⟨⟨hc, hn, hr⟩, ht⟩ := hok
  rcases h with h | h | h | ⟨hlt, hfault⟩
  · omega
  · omega
  · omega
  · exact absurd ht (Bool.eq_false_iff.mp (tOk_of_fault hlt hfault))

/-- With every operand in its range the flags decide (R130, R196). -/
theorem chainCheck_of_good_operands (hc : c < s.par.nCtx) (hr : 1 ≤ n ∧ a + n ≤ s.par.pmemSize)
    (ht : t = 2 ∨ t = 3 ∨ s.par.reservedT = .index0) :
    chainCheck t c a n s = missingPrerequisite (s.ctx c).st := by
  refine if_pos ?_
  rw [(ctxOk_iff ..).mpr hc, (rangeOk_iff ..).mpr hr, (tOk_iff ..).mpr ht]
  rfl

/-! ### The two commands -/

/-- ENCRYPT or DECRYPT, by its direction. -/
def chainInstr (dir : Direction) (t : BitVec 2) (c : Byte) (a n : Half) : Instr :=
  match dir with
  | .encrypt => .encrypt t c a n
  | .decrypt => .decrypt t c a n

theorem exec_chainInstr (dir : Direction) (t : BitVec 2) (c : Byte) (a n : Half) (s : State) :
    exec (chainInstr dir t c a n) s =
      .next (chainResponse (chainCommand dir t c.toNat a.toNat n.toNat s) s) := by
  cases dir <;> rfl

/-- The payload transformed under the registers of the context `c` and the work key that `t` selects (R130). -/
def chained (dir : Direction) (t : BitVec 2) (c a n : Nat) (s : State) : State :=
  chainRun dir (selectWorkKey t (s.ctx c)) (s.ctx c).round.toNat (s.ctx c).iv a n s

theorem chainCommand_of_ready (h : ChainReady t c a n s) (dir : Direction) :
    chainCommand dir t c a n s = .ok (chained dir t c a n s) := by
  rw [chainCommand, (chainCheck_none_iff_ready ..).mpr h]
  rfl

theorem exec_chainInstr_of_ready {c : Byte} {a n : Half} (h : ChainReady t c.toNat a.toNat n.toNat s) (dir : Direction) :
    exec (chainInstr dir t c a n) s = .next (respond .ce [] (chained dir t c.toNat a.toNat n.toNat s)) := by
  rw [exec_chainInstr, chainCommand_of_ready h]
  rfl

/-- A check that fails answers its status, and nothing else changes (R130, R201). -/
theorem failsCe_of_chainCheck {c : Byte} {a n : Half} {e : Status}
    (h : chainCheck t c.toNat a.toNat n.toNat s = some e) (dir : Direction) :
    FailsCe (statusCode e) (chainInstr dir t c a n) s := by
  rw [FailsCe, exec_chainInstr, chainCommand, h]
  exact congrArg _ (raise_eq .ce e s)

theorem chained_only (dir : Direction) (t : BitVec 2) (c a n : Nat) (s : State) :
    chained dir t c a n s = { s with pmem := (chained dir t c a n s).pmem } := chainRun_only ..

theorem readBytes_chained (dir : Direction) (t : BitVec 2) (c a n : Nat) (s : State) :
    (chained dir t c a n s).readBytes a n =
      payloadTransform dir (selectWorkKey t (s.ctx c)) (s.ctx c).round.toNat (s.ctx c).iv (s.readBytes a n) :=
  readBytes_chainRun ..

/-- What a command of the pair leaves when its checks pass: the payload transformed, everything else as it was, and the
response OK (R61, R82, R132, R134). -/
theorem respond_chained_frame {dir : Direction} {u : State} (hu : u = respond .ce [] (chained dir t c a n s)) :
    u.readBytes a n =
        payloadTransform dir (selectWorkKey t (s.ctx c)) (s.ctx c).round.toNat (s.ctx c).iv (s.readBytes a n) ∧
      SameMemoryOutside a n s u ∧ SameContexts s u ∧ SameTables s u ∧ u.pipe = s.pipe ∧ SameRest s u ∧
      Answers [0x00] s u := by
  have hread (b : Nat) : u.readByte b = (chained dir t c a n s).readByte b := by rw [hu, respond_readByte]
  have hfields : u = { s with pmem := u.pmem, rsp := s.rsp ++ [0x00] } := by
    rw [hu, chained_only]
    rfl
  refine ⟨?payload, fun b hb => ?outside, ?frame⟩
  case payload => rw [← readBytes_chained, State.readBytes_congr fun b _ _ => hread b]
  case outside => rw [hread]; exact chainRun_outside _ _ _ _ _ _ _ hb
  case frame =>
    rw [hfields]
    exact ⟨fun _ => rfl, ⟨fun _ => rfl, fun _ => rfl, fun _ => rfl⟩, rfl, ⟨rfl, rfl, rfl⟩, rfl⟩

/-! ### The statements -/

/-- Settles O21: the encryption of the payload is what the in-place transform leaves. -/
theorem encryptTransformsPayload : Obligations.EncryptTransformsPayload := fun _ _ _ _ _ =>
  ⟨rfl, fun h => ⟨_, exec_chainInstr_of_ready h .encrypt, respond_chained_frame rfl⟩⟩

/-- Settles O22: the decryption of the payload is what the in-place transform leaves. -/
theorem decryptTransformsPayload : Obligations.DecryptTransformsPayload := fun _ _ _ _ _ =>
  ⟨rfl, fun h => ⟨_, exec_chainInstr_of_ready h .decrypt, respond_chained_frame rfl⟩⟩

/-- A command of the pair and then the other, with the same operands, restore payload memory (R136). -/
theorem chainInstr_undone {c : Byte} {a n : Half} (h : ChainReady t c.toNat a.toNat n.toNat s)
    (dir : Direction) :
    ∃ u v, exec (chainInstr dir t c a n) s = .next u ∧ exec (chainInstr dir.inverse t c a n) u = .next v ∧
      SameMemory s v := by
  obtain ⟨u, hu⟩ : ∃ u, u = respond .ce [] (chained dir t c.toNat a.toNat n.toNat s) := ⟨_, rfl⟩
  obtain ⟨hpayload, houtside, hctx, -, -, ⟨hpar, -⟩, -⟩ := respond_chained_frame hu
  have hready : ChainReady t c.toNat a.toNat n.toNat u := by rwa [ChainReady, hctx, hpar]
  obtain ⟨v, hv⟩ : ∃ v, v = respond .ce [] (chained dir.inverse t c.toNat a.toNat n.toNat u) := ⟨_, rfl⟩
  obtain ⟨hpayload', houtside', -⟩ := respond_chained_frame hv
  refine ⟨u, v, hu ▸ exec_chainInstr_of_ready h dir, hv ▸ exec_chainInstr_of_ready hready dir.inverse, fun b => ?_⟩
  by_cases hb : b < a.toNat ∨ a.toNat + n.toNat ≤ b
  · rw [houtside' b hb, houtside b hb]
  · rw [hctx, hpayload, payloadTransform_inverse] at hpayload'
    exact State.readByte_of_readBytes_eq hpayload' (by omega) (by omega)

/-- Settles O23, from either direction. -/
theorem chainRoundTrip : Obligations.ChainRoundTrip := fun _ _ _ _ _ _ h =>
  ⟨chainInstr_undone h .encrypt, chainInstr_undone h .decrypt⟩

/-- Settles O20: the operands are the first check, then the flags in the order of `missingPrerequisite`. -/
theorem chainCheckOrder : Obligations.ChainCheckOrder := by
  intro t c a n s i hi
  obtain ⟨dir, rfl⟩ : ∃ dir, i = chainInstr dir t c a n := hi.elim (⟨.encrypt, ·⟩) (⟨.decrypt, ·⟩)
  refine ⟨fun hbad => failsCe_of_chainCheck (chainCheck_of_bad_operand hbad) dir, fun hc hn hr ht => ?_⟩
  have hfails (e : Status) (he : missingPrerequisite (s.ctx c.toNat).st = some e) :
      FailsCe (statusCode e) (chainInstr dir t c a n) s :=
    failsCe_of_chainCheck ((chainCheck_of_good_operands hc ⟨hn, hr⟩ ht).trans he) dir
  refine ⟨fun hiv => ?iv, fun hiv hsk => ?sk, fun hiv hsk hdk => ?dk⟩
  case iv => exact hfails .unsetInitVector (by simp [missingPrerequisite, hiv])
  case sk => exact hfails .unsetSystemKey (by simp [missingPrerequisite, hiv, hsk])
  case dk => exact hfails .unsetDataKey (by simp [missingPrerequisite, hiv, hsk, hdk])

/-- The payload a command of the pair leaves, as a function of `IV`, work key, round count and payload (R137). -/
theorem readBytes_of_exec_chainInstr {c : Byte} {a n : Half} {dir : Direction} {u : State}
    (h : ChainReady t c.toNat a.toNat n.toNat s) (hu : exec (chainInstr dir t c a n) s = .next u) :
    u.readBytes a.toNat n.toNat =
      payloadTransform dir (selectWorkKey t (s.ctx c.toNat)) (s.ctx c.toNat).round.toNat (s.ctx c.toNat).iv
        (s.readBytes a.toNat n.toNat) := by
  cases (exec_chainInstr_of_ready h dir).symm.trans hu
  obtain ⟨hpayload, -⟩ := respond_chained_frame (t := t) (c := c.toNat) (s := s) rfl
  exact hpayload

/-- Settles O24: in either direction both payloads are the same function of the same arguments. -/
theorem chainCallsIndependent : Obligations.ChainCallsIndependent := by
  intro t t' c c' a a' n s s' u u' h h' hiv hround hkey hpayload
  have hsame (dir : Direction) (hu : exec (chainInstr dir t c a n) s = .next u)
      (hu' : exec (chainInstr dir t' c' a' n) s' = .next u') :
      u'.readBytes a'.toNat n.toNat = u.readBytes a.toNat n.toNat := by
    rw [readBytes_of_exec_chainInstr h hu, readBytes_of_exec_chainInstr h' hu', hkey, hround, hiv, hpayload]
  exact ⟨hsame .encrypt, hsame .decrypt⟩

/-- Settles O25: a payload of fewer than 8 bytes is all tail. -/
theorem shortPayloadSameBothWays : Obligations.ShortPayloadSameBothWays := by
  intro t c a n s h
  have hcommand : chainCommand .encrypt t c.toNat a.toNat n.toNat s = chainCommand .decrypt t c.toNat a.toNat n.toNat s := by
    simp only [chainCommand, chainRun_short _ _ _ _ _ _ h]
  calc exec (.encrypt t c a n) s
      = .next (chainResponse (chainCommand .encrypt t c.toNat a.toNat n.toNat s) s) := exec_chainInstr .encrypt ..
    _ = .next (chainResponse (chainCommand .decrypt t c.toNat a.toNat n.toNat s) s) := by rw [hcommand]
    _ = exec (.decrypt t c a n) s := (exec_chainInstr .decrypt ..).symm

end Sys2Proof.Machine
end

section
/-! Scrambled packets (spec/43_demux_packet.md R145, R150, R151): a packet that is classified reaches steps 8 to 12, and one
that resolves is decrypted in place. -/

namespace Sys2Proof.Safety

open Sys2Proof.Machine

/-! ### The steps before classification -/

variable {s : State}

/-- No phase change is due: `advance()` does nothing (R183). -/
theorem advance_of_not_due (h : ¬ AdvanceDue s) : advance s = s := by
  rcases advance_cases s with ⟨he, -⟩ | ⟨-, hp, hg, -⟩ | ⟨-, hp, hg, -⟩ | ⟨-, hp, hd⟩
  · exact he
  · exact absurd (.inl ⟨hp, (progsParsed_iff s).mp hg⟩) h
  · exact absurd (.inl ⟨hp, (progsParsed_iff s).mp hg⟩) h
  · exact absurd (.inr ⟨hp, (decsParsed_iff s).mp hd⟩) h

/-- Steps 1 to 3 of R145 let a submitted packet through. -/
theorem exec_dmxPacket_of_submitted {addr : Half} (h : Submitted addr.toNat s) :
    exec (.dmxPacket addr) s = .next (examinePacket addr.toNat s) := by
  obtain ⟨hfits, hunit, hdue⟩ := h
  rcases execDmxPacket_cases addr s with ⟨hbad, -⟩ | ⟨-, hu, -⟩ | ⟨-, -, hadv, -⟩ | ⟨-, -, -, he⟩
  · exact absurd ((packetOk_iff ..).mpr hfits) (Bool.eq_false_iff.mp hbad)
  · exact absurd hu hunit
  · exact absurd (by rw [advance_of_not_due hdue]) hadv
  · exact he

/-- Step 5 of R145 lets a packet within its budget through. -/
theorem budgetError_of_withinBudget (h : WithinBudget s) : budgetError s = none := by
  obtain ⟨hpat, hpmt, hecm⟩ := h
  unfold budgetError budgetLimit
  cases hp : s.pipe.phase with
  | unit => rfl
  | pat => exact if_neg (Nat.not_lt.mpr (hpat hp))
  | pmt => exact if_neg (Nat.not_lt.mpr (hpmt hp))
  | ecm => exact if_neg (Nat.not_lt.mpr (hecm hp))
  | steady => rfl

/-- Step 7 drops only in the steady state, once a unit size is known (R148). -/
theorem nullDropped_of_dropsNull {a : Nat} (hunit : s.pipe.phase ≠ .unit) (h : dropsNull a s) : NullDropped a s := by
  obtain ⟨hacq, hnull⟩ := h
  refine ⟨?_, hnull⟩
  cases hp : s.pipe.phase <;> simp_all [acquiring]

/-- Steps 1 to 7 of R145 let a classified packet through. -/
theorem exec_dmxPacket_of_classified {addr : Half} (h : Classified addr.toNat s) :
    exec (.dmxPacket addr) s = .next (classifyPacket addr.toNat (headerAt s addr.toNat) s) := by
  obtain ⟨⟨hsub, hsync, hbudget⟩, htei, hnull, -⟩ := h
  have ⟨_, hunit, _⟩ := hsub
  rw [exec_dmxPacket_of_submitted hsub]
  refine congrArg _ ?_
  rcases examinePacket_cases addr.toNat s with
    ⟨hno, -⟩ | ⟨-, e, he, -⟩ | ⟨-, -, ht, -⟩ | ⟨-, -, -, hd, -⟩ | ⟨-, -, -, -, he⟩
  · exact absurd hsync hno
  · cases (budgetError_of_withinBudget hbudget).symm.trans he
  · cases htei.symm.trans ht
  · exact absurd (nullDropped_of_dropsNull hunit hd) hnull
  · exact he

/-! ### What a classified packet answers -/

/-- The response fields are those of R146. -/
theorem classifiedReply_eq (v : Verdict) (r : Route) (a : Nat) (s : State) :
    classifiedReply v r a s = packetFields (verdictCode v) (routeCode r) a s := by
  have hpusi : (BitVec.ofBool (headerAt s a).pusi).zeroExtend 8 = if (headerAt s a).pusi then 1 else 0 := by
    cases (headerAt s a).pusi <;> rfl
  simp only [classifiedReply, replyBytes, packetFields, entryAt, hpusi]

/-- Step 11 of R145, when it completes in the steady state, ends with EMIT (R150, R151). -/
theorem exec_dmxPacket_of_steadyPacket {addr : Half} (h : Classified addr.toNat s) (hp : s.pipe.phase = .steady)
    {r : Route} {u : State}
    (hu : steadyPacket addr.toNat (headerAt s addr.toNat) (spanAt s addr.toNat (headerAt s addr.toNat)) s = .ok (r, u)) :
    exec (.dmxPacket addr) s = .next (respond .dx (packetFields 0 (routeCode r) addr.toNat s) u) := by
  have ⟨_, _, _, hcorrupt⟩ := h
  rw [exec_dmxPacket_of_classified h]
  refine congrArg _ ?_
  rcases classifyPacket_cases addr.toNat s with ⟨hc, -⟩ | ⟨-, ha, -⟩ | ⟨-, -, e, he, -⟩ | ⟨-, -, r', u', he, hr⟩
  · cases hcorrupt.symm.trans hc
  · rw [hp] at ha
    cases ha
  · cases hu.symm.trans he
  · cases hu.symm.trans he
    rw [hr, classifiedReply_eq]
    rfl

/-! ### A packet that resolves -/

/-- The model's test of the scrambling control is the words' (R142). -/
theorem scrambled_of_scrambled {a : Nat} (h : Scrambled a s) :
    scrambled (headerAt s a) (spanAt s a (headerAt s a)) = true := by
  obtain ⟨hsc | hsc, hlen⟩ := h <;> simp [scrambled, hsc, hlen]

/-- The decryptor found is the one the PID is linked to (R150). -/
theorem descrambler_of_resolves {a d : Nat} (h : Resolves a d s) : descrambler s (entryAt s a) = some d := by
  obtain ⟨hrole, hlink, hdk⟩ := h
  simp only [descrambler, hrole, hlink, hdk, if_true]

/-- The checks of R130 pass for the DECRYPT of R150. -/
theorem chainReady_of_resolves {a d : Nat} (hc : Classified a s) (hs : Scrambled a s) (hr : Resolves a d s)
    (hd : d < s.par.nCtx) (hiv : (s.ctx d).st.iv = true) (hsk : (s.ctx d).st.sk = true) :
    ChainReady (headerAt s a).sc d (a + (spanAt s a (headerAt s a)).off) (spanAt s a (headerAt s a)).len s := by
  obtain ⟨⟨⟨hfits, -⟩, -⟩, -, -, hcorrupt⟩ := hc
  obtain ⟨hsc, hlen⟩ := hs
  obtain ⟨-, -, hdk⟩ := hr
  have hpayload := spanAt_fits hcorrupt
  exact ⟨hd, hlen, by omega, hsc.imp_right .inl, hiv, hsk, hdk⟩

/-- The payload lies after the header (R141). -/
theorem four_le_spanAt_off (s : State) (a : Nat) (h : PacketHeader) : 4 ≤ (spanAt s a h).off := by
  simp only [spanAt, payloadSpan]
  split <;> omega

/-- The state after step 11 for a packet of decryptor `d` (R150): the payload decrypted, the scrambling control cleared, the
packet counted. -/
def descrambled (a d : Nat) (h : PacketHeader) (p : PayloadSpan) (s : State) : State :=
  countNormal h.pid.toNat
    ((chained .decrypt h.sc d (a + p.off) p.len s).writeByte (a + 3) (s.readByte (a + 3) &&& 0x3F))

section Descrambled

variable {a d : Nat} {h : PacketHeader} {p : PayloadSpan}

theorem steadyPacket_of_ready (hs : scrambled h p = true) (hd : descrambler s (s.mapAt h.pid.toNat) = some d)
    (hready : ChainReady h.sc d (a + p.off) p.len s) :
    steadyPacket a h p s = .ok (.cipher, descrambled a d h p s) := by
  simp only [steadyPacket, hs, hd, descramble, chainCommand_of_ready hready, if_true, descrambled]

/-- A byte after step 11 (R150). -/
theorem readByte_descrambled (b : Nat) :
    (descrambled a d h p s).readByte b =
      if b = a + 3 then s.readByte (a + 3) &&& 0x3F
      else (chained .decrypt h.sc d (a + p.off) p.len s).readByte b := by
  rw [descrambled, (countNormal_blind _).readByte, State.readByte_writeByte]

/-- Payload memory after step 11, for a payload after the header and within the packet: the payload decrypted, the
scrambling-control bits cleared, every other byte as before (R150). -/
theorem descrambled_memory (hoff : 4 ≤ p.off) (hfits : p.off + p.len ≤ 188) :
    (descrambled a d h p s).readBytes (a + p.off) p.len =
        payloadDecrypt (selectWorkKey h.sc (s.ctx d)) (s.ctx d).round.toNat (s.ctx d).iv
          (s.readBytes (a + p.off) p.len) ∧
      (descrambled a d h p s).readByte (a + 3) = s.readByte (a + 3) &&& 0x3F ∧
      ∀ b, b ≠ a + 3 → (b < a + p.off ∨ a + 188 ≤ b) → (descrambled a d h p s).readByte b = s.readByte b := by
  refine ⟨?payload, ?control, fun b hctrl hb => ?outside⟩
  case payload =>
    refine (State.readBytes_congr fun b hb _ => ?_).trans (readBytes_chained .decrypt ..)
    rw [readByte_descrambled, if_neg (by omega)]
  case control => rw [readByte_descrambled, if_pos rfl]
  case outside =>
    rw [readByte_descrambled, if_neg hctrl]
    exact chainRun_outside _ _ _ _ _ _ _ (by omega)

/-- The entry of the packet's PID after step 11, and everything else (R150, R151). -/
theorem descrambled_frame (a d : Nat) (h : PacketHeader) (p : PayloadSpan) (s : State) :
    (descrambled a d h p s).mapAt h.pid.toNat =
        { s.mapAt h.pid.toNat with normal := (s.mapAt h.pid.toNat).normal + 1 } ∧
      SameMapBut h.pid.toNat s (descrambled a d h p s) ∧ SameProgs s (descrambled a d h p s) ∧
      SameDecs s (descrambled a d h p s) ∧ SameContexts s (descrambled a d h p s) ∧
      (descrambled a d h p s).pipe = s.pipe ∧ SameRest s (descrambled a d h p s) ∧
      (descrambled a d h p s).rsp = s.rsp := by
  obtain ⟨M, hM⟩ : ∃ M, descrambled a d h p s = countNormal h.pid.toNat { s with pmem := M } :=
    ⟨_, by rw [descrambled, chained_only]; rfl⟩
  rw [hM]
  exact ⟨State.mapAt_setMap_self .., fun q hq => (State.mapAt_setMap ..).trans (if_neg hq), fun _ => rfl, fun _ => rfl,
    fun _ => rfl, rfl, ⟨rfl, rfl, rfl⟩, rfl⟩

end Descrambled

/-! ### The statement -/

/-- Settles O47: the packet reaches step 11, where DECRYPT completes; the response changes none of what that left. -/
theorem packetDescrambled : Obligations.PacketDescrambled := by
  intro addr s d hc hp hs hr hd hiv hsk
  have hexec := exec_dmxPacket_of_steadyPacket hc hp
    (steadyPacket_of_ready (scrambled_of_scrambled hs) (descrambler_of_resolves hr)
      (chainReady_of_resolves hc hs hr hd hiv hsk))
  obtain ⟨-, -, -, hcorrupt⟩ := hc
  obtain ⟨hpayload, hctrl, houtside⟩ := descrambled_memory (four_le_spanAt_off ..) (spanAt_fits hcorrupt)
  obtain ⟨hentry, hmap, hprogs, hdecs, hctx, hpipe, hrest, hrsp⟩ := descrambled_frame addr.toNat d (headerAt s addr.toNat)
    (spanAt s addr.toNat (headerAt s addr.toNat)) s
  refine ⟨_, hexec, ?payload, hctrl, houtside, hentry, hmap, hprogs, hdecs, hctx, hpipe, hrest, ?answers⟩
  case payload => exact (State.readBytes_congr fun _ _ _ => respond_readByte ..).trans hpayload
  case answers => rw [Answers, respond_rsp, hrsp, hpipe, hp]; rfl

end Sys2Proof.Safety
end

section
/-! The pipeline control commands DMX_UNIT, DMX_CONFIG and DMX_RESET (spec/43_demux_packet.md R157 to R159). -/

namespace Sys2Proof.Safety

open Sys2Proof.Machine

variable {s t : State}

/-! ### Bits as numbers -/

/-- A bit of a word, by division (R13). -/
theorem getLsbD_eq_true_iff {w : Nat} (x : BitVec w) (i : Nat) : x.getLsbD i = true ↔ x.toNat / 2 ^ i % 2 = 1 := by
  rw [← BitVec.testBit_toNat, Nat.testBit_eq_decide_div_mod_eq, decide_eq_true_iff]

/-- A field of a byte: `len` bits from bit `start` on (R13). -/
theorem extractLsb'_toNat_eq (x : Byte) (start len : Nat) :
    (x.extractLsb' start len).toNat = x.toNat / 2 ^ start % 2 ^ len := by
  rw [BitVec.extractLsb'_toNat, Nat.shiftRight_eq_div_pow]

/-- FLAGS[7:2] = 0 says that the byte is below 4 (R91). -/
theorem flagsOk_iff (flags : Byte) : flagsOk flags = true ↔ flags.toNat < 4 := by
  have hlt := flags.isLt
  rw [flagsOk, beq_iff_eq, ← BitVec.toNat_inj, extractLsb'_toNat_eq]
  change flags.toNat / 4 % 64 = 0 ↔ flags.toNat < 4
  omega

theorem sizeOk_iff (size : Half) : sizeOk size = true ↔ 188 ≤ size.toNat := by simp [sizeOk]

/-! ### The ends of a command that changes the pipeline registers at most -/

/-- An error status of unit DX (R201). -/
theorem failsDx_of_raise {i : Instr} {e : Status} (h : exec i s = .next (raise .dx e s)) : FailsDx (statusCode e) i s :=
  h.trans (congrArg _ (raise_eq .dx e s))

/-- A normal end after a write of the pipeline registers: everything else is as it was (R82). -/
theorem respond_setPipe_frame {x : Pipe} {fields : List Byte} (ht : t = respond .dx fields (s.setPipe x)) :
    t.pipe = x ∧ SameContexts s t ∧ SameMemory s t ∧ SameTables s t ∧ SameRest s t ∧
      Answers (0x00 :: phaseCode x.phase :: fields) s t := by
  subst ht
  exact ⟨rfl, fun _ => rfl, fun _ => rfl, ⟨fun _ => rfl, fun _ => rfl, fun _ => rfl⟩, ⟨rfl, rfl, rfl⟩, rfl⟩

/-! ### DMX_UNIT -/

theorem exec_dmxUnit {size : Half} (hsize : 188 ≤ size.toNat) (hp : s.pipe.phase = .unit) :
    exec (.dmxUnit size) s =
      .next (respond .dx [] (s.setPipe { s.pipe with unit := size, phase := .pat, budget := 0 })) :=
  (if_pos ((sizeOk_iff size).mpr hsize)).trans (if_pos hp)

theorem exec_dmxUnit_of_phase {size : Half} (hsize : 188 ≤ size.toNat) (hp : s.pipe.phase ≠ .unit) :
    exec (.dmxUnit size) s = .next (raise .dx .badSequence s) :=
  (if_pos ((sizeOk_iff size).mpr hsize)).trans (if_neg hp)

/-- Settles O26: a size below 188 is an ill-formed operand, found before the phase is looked at. -/
theorem dmxUnit : Obligations.DmxUnit := fun _ _ =>
  ⟨rfl, fun hsize hp => ⟨_, exec_dmxUnit hsize hp, respond_setPipe_frame rfl⟩,
    fun hsize => failsDx_of_illFormed (decide_eq_false (Nat.not_le.mpr hsize)) rfl,
    fun hsize hp => failsDx_of_raise (exec_dmxUnit_of_phase hsize hp)⟩

/-! ### DMX_CONFIG -/

theorem exec_dmxConfig {flags n : Byte} (hflags : flags.toNat < 4) (hn : n ≠ 0) :
    exec (.dmxConfig flags n) s =
      .next (respond .dx [] (s.setPipe { s.pipe with cfg := ⟨flags.getLsbD 0, flags.getLsbD 1, n⟩ })) :=
  if_pos (Bool.and_eq_true_iff.mpr ⟨(flagsOk_iff flags).mpr hflags, (roundOk_iff n).mpr hn⟩)

/-- FLAGS[0] and FLAGS[1] of a legal FLAGS byte, as numbers (R158). -/
theorem flag_bits {flags : Byte} (h : flags.toNat < 4) :
    flags.getLsbD 0 = decide (flags.toNat % 2 = 1) ∧ flags.getLsbD 1 = decide (2 ≤ flags.toNat) := by
  constructor <;> rw [Bool.eq_iff_iff, getLsbD_eq_true_iff, decide_eq_true_iff] <;> omega

/-- Either operand alone, out of its range, makes DMX_CONFIG ill formed (R91). -/
theorem dmxConfig_illFormed {flags n : Byte} (h : 4 ≤ flags.toNat ∨ n = 0) : (flagsOk flags && roundOk n) = false := by
  rw [Bool.eq_false_iff, Ne, Bool.and_eq_true_iff, flagsOk_iff, roundOk_iff]
  rintro ⟨hflags, hn⟩
  exact h.elim (Nat.not_le.mpr hflags) hn

/-- Settles O27: the two flags are the bits of a byte below 4. -/
theorem dmxConfig : Obligations.DmxConfig := by
  refine fun flags n s => ⟨rfl, fun hflags hn => ?completes, fun h => failsDx_of_illFormed (dmxConfig_illFormed h) rfl⟩
  obtain ⟨hstrip, hemm⟩ := flag_bits hflags
  rw [← hstrip, ← hemm]
  exact ⟨_, exec_dmxConfig hflags hn, respond_setPipe_frame rfl⟩

/-! ### DMX_RESET -/

/-- Settles O28: the tables are wiped as PAT_BEGIN wipes them, and the pipeline registers set. -/
theorem dmxReset : Obligations.DmxReset := by
  refine ⟨rfl, fun s => ⟨_, rfl, fun c => ?contexts, fun p => ?map, fun i => ?progs, fun d => ?decs, rfl, fun _ => rfl,
    ⟨rfl, rfl, rfl⟩, rfl⟩⟩
  case contexts => rw [respond_ctx, State.setPipe_ctx, clearTopology_ctx]
  case map => exact mapAt_of_mapReset rfl p
  case progs => exact progAt_of_nil rfl i
  case decs => exact decAt_of_nil rfl d

end Sys2Proof.Safety
end

section
/-! The header of a packet and the position of its payload (spec/43_demux_packet.md R140 to R142), as numbers computed from its
bytes. -/

namespace Sys2Proof.Safety

open Sys2Proof.Machine

/-! ### The header -/

/-- The PID of a packet: 5 bits of one header byte and the 8 of the next (R140). -/
theorem parseHeader_pid_toNat (h0 h1 h2 h3 : Byte) :
    (parseHeader h0 h1 h2 h3).pid.toNat = h1.toNat % 32 * 256 + h2.toNat := by
  have hlt := h2.isLt
  rw [parseHeader, BitVec.toNat_append, ← Nat.shiftLeft_add_eq_or_of_lt hlt, extractLsb'_toNat_eq, Nat.shiftLeft_eq]
  omega

/-- Settles O40: each flag is a bit and each other field a run of bits of its byte. -/
theorem packetHeaderFields : Obligations.PacketHeaderFields := by
  intro s a
  have h1 := (s.readByte (a + 1)).isLt
  have h3 := (s.readByte (a + 3)).isLt
  refine ⟨rfl, ?tei, ?pusi, ?prio, parseHeader_pid_toNat .., ?sc, ?afc, ?cc⟩
  case tei => exact (getLsbD_eq_true_iff _ 7).trans (by omega)
  case pusi => exact (getLsbD_eq_true_iff _ 6).trans (by omega)
  case prio => exact (getLsbD_eq_true_iff _ 5).trans (by omega)
  case sc => exact (extractLsb'_toNat_eq _ 6 2).trans (by omega)
  case afc => exact (extractLsb'_toNat_eq _ 4 2).trans (by omega)
  case cc => exact (extractLsb'_toNat_eq _ 0 4).trans (by omega)

/-! ### The payload -/

/-- AFC[1] = 1: the packet has an adaptation field (R141). -/
theorem afc_getLsbD_one_iff (x : BitVec 2) : x.getLsbD 1 = true ↔ 2 ≤ x.toNat := by
  have hlt := x.isLt
  rw [getLsbD_eq_true_iff]
  omega

/-- AFC[0] = 1: the packet has a payload (R141). -/
theorem afc_getLsbD_zero_iff (x : BitVec 2) : x.getLsbD 0 = true ↔ x.toNat % 2 = 1 := by
  rw [getLsbD_eq_true_iff]
  omega

/-- The payload follows the header, or the adaptation field and its length byte (R141). -/
theorem spanAt_off (s : State) (a : Nat) (h : PacketHeader) :
    (spanAt s a h).off = if 2 ≤ h.afc.toNat then 5 + (s.readByte (a + 4)).toNat else 4 := by
  simp only [spanAt, payloadSpan, ← afc_getLsbD_one_iff]
  split <;> rfl

/-- A packet is corrupt when nothing is left after its header, or no byte where AFC asks for one (R141). -/
theorem spanAt_corrupt_iff (s : State) (a : Nat) (h : PacketHeader) :
    (spanAt s a h).corrupt = true ↔
      (188 - (spanAt s a h).off : Int) < 0 ∨ (h.afc.toNat % 2 = 1 ∧ (188 - (spanAt s a h).off : Int) < 1) := by
  simp only [spanAt, payloadSpan, Bool.or_eq_true, Bool.and_eq_true, decide_eq_true_iff, afc_getLsbD_zero_iff]

/-- The payload of a packet with AFC[0] = 1 goes on to its end (R141). -/
theorem spanAt_len (s : State) (a : Nat) (h : PacketHeader) :
    (spanAt s a h).len = if h.afc.toNat % 2 = 1 then (188 - (spanAt s a h).off : Int).toNat else 0 := by
  simp only [spanAt, payloadSpan, ← afc_getLsbD_zero_iff]

/-- Settles O41: `n` is not negative for a packet that is not corrupt. -/
theorem payloadPosition : Obligations.PayloadPosition := by
  rintro s a off h n hoff rfl
  have hspan : (spanAt s a h).off = off := (spanAt_off s a h).trans hoff.symm
  have hcorrupt := spanAt_corrupt_iff s a h
  rw [hspan] at hcorrupt
  refine ⟨hspan, hcorrupt, fun hc => ⟨?len, spanAt_fits hc⟩⟩
  case len =>
    have hn : ¬ (188 - off : Int) < 0 := fun hlt => by simp [hcorrupt.mpr (.inl hlt)] at hc
    rw [spanAt_len, hspan]
    split
    · exact Int.toNat_of_nonneg (not_lt.mp hn)
    · rfl

end Sys2Proof.Safety
end

section
/-! DMX_PACKET's ends (spec/43_demux_packet.md R145 to R153): the packets refused, those answered without being classified, those
held in acquisition, and those that the steady state emits without descrambling them. -/

namespace Sys2Proof.Safety

open Sys2Proof.Machine

variable {s t : State} {a : Nat} {addr : Half}

/-! ### Refusals and the phase change (steps 1, 2, 3 and 5 of R145) -/

theorem exec_dmxPacket_of_unit (hfits : addr.toNat + 188 ≤ s.par.pmemSize) (hp : s.pipe.phase = .unit) :
    exec (.dmxPacket addr) s = .next (raise .dx .badSequence s) :=
  (if_pos ((packetOk_iff ..).mpr hfits)).trans (if_pos hp)

/-- A submitted packet over its budget ends with the status of its phase (R153). -/
theorem exec_dmxPacket_of_budgetError {e : Status} (h : Submitted addr.toNat s)
    (hsync : (headerAt s addr.toNat).sync = 0x47) (hb : budgetError s = some e) :
    exec (.dmxPacket addr) s = .next (raise .dx e s) := by
  rw [exec_dmxPacket_of_submitted h]
  refine congrArg _ ((if_neg (not_not.mpr hsync)).trans ?_)
  rw [hb]

/-- One more unit would exceed the budget of the phase (R153, R197). -/
theorem budgetError_of_limit {lim : Nat} {e : Status} (hlim : budgetLimit s.par s.pipe.phase = some (lim, e))
    (hover : lim < s.pipe.budget + s.pipe.unit.toNat) : budgetError s = some e := by
  rw [budgetError, hlim]
  exact if_pos hover

/-- Settles O42: the three budgets differ in the limit and the status alone. -/
theorem packetRefused : Obligations.PacketRefused := by
  refine fun addr s => ⟨rfl, fun hout => failsDx_of_illFormed (decide_eq_false (Nat.not_le.mpr hout)) rfl,
    fun hfits hp => failsDx_of_raise (exec_dmxPacket_of_unit hfits hp), fun hsub hsync => ?budget⟩
  have hfails {lim : Nat} {e : Status} (hlim : budgetLimit s.par s.pipe.phase = some (lim, e))
      (hover : lim < s.pipe.budget + s.pipe.unit.toNat) : FailsDx (statusCode e) (.dmxPacket addr) s :=
    failsDx_of_raise (exec_dmxPacket_of_budgetError hsub hsync (budgetError_of_limit hlim hover))
  exact ⟨fun hp => hfails (by rw [hp]; rfl), fun hp => hfails (by rw [hp]; rfl), fun hp => hfails (by rw [hp]; rfl)⟩

/-- A verdict with "others 0" (R146). -/
theorem replyBytes_bareReply (v : Verdict) : replyBytes (bareReply v) = bareFields (verdictCode v) := by
  have hpaddr : paddrField 0 = 0 := if_pos (by decide)
  simp only [replyBytes, bareReply, hpaddr]
  rfl

/-- `advance()` is what the words say of the pipeline registers, over tables it leaves as they are (R183). -/
theorem advanced_advance (s : State) : Advanced s (s.setPipe (advance s).pipe) := by
  have hprogs : progsParsed s = true ↔ AllProgsParsed (s.setPipe (advance s).pipe) := progsParsed_iff s
  have hdecs : decsParsed s = true ↔ AllDecsParsed (s.setPipe (advance s).pipe) := decsParsed_iff s
  simp only [Advanced, ← hprogs, ← hdecs, State.setPipe_pipe]
  rcases advance_cases s with ⟨he, hpmt, hecm⟩ | ⟨he, hp, hg, hd⟩ | ⟨he, hp, hg, hd⟩ | ⟨he, hp, hd⟩ <;> rw [he]
  · exact ⟨fun hp hg => absurd ⟨hp, hg⟩ hpmt, fun hp hg => absurd ⟨hp, hg⟩ hpmt, fun _ _ => rfl,
      fun hp hd => absurd ⟨hp, hd⟩ hecm, fun _ _ => rfl, fun _ _ => rfl⟩
  · simp [hp, hg, hd]
  · simp [hp, hg, hd]
  · simp [hp, hd]

/-- A phase change that is due moves the phase (R183). -/
theorem advance_phase_ne_of_due (h : AdvanceDue s) : (advance s).pipe.phase ≠ s.pipe.phase := by
  rw [AdvanceDue, ← progsParsed_iff, ← decsParsed_iff] at h
  rcases advance_cases s with ⟨-, hpmt, hecm⟩ | ⟨he, hp, -⟩ | ⟨he, hp, -⟩ | ⟨he, hp, -⟩
  · exact absurd h (not_or.mpr ⟨hpmt, hecm⟩)
  all_goals
    rw [he, enterPhase_pipe, hp]
    exact nofun

theorem exec_dmxPacket_of_due (hfits : addr.toNat + 188 ≤ s.par.pmemSize) (h : AdvanceDue s) :
    exec (.dmxPacket addr) s = .next (respond .dx (bareFields 2) (s.setPipe (advance s).pipe)) := by
  have hunit : s.pipe.phase ≠ .unit := by rcases h with ⟨hp, -⟩ | ⟨hp, -⟩ <;> rw [hp] <;> exact nofun
  rw [State.setPipe, ← advance_only]
  exact (if_pos ((packetOk_iff ..).mpr hfits)).trans ((if_neg hunit).trans (if_pos (advance_phase_ne_of_due h)))

/-- Settles O43: the command is `advance()` with its response. -/
theorem packetAdvancesPhase : Obligations.PacketAdvancesPhase := fun _ s hfits hdue =>
  ⟨_, exec_dmxPacket_of_due hfits hdue, advanced_advance s, advance_phase_ne_of_due hdue,
    (respond_setPipe_frame rfl).2⟩

/-! ### Packets that are not classified (steps 4, 6, 7 and 8 of R145) -/

theorem exec_dmxPacket_of_no_sync (h : Submitted addr.toNat s) (hsync : (headerAt s addr.toNat).sync ≠ 0x47) :
    exec (.dmxPacket addr) s = .next (respond .dx (bareFields 3) s) := by
  rw [exec_dmxPacket_of_submitted h]
  exact congrArg _ (if_pos hsync)

/-- The steady state charges nothing (R153). -/
theorem charge_of_steady (hp : s.pipe.phase = .steady) (n : Nat) : charge n s = s := by
  rw [charge, hp]
  rfl

theorem charge_of_acquiring (h : Acquiring s) (n : Nat) :
    charge n s = s.setPipe { s.pipe with budget := s.pipe.budget + n } := if_pos ((acquiring_iff _).mpr h)

theorem dropsNull_of_nullDropped (h : NullDropped a s) : dropsNull a s := by
  obtain ⟨hp, hnull⟩ := h
  exact ⟨by rw [hp]; rfl, hnull⟩

/-- Steps 6 and 7 of R145 for an examined packet: the transport error indicator, a dropped null packet, or the rest. -/
theorem exec_dmxPacket_of_examined (h : Examined addr.toNat s) :
    ((headerAt s addr.toNat).tei = true ∧ exec (.dmxPacket addr) s =
      .next (respond .dx (replyBytes (bareReply (if acquiring s.pipe.phase then .hold else .emit)))
        (charge s.pipe.unit.toNat s))) ∨
    ((headerAt s addr.toNat).tei = false ∧ NullDropped addr.toNat s ∧
      exec (.dmxPacket addr) s = .next (respond .dx (bareFields 1) s)) ∨
    ((headerAt s addr.toNat).tei = false ∧ ¬ NullDropped addr.toNat s ∧
      exec (.dmxPacket addr) s = .next (classifyPacket addr.toNat (headerAt s addr.toNat) s)) := by
  obtain ⟨hsub, hsync, hbudget⟩ := h
  have ⟨_, hunit, _⟩ := hsub
  rw [exec_dmxPacket_of_submitted hsub]
  rcases examinePacket_cases addr.toNat s with
    ⟨hno, -⟩ | ⟨-, e, he, -⟩ | ⟨-, -, ht, he⟩ | ⟨-, -, ht, hd, he⟩ | ⟨-, -, ht, hd, he⟩
  · exact absurd hsync hno
  · cases (budgetError_of_withinBudget hbudget).symm.trans he
  · exact .inl ⟨ht, congrArg _ he⟩
  · exact .inr (.inl ⟨ht, nullDropped_of_dropsNull hunit hd, congrArg _ he⟩)
  · exact .inr (.inr ⟨ht, fun hn => hd (dropsNull_of_nullDropped hn), congrArg _ he⟩)

/-- The transport error indicator: EMIT in the steady state, HOLD in acquisition (R147). -/
theorem exec_dmxPacket_of_tei (h : Examined addr.toNat s) (htei : (headerAt s addr.toNat).tei = true) :
    exec (.dmxPacket addr) s =
      .next (respond .dx (replyBytes (bareReply (if acquiring s.pipe.phase then .hold else .emit)))
        (charge s.pipe.unit.toNat s)) := by
  rcases exec_dmxPacket_of_examined h with ⟨-, he⟩ | ⟨hno, -⟩ | ⟨hno, -⟩
  · exact he
  all_goals cases htei.symm.trans hno

theorem exec_dmxPacket_of_nullDropped (h : Examined addr.toNat s) (htei : (headerAt s addr.toNat).tei = false)
    (hnull : NullDropped addr.toNat s) : exec (.dmxPacket addr) s = .next (respond .dx (bareFields 1) s) := by
  rcases exec_dmxPacket_of_examined h with ⟨ht, -⟩ | ⟨-, -, he⟩ | ⟨-, hno, -⟩
  · cases ht.symm.trans htei
  · exact he
  · exact absurd hnull hno

/-- A corrupt packet: SKIP1, and one byte of the budget (R149). -/
theorem exec_dmxPacket_of_corrupt (h : Examined addr.toNat s) (htei : (headerAt s addr.toNat).tei = false)
    (hnull : ¬ NullDropped addr.toNat s) (hc : (spanAt s addr.toNat (headerAt s addr.toNat)).corrupt = true) :
    exec (.dmxPacket addr) s = .next (respond .dx (bareFields 4) (charge 1 s)) := by
  rcases exec_dmxPacket_of_examined h with ⟨ht, -⟩ | ⟨-, hn, -⟩ | ⟨-, -, he⟩
  · cases ht.symm.trans htei
  · exact absurd hn hnull
  · exact he.trans (congrArg _ (if_pos hc))

/-- A normal end in the steady state changes the response alone. -/
theorem respond_of_steady (hp : s.pipe.phase = .steady) (fields : List Byte) :
    respond .dx fields s = { s with rsp := s.rsp ++ (0x00 :: 4 :: fields) } := by
  rw [respond, hp]
  rfl

/-- Settles O44: each verdict is one outcome of the steps 4 to 8, and what it charges depends on the phase alone. -/
theorem packetNotClassified : Obligations.PacketNotClassified := by
  refine fun addr s => ⟨fun hsub hsync => exec_dmxPacket_of_no_sync hsub hsync,
    fun hex htei => ⟨fun hp => ?teiSteady, fun hacq => ?teiAcquiring⟩, fun hex htei hnull => ?null,
    fun hex htei hnull hc => ⟨fun hp => ?corruptSteady, fun hacq => ?corruptAcquiring⟩⟩
  case teiSteady =>
    rw [exec_dmxPacket_of_tei hex htei, charge_of_steady hp, respond_of_steady hp, hp]
    rfl
  case teiAcquiring =>
    rw [exec_dmxPacket_of_tei hex htei, charge_of_acquiring hacq, if_pos ((acquiring_iff _).mpr hacq)]
    rfl
  case null =>
    have ⟨hp, _⟩ := hnull
    rw [exec_dmxPacket_of_nullDropped hex htei hnull, respond_of_steady hp]
  case corruptSteady => rw [exec_dmxPacket_of_corrupt hex htei hnull hc, charge_of_steady hp, respond_of_steady hp]
  case corruptAcquiring =>
    rw [exec_dmxPacket_of_corrupt hex htei hnull hc, charge_of_acquiring hacq]
    rfl

/-! ### Packets held in acquisition (R153) -/

/-- SC[1] = 1: the scrambling control is 2 or 3 (R142). -/
theorem sc_getLsbD_one_iff (x : BitVec 2) : x.getLsbD 1 = true ↔ x = 2 ∨ x = 3 := by
  revert x
  decide

/-- The model's test of a scrambled packet is the words' (R142). -/
theorem scrambled_iff (s : State) (a : Nat) :
    scrambled (headerAt s a) (spanAt s a (headerAt s a)) = true ↔ Scrambled a s := by
  rw [scrambled, Bool.and_eq_true, sc_getLsbD_one_iff, decide_eq_true_iff, Scrambled]

/-- A route is PASS or SECTION, by whether the section is wanted (R146). -/
theorem routeCode_of_wanted {W : Prop} {r : Route} {b : Byte} (hr : r = .pass ∨ r = .toSection)
    (hw : r = .toSection ↔ W) (hb : W ∧ b = 1 ∨ ¬ W ∧ b = 0) : routeCode r = b := by
  rcases hb with ⟨hW, rfl⟩ | ⟨hW, rfl⟩
  · rw [hw.mpr hW]
    rfl
  · rw [hr.resolve_right fun h => hW (hw.mp h)]
    rfl

/-- A settle counter below 2 is one that is not at 2 (R42). -/
theorem settleCode_lt_two_iff (x : Settle) : settleCode x < 2 ↔ x ≠ .stable := by cases x <;> decide

/-- The acquisition scan routes to PASS or to SECTION. -/
theorem scanRoute_cases (s : State) (e : MapEntry) (scr : Bool) (n : Nat) :
    scanRoute s e scr n = .pass ∨ scanRoute s e scr n = .toSection := by
  unfold scanRoute
  repeat' split
  all_goals simp

/-- The acquisition scan waits for the sections of its phase (R153). -/
theorem scanRoute_eq_toSection_iff (s : State) (e : MapEntry) (scr : Bool) (n : Nat) :
    scanRoute s e scr n = .toSection ↔ scr = false ∧ 1 ≤ n ∧
      ((s.pipe.phase = .pat ∧ e.role = .pat) ∨
       (s.pipe.phase = .pmt ∧ e.role = .pmt ∧ ∃ i, e.link = .prog i ∧ (s.progAt i).phase ≠ .stable) ∨
       (s.pipe.phase = .ecm ∧ e.role = .ecm ∧ ∃ d, e.link = .dec d ∧ (s.decAt d).phase ≠ .stable)) := by
  unfold scanRoute
  split
  · next hempty =>
    exact iff_of_false nofun fun ⟨hscr, hn, _⟩ => hempty.elim (Bool.eq_false_iff.mp hscr) (Nat.ne_of_gt hn)
  · next hfull =>
    obtain ⟨hscr, hn⟩ := not_or.mp hfull
    have hpayload : scr = false ∧ 1 ≤ n := ⟨Bool.eq_false_iff.mpr hscr, Nat.pos_of_ne_zero hn⟩
    rw [← and_assoc, and_iff_right hpayload]
    cases s.pipe.phase with
    | unit => simp
    | pat => simp
    | pmt =>
      simp only [reduceCtorEq, false_and, true_and, false_or, or_false, settleCode_lt_two_iff]
      split
      · next i hrole hlink => simp [hrole, hlink]
      · next hno => exact iff_of_false nofun fun ⟨hrole, i, hlink, _⟩ => hno i hrole hlink
    | ecm =>
      simp only [reduceCtorEq, false_and, true_and, false_or, settleCode_lt_two_iff]
      split
      · next d hrole hlink => simp [hrole, hlink]
      · next hno => exact iff_of_false nofun fun ⟨hrole, d, hlink, _⟩ => hno d hrole hlink
    | steady => simp

/-- The route of a packet held is the one the words ask for (R153). -/
theorem routeCode_scanRoute {route : Byte} (hr : ScanWanted a s ∧ route = 1 ∨ ¬ ScanWanted a s ∧ route = 0) :
    routeCode (scanRoute s (entryAt s a) (scrambled (headerAt s a) (spanAt s a (headerAt s a)))
      (spanAt s a (headerAt s a)).len) = route := by
  refine routeCode_of_wanted (scanRoute_cases ..) ?_ hr
  rw [scanRoute_eq_toSection_iff, ScanWanted, ← scrambled_iff, Bool.not_eq_true]

/-- Step 9 of R145: a packet classified in acquisition is held (R153). -/
theorem exec_dmxPacket_of_acquiring (h : Classified addr.toNat s) (hacq : Acquiring s) :
    exec (.dmxPacket addr) s = .next (respond .dx
      (packetFields 2
        (routeCode (scanRoute s (entryAt s addr.toNat)
          (scrambled (headerAt s addr.toNat) (spanAt s addr.toNat (headerAt s addr.toNat)))
          (spanAt s addr.toNat (headerAt s addr.toNat)).len)) addr.toNat s)
      (charge s.pipe.unit.toNat s)) := by
  have ⟨_, _, _, hcorrupt⟩ := h
  have hphase := (acquiring_iff _).mpr hacq
  rw [exec_dmxPacket_of_classified h]
  refine congrArg _ ?_
  rcases classifyPacket_cases addr.toNat s with ⟨hc, -⟩ | ⟨-, -, he⟩ | ⟨-, hno, -⟩ | ⟨-, hno, -⟩
  · cases hcorrupt.symm.trans hc
  · rw [he, classifiedReply_eq]
    rfl
  all_goals cases hphase.symm.trans hno

/-- Settles O45: the model's scan asks for the section that the words name. -/
theorem packetHeld : Obligations.PacketHeld := by
  intro addr s route hc hacq hroute
  rw [exec_dmxPacket_of_acquiring hc hacq, routeCode_scanRoute hroute, charge_of_acquiring hacq]
  rfl

/-! ### Packets emitted as they are (R150 to R152, R199) -/

/-- A normal end in the steady state after a write of one entry: everything else is as it was (R82). -/
theorem respond_setMap_frame {p : Nat} {e : MapEntry} {fields : List Byte} (hp : s.pipe.phase = .steady)
    (ht : t = respond .dx fields (s.setMap p e)) :
    t.mapAt p = e ∧ SameMapBut p s t ∧ SameProgs s t ∧ SameDecs s t ∧ SameContexts s t ∧ SameMemory s t ∧
      t.pipe = s.pipe ∧ SameRest s t ∧ Answers (0x00 :: 4 :: fields) s t := by
  subst ht
  refine ⟨State.mapAt_setMap_self .., fun q hq => (State.mapAt_setMap ..).trans (if_neg hq), fun _ => rfl, fun _ => rfl,
    fun _ => rfl, fun _ => rfl, rfl, ⟨rfl, rfl, rfl⟩, ?_⟩
  rw [Answers, respond_rsp, State.setMap_pipe, hp]
  rfl

/-- The steady state routes a clear packet to PASS or to SECTION (R152). -/
theorem clearRoute_cases (s : State) (e : MapEntry) (n : Nat) :
    clearRoute s e n = .pass ∨ clearRoute s e n = .toSection := by
  unfold clearRoute
  repeat' split
  all_goals simp

/-- The steady state wants the sections of a PID by its role (R152). -/
theorem clearRoute_eq_toSection_iff (s : State) (e : MapEntry) (n : Nat) :
    clearRoute s e n = .toSection ↔ 1 ≤ n ∧ (e.role = .pat ∨ e.role = .pmt ∨ e.role = .ecm ∨
      ((e.role = .cat ∨ e.role = .emm) ∧ s.pipe.cfg.emmEn = true)) := by
  unfold clearRoute
  split
  · next hempty => exact iff_of_false nofun fun ⟨hn, _⟩ => Nat.ne_of_gt hn hempty
  · next hfull =>
    have hn : 1 ≤ n := Nat.pos_of_ne_zero hfull
    rw [and_iff_right hn]
    cases e.role <;> simp

/-- Step 11 for a packet that is not scrambled (R151, R152). -/
theorem steadyPacket_of_clear (h : ¬ Scrambled a s) :
    steadyPacket a (headerAt s a) (spanAt s a (headerAt s a)) s =
      .ok (clearRoute s (entryAt s a) (spanAt s a (headerAt s a)).len, countNormal (headerAt s a).pid.toNat s) :=
  if_neg (mt (scrambled_iff s a).mp h)

/-- Settles O46: the packet reaches step 11, which counts it. -/
theorem packetClear : Obligations.PacketClear := by
  intro addr s route hc hp hclear hroute
  have hexec := exec_dmxPacket_of_steadyPacket hc hp (steadyPacket_of_clear hclear)
  rw [routeCode_of_wanted (clearRoute_cases ..) (clearRoute_eq_toSection_iff ..) hroute] at hexec
  exact ⟨_, hexec, respond_setMap_frame hp rfl⟩

/-- No decryptor is found for a packet that does not resolve (R150). -/
theorem descrambler_of_not_resolves (h : ∀ d, ¬ Resolves a d s) : descrambler s (entryAt s a) = none := by
  unfold descrambler
  split
  · next d hrole hlink => exact if_neg fun hdk => h d ⟨hrole, hlink, hdk⟩
  · rfl

theorem steadyPacket_of_not_resolves (hs : Scrambled a s) (h : ∀ d, ¬ Resolves a d s) :
    steadyPacket a (headerAt s a) (spanAt s a (headerAt s a)) s =
      .ok (.undec, countUndec (headerAt s a).pid.toNat s) := by
  have hdesc := descrambler_of_not_resolves h
  rw [entryAt] at hdesc
  simp only [steadyPacket, scrambled_of_scrambled hs, hdesc, if_true]

/-- A DECRYPT with no IV or no system key fails (R130, R196). -/
theorem chainCommand_of_missing {dir : Direction} {k : BitVec 2} {c n : Nat}
    (h : (s.ctx c).st.iv = false ∨ (s.ctx c).st.sk = false) : ∃ e, chainCommand dir k c a n s = .error e := by
  rcases chainCommand_cases dir k c a n s with ⟨e, -, he⟩ | ⟨hnone, -⟩
  · exact ⟨e, he⟩
  · obtain ⟨-, -, -, -, hiv, hsk, -⟩ := (chainCheck_none_iff_ready ..).mp hnone
    simp [hiv, hsk] at h

theorem steadyPacket_of_missing {d : Nat} (hs : Scrambled a s) (hr : Resolves a d s)
    (h : (s.ctx d).st.iv = false ∨ (s.ctx d).st.sk = false) :
    steadyPacket a (headerAt s a) (spanAt s a (headerAt s a)) s = .error .decryptFailure := by
  have hdesc := descrambler_of_resolves hr
  rw [entryAt] at hdesc
  obtain ⟨e, he⟩ := chainCommand_of_missing (dir := .decrypt) (k := (headerAt s a).sc)
    (a := a + (spanAt s a (headerAt s a)).off) (n := (spanAt s a (headerAt s a)).len) h
  simp only [steadyPacket, scrambled_of_scrambled hs, hdesc, descramble, he, if_true]

/-- Step 11 of R145, when its DECRYPT fails, ends the command (R150, R199). -/
theorem exec_dmxPacket_of_steadyPacket_error {e : Status} (h : Classified addr.toNat s) (hp : s.pipe.phase = .steady)
    (hu : steadyPacket addr.toNat (headerAt s addr.toNat) (spanAt s addr.toNat (headerAt s addr.toNat)) s = .error e) :
    exec (.dmxPacket addr) s = .next (raise .dx e s) := by
  have ⟨_, _, _, hcorrupt⟩ := h
  rw [exec_dmxPacket_of_classified h]
  refine congrArg _ ?_
  rcases classifyPacket_cases addr.toNat s with ⟨hc, -⟩ | ⟨-, ha, -⟩ | ⟨-, -, e', he, hr⟩ | ⟨-, -, r, u, he, -⟩
  · cases hcorrupt.symm.trans hc
  · rw [hp] at ha
    cases ha
  · cases hu.symm.trans he
    exact hr
  · cases hu.symm.trans he

/-- Settles O48: the packet reaches step 11, which finds no decryptor, or whose DECRYPT fails. -/
theorem packetLeftScrambled : Obligations.PacketLeftScrambled := by
  refine fun addr s hc hp hs => ⟨fun hno => ?undec, fun d hr hmissing => ?fails⟩
  case undec =>
    exact ⟨_, exec_dmxPacket_of_steadyPacket hc hp (steadyPacket_of_not_resolves hs hno), respond_setMap_frame hp rfl⟩
  case fails =>
    exact failsDx_of_raise (exec_dmxPacket_of_steadyPacket_error hc hp (steadyPacket_of_missing hs hr hmissing))

end Sys2Proof.Safety
end

section
/-! What DMX_PACKET leaves unchanged, and the one context it reads (spec/43_demux_packet.md R156). -/

namespace Sys2Proof.Safety

open Sys2Proof.Machine

/-! ### What a packet with PID `p` may change -/

/-- What the command may make of the PID role table: nothing, or one counter of `p` one higher (R151). -/
inductive Counted (p : Nat) (s : State) : Table MapEntry → Prop
  | none : Counted p s s.map
  | normal : Counted p s (countNormal p s).map
  | undec : Counted p s (countUndec p s).map

/-- The two states differ in payload memory, the phase, the budget and the response, and by what `Counted` allows. -/
def PacketChanges (p : Nat) (s t : State) : Prop :=
  ∃ T M ph b bs, Counted p s T ∧
    t = { s with map := T, pmem := M, pipe := { s.pipe with phase := ph, budget := b }, rsp := bs }

section Changes

variable {p a : Nat} {s t u : State}

theorem packetChanges_refl (p : Nat) (s : State) : PacketChanges p s s := ⟨_, _, _, _, _, .none, rfl⟩

theorem PacketChanges.send (h : PacketChanges p s u) (bs : List Byte) : PacketChanges p s (u.send bs) := by
  obtain ⟨T, M, ph, b, bs, hT, rfl⟩ := h
  exact ⟨T, M, ph, b, _, hT, rfl⟩

theorem PacketChanges.respond (h : PacketChanges p s u) (port : Port) (fields : List Byte) :
    PacketChanges p s (respond port fields u) := by cases port <;> exact h.send _

theorem packetChanges_raise (p : Nat) (s : State) (port : Port) (e : Status) : PacketChanges p s (raise port e s) := by
  cases port <;> exact (packetChanges_refl p s).send _

theorem packetChanges_charge (p n : Nat) (s : State) : PacketChanges p s (charge n s) := by
  unfold charge
  split
  · exact ⟨_, _, _, _, _, .none, rfl⟩
  · exact packetChanges_refl p s

theorem packetChanges_advance (p : Nat) (s : State) : PacketChanges p s (advance s) := by
  rcases advance_cases s with ⟨he, -⟩ | ⟨he, -⟩ | ⟨he, -⟩ | ⟨he, -⟩ <;> rw [he]
  · exact packetChanges_refl p s
  all_goals exact ⟨_, _, _, _, _, .none, rfl⟩

/-- Step 11 of R145 counts the packet, and may transform its payload. -/
theorem packetChanges_of_steadyPacket {h : PacketHeader} {x : PayloadSpan} {r : Route}
    (hok : steadyPacket a h x s = .ok (r, u)) : PacketChanges h.pid.toNat s u := by
  rcases steadyPacket_cases a h x s with ⟨-, he⟩ | ⟨-, -, he⟩ | ⟨-, d, v, -, hv, he⟩ | ⟨-, d, e, -, -, he⟩
  all_goals cases he.symm.trans hok
  · exact ⟨_, _, _, _, _, .normal, rfl⟩
  · exact ⟨_, _, _, _, _, .undec, rfl⟩
  · rw [chainCommand_only hv]
    exact ⟨_, _, _, _, _, .normal, rfl⟩

theorem packetChanges_classifyPacket (a : Nat) (s : State) :
    PacketChanges (headerAt s a).pid.toNat s (classifyPacket a (headerAt s a) s) := by
  rcases classifyPacket_cases a s with ⟨-, he⟩ | ⟨-, -, he⟩ | ⟨-, -, e, -, he⟩ | ⟨-, -, r, u, hu, he⟩ <;> rw [he]
  · exact (packetChanges_charge ..).respond ..
  · exact (packetChanges_charge ..).respond ..
  · exact packetChanges_raise ..
  · exact (packetChanges_of_steadyPacket hu).respond ..

theorem packetChanges_examinePacket (a : Nat) (s : State) :
    PacketChanges (headerAt s a).pid.toNat s (examinePacket a s) := by
  rcases examinePacket_cases a s with ⟨-, he⟩ | ⟨-, e, -, he⟩ | ⟨-, -, -, he⟩ | ⟨-, -, -, -, he⟩ | ⟨-, -, -, -, he⟩ <;>
    rw [he]
  · exact (packetChanges_refl ..).respond ..
  · exact packetChanges_raise ..
  · exact (packetChanges_charge ..).respond ..
  · exact (packetChanges_refl ..).respond ..
  · exact packetChanges_classifyPacket a s

/-- Whatever DMX_PACKET answers (R145, R156). -/
theorem packetChanges_of_exec {addr : Half} (h : exec (.dmxPacket addr) s = .next t) :
    PacketChanges (headerAt s addr.toNat).pid.toNat s t := by
  rcases execDmxPacket_cases addr s with ⟨-, he⟩ | ⟨-, -, he⟩ | ⟨-, -, -, he⟩ | ⟨-, -, -, he⟩
  all_goals cases he.symm.trans h
  · exact packetChanges_raise ..
  · exact packetChanges_raise ..
  · exact (packetChanges_advance ..).respond ..
  · exact packetChanges_examinePacket ..

/-- At most one counter goes up, and it is one of the packet's PID (R151, R156). -/
theorem PacketChanges.counter (h : PacketChanges p s t) :
    SameMap s t ∨ (SameMapBut p s t ∧
      (t.mapAt p = { s.mapAt p with normal := (s.mapAt p).normal + 1 } ∨
        t.mapAt p = { s.mapAt p with undec := (s.mapAt p).undec + 1 })) := by
  obtain ⟨T, M, ph, b, bs, hT, rfl⟩ := h
  cases hT with
  | none => exact .inl fun _ => rfl
  | normal => exact .inr ⟨fun q hq => Table.get_set_ne _ _ _ _ _ hq, .inl (Table.get_set_self ..)⟩
  | undec => exact .inr ⟨fun q hq => Table.get_set_ne _ _ _ _ _ hq, .inr (Table.get_set_self ..)⟩

/-- A counter is neither the role nor the reference count nor the link (R156). -/
theorem PacketChanges.owner (h : PacketChanges p s t) (q : Nat) :
    (t.mapAt q).role = (s.mapAt q).role ∧ (t.mapAt q).ref = (s.mapAt q).ref ∧ (t.mapAt q).link = (s.mapAt q).link := by
  rcases h.counter with hsame | ⟨hbut, hp⟩
  · rw [hsame q]
    exact ⟨rfl, rfl, rfl⟩
  · by_cases hq : q = p
    · subst hq
      rcases hp with hp | hp <;> rw [hp] <;> exact ⟨rfl, rfl, rfl⟩
    · rw [hbut q hq]
      exact ⟨rfl, rfl, rfl⟩

theorem PacketChanges.frame (h : PacketChanges p s t) :
    SameProgs s t ∧ SameDecs s t ∧ SameContexts s t ∧ t.pipe.cfg = s.pipe.cfg ∧ t.pipe.unit = s.pipe.unit ∧
      SameRest s t := by
  obtain ⟨T, M, ph, b, bs, -, rfl⟩ := h
  exact ⟨fun _ => rfl, fun _ => rfl, fun _ => rfl, rfl, rfl, rfl, rfl, rfl⟩

end Changes

end Sys2Proof.Safety

/-! ### Replacing the contexts -/

namespace Sys2Proof.Machine

/-- The machine with `C` as its contexts. -/
def State.withContexts (C : Table Context) (s : State) : State := { s with ce := C }

/-- The operation gives the same result whatever stands in the contexts, and leaves them as they are. -/
def ContextBlind (f : State → State) : Prop := ∀ C s, f (s.withContexts C) = (f s).withContexts C

/-- A test that does not see the contexts chooses between two blind operations. -/
theorem ContextBlind.ite {c : State → Prop} [DecidablePred c] {f g : State → State}
    (hc : ∀ C s, c (s.withContexts C) ↔ c s) (hf : ContextBlind f) (hg : ContextBlind g) :
    ContextBlind fun s => if c s then f s else g s := fun C s => by
  dsimp only
  rw [hf, hg, apply_ite (State.withContexts C)]
  exact if_congr (hc C s) rfl rfl

theorem respond_contextBlind (u : Port) (fields : List Byte) : ContextBlind (respond u fields) := fun _ _ => by
  cases u <;> rfl

theorem raise_contextBlind (u : Port) (e : Status) : ContextBlind (raise u e) := fun _ _ => by
  cases u <;> rfl

theorem charge_contextBlind (n : Nat) : ContextBlind (charge n) :=
  .ite (fun _ _ => Iff.rfl) (fun _ _ => rfl) fun _ _ => rfl

theorem advance_contextBlind : ContextBlind advance := fun C s => by
  have hpmt : ContextBlind advancePmt := .ite (fun _ _ => Iff.rfl) (fun _ _ => rfl) fun _ _ => rfl
  have hecm : ContextBlind advanceEcm := .ite (fun _ _ => Iff.rfl) (fun _ _ => rfl) fun _ _ => rfl
  rw [advance, hpmt, hecm]
  rfl

/-- One block reads payload memory alone: the keys come as arguments (R132, R134). -/
theorem chainBlock_withContexts (dir : Direction) (w : Words8) (r a : Nat) (cbc : Block) (C : Table Context) (s : State) :
    chainBlock dir w r a cbc (s.withContexts C) =
      ((chainBlock dir w r a cbc s).1, (chainBlock dir w r a cbc s).2.withContexts C) := by
  cases dir <;> rfl

theorem chainBlocks_withContexts (dir : Direction) (w : Words8) (r q a : Nat) (cbc : Block) (C : Table Context)
    (s : State) :
    chainBlocks dir w r q a cbc (s.withContexts C) =
      ((chainBlocks dir w r q a cbc s).1, (chainBlocks dir w r q a cbc s).2.withContexts C) := by
  induction q generalizing a cbc s with
  | zero => rfl
  | succ q ih =>
    simp only [chainBlocks, chainBlock_withContexts]
    exact ih ..

theorem chainTail_contextBlind (ks : List Byte) (a : Nat) : ContextBlind (chainTail ks a) := fun C s => by
  induction ks generalizing a s with
  | nil => rfl
  | cons k ks ih => exact ih (a + 1) (s.writeByte a (s.readByte a ^^^ k))

theorem chainRun_contextBlind (dir : Direction) (w : Words8) (r : Nat) (iv : Block) (a n : Nat) :
    ContextBlind (chainRun dir w r iv a n) := fun C s => by
  simp only [chainRun, chainBlocks_withContexts, chainTail_contextBlind _ _ C]
  split <;> rfl

/-! ### The one context that DMX_PACKET reads -/

section OneContext

variable {C : Table Context} {s : State} {a : Nat}

/-- An encrypt or decrypt reads its own context alone (R130). -/
theorem chainCommand_withContexts {c : Nat} (h : (s.withContexts C).ctx c = s.ctx c) (dir : Direction) (t : BitVec 2)
    (a n : Nat) :
    chainCommand dir t c a n (s.withContexts C) = (chainCommand dir t c a n s).map (State.withContexts C) := by
  have hcheck : chainCheck t c a n (s.withContexts C) = chainCheck t c a n s := by
    rw [chainCheck, h]
    rfl
  rw [chainCommand, chainCommand, hcheck, h]
  cases chainCheck t c a n s with
  | some e => rfl
  | none => exact congrArg Except.ok (chainRun_contextBlind ..)

/-- A decryptor found is the one that the entry links (R150). -/
theorem link_of_descrambler {e : MapEntry} {d : Nat} (h : descrambler s e = some d) : e.link = .dec d := by
  unfold descrambler at h
  split at h
  · next d' _ hlink =>
    split at h
    · exact hlink.trans (congrArg _ (Option.some.inj h))
    · cases h
  · cases h

theorem descrambler_withContexts {e : MapEntry} (h : ∀ d, e.link = .dec d → (s.withContexts C).ctx d = s.ctx d) :
    descrambler (s.withContexts C) e = descrambler s e := by
  unfold descrambler
  split
  · next d _ hlink => rw [h d hlink]
  · rfl

/-- Step 11 of R145 reads the context that the packet's entry links alone (R156). -/
theorem steadyPacket_withContexts {h : PacketHeader}
    (hlink : ∀ d, (s.mapAt h.pid.toNat).link = .dec d → (s.withContexts C).ctx d = s.ctx d) (a : Nat) (p : PayloadSpan) :
    steadyPacket a h p (s.withContexts C) =
      (steadyPacket a h p s).map fun x => (x.1, x.2.withContexts C) := by
  have hmap : (s.withContexts C).mapAt = s.mapAt := rfl
  have hdesc := descrambler_withContexts hlink
  unfold steadyPacket descramble
  simp only [hmap, hdesc]
  split
  · cases hd : descrambler s (s.mapAt h.pid.toNat) with
    | none => rfl
    | some d =>
      simp only [chainCommand_withContexts (hlink d (link_of_descrambler hd))]
      cases chainCommand .decrypt h.sc d (a + p.off) p.len s <;> rfl
  · rfl

variable (hlink : ∀ d, (Safety.entryAt s a).link = .dec d → (s.withContexts C).ctx d = s.ctx d)

include hlink

theorem classifyPacket_withContexts :
    classifyPacket a (headerAt s a) (s.withContexts C) = (classifyPacket a (headerAt s a) s).withContexts C := by
  have hspan : spanAt (s.withContexts C) a = spanAt s a := rfl
  unfold classifyPacket
  simp only [hspan, steadyPacket_withContexts hlink, apply_ite (State.withContexts C), ← charge_contextBlind _ C,
    ← respond_contextBlind _ _ C]
  refine if_congr Iff.rfl rfl (if_congr Iff.rfl rfl ?_)
  cases steadyPacket a (headerAt s a) (spanAt s a (headerAt s a)) s with
  | error e => exact raise_contextBlind ..
  | ok x => exact respond_contextBlind ..

theorem examinePacket_withContexts :
    examinePacket a (s.withContexts C) = (examinePacket a s).withContexts C := by
  have hheader : headerAt (s.withContexts C) a = headerAt s a := rfl
  have hbudget : budgetError (s.withContexts C) = budgetError s := rfl
  unfold examinePacket
  simp only [hheader, hbudget, classifyPacket_withContexts hlink, apply_ite (State.withContexts C)]
  refine if_congr Iff.rfl (respond_contextBlind ..) ?_
  cases budgetError s with
  | some e => exact raise_contextBlind ..
  | none =>
    simp only [charge_contextBlind _ C, respond_contextBlind _ _ C, apply_ite (State.withContexts C)]
    rfl

end OneContext

/-- With other contexts but the same one linked by the packet's PID, DMX_PACKET answers the same and does the same (R156). -/
theorem exec_dmxPacket_withContexts {C : Table Context} {s t : State} {addr : Half}
    (hlink : ∀ d, (Safety.entryAt s addr.toNat).link = .dec d → (s.withContexts C).ctx d = s.ctx d)
    (h : exec (.dmxPacket addr) s = .next t) :
    exec (.dmxPacket addr) (s.withContexts C) = .next (t.withContexts C) := by
  rcases execDmxPacket_cases addr s with
    ⟨hbad, he⟩ | ⟨hok, hunit, he⟩ | ⟨hok, hunit, hdue, he⟩ | ⟨hok, hunit, hdue, he⟩
  all_goals cases he.symm.trans h
  · rw [← raise_contextBlind]
    exact if_neg (Bool.eq_false_iff.mp hbad)
  · rw [← raise_contextBlind]
    exact (if_pos hok).trans (if_pos hunit)
  · rw [← respond_contextBlind, ← advance_contextBlind]
    refine (if_pos hok).trans ((if_neg hunit).trans (if_pos ?_))
    rw [advance_contextBlind]
    exact hdue
  · rw [← examinePacket_withContexts hlink]
    refine (if_pos hok).trans ((if_neg hunit).trans (if_neg ?_))
    rw [advance_contextBlind]
    exact not_not.mpr hdue

end Sys2Proof.Machine

namespace Sys2Proof.Safety

open Sys2Proof.Machine

/-- Settles O49: what each outcome changes, and that none sees a context but the one linked. -/
theorem packetFrame : Obligations.PacketFrame := by
  intro addr s t h
  have hchanges := packetChanges_of_exec h
  obtain ⟨hprogs, hdecs, hctx, hcfg, hunit, hrest⟩ := hchanges.frame
  refine ⟨hchanges.owner, hprogs, hdecs, hctx, hcfg, hunit, hrest,
    hchanges.counter.imp_right fun hcounter => ⟨_, rfl, hcounter⟩, fun s' hs' hlink => ?contexts⟩
  case contexts => exact (congrArg _ hs').trans (exec_dmxPacket_withContexts (C := s'.ce) hlink h)

end Sys2Proof.Safety
end

section
/-! PMT_END (spec/44_demux_tables.md R174, R175, R177, R183): what releasing the old list makes of each PID and of each
decryptor's reference count, what the sweep then destroys, and the command over both. -/

namespace Sys2Proof.Safety

open Sys2Proof.Machine

/-! ### The end of a command that calls `advance()` -/

/-- The words look at the pipeline registers alone of the state before (R183). -/
theorem Advanced.of_pipe {s t u : State} (h : Advanced u t) (hp : u.pipe = s.pipe) : Advanced s t := by
  simpa only [Advanced, hp] using h

/-- `advance()` and a normal end: the pipeline registers follow the phase machine, nothing else changes (R82, R183). -/
theorem respond_advance_frame {t u : State} {fields : List Byte} (ht : t = respond .dx fields (advance u)) :
    Advanced u t ∧ SameContexts u t ∧ SameTables u t ∧ SameMemory u t ∧ SameRest u t ∧
      Answers (0x00 :: phaseCode t.pipe.phase :: fields) u t := by
  rw [advance_only u] at ht
  subst ht
  exact ⟨advanced_advance u, fun _ => rfl, ⟨fun _ => rfl, fun _ => rfl, fun _ => rfl⟩, fun _ => rfl,
    ⟨rfl, rfl, rfl⟩, rfl⟩

/-! ### A PID of the old list -/

/-- What `release` makes of the entry of its PID (R175). -/
def releaseEntry (e : MapEntry) : MapEntry :=
  if e.role = .other then if e.ref - 1 = 0 then vacate e else { e with ref := e.ref - 1 } else e

@[simp] theorem mapAt_releasePid_self (p : Nat) (s : State) : (releasePid p s).mapAt p = releaseEntry (s.mapAt p) := by
  unfold releasePid releaseEntry
  dsimp only
  split
  · split <;> simp
  · rfl

/-- A PID is released as often as it stands in the list (R177). -/
theorem mapAt_releaseList (es : List StreamElem) (s : State) (q : Nat) :
    (releaseList es s).mapAt q = releaseEntry^[listRefs q es] (s.mapAt q) := by
  induction es generalizing s with
  | nil => rfl
  | cons e es ih =>
    rw [releaseList, ih, listRefs_cons]
    by_cases hq : e.pid.toNat = q
    · rw [if_pos hq, Function.iterate_succ_apply, hq, mapAt_releasePid_self]
    · rw [if_neg hq, releasePid_mapAt_ne _ _ (Ne.symm hq)]
      rfl

section Iterate

variable {e : MapEntry} (hr : e.role = .other)

include hr

/-- Some references given back, and not all. -/
theorem releaseEntry_iterate {n : Nat} (hn : n < e.ref) : releaseEntry^[n] e = { e with ref := e.ref - n } := by
  induction n with
  | zero => rfl
  | succ n ih =>
    have hmore : e.ref - n - 1 ≠ 0 := by omega
    rw [Function.iterate_succ_apply', ih (by omega), releaseEntry, if_pos hr, if_neg hmore, Nat.sub_add_eq]

/-- All references given back. -/
theorem releaseEntry_iterate_ref (hpos : 1 ≤ e.ref) : releaseEntry^[e.ref] e = vacate e := by
  obtain ⟨n, hn⟩ := Nat.exists_eq_add_of_le' hpos
  have hlast : e.ref - n - 1 = 0 := by omega
  rw [hn, Function.iterate_succ_apply', releaseEntry_iterate hr (by omega), releaseEntry, if_pos hr, if_pos hlast]
  rfl

end Iterate

variable {s : State} {i : Nat}

/-- A PID of the role OTHER has as many references as it has list places, and at least one (R162 (a)). -/
theorem TopologyOk.ref_of_other (h : TopologyOk s) {q : Nat} (hq : (s.mapAt q).role = .other) :
    1 ≤ (s.mapAt q).ref ∧ (s.mapAt q).ref = streamRefs s q := by
  have hentry := h.entry q
  simp only [EntryOk, hq] at hentry
  exact ⟨hentry.1, hentry.2.1⟩

section Release

variable (h : TopologyOk s)

include h

/-- A PID whose every reference the old list holds is nobody's afterwards (R175). -/
theorem mapAt_release_of_givenBack {q : Nat} (hq : GivenBack s i q) :
    (releaseList (s.progAt i).old s).mapAt q = vacate (s.mapAt q) := by
  obtain ⟨hrole, href⟩ := hq
  rw [mapAt_releaseList, ← href, releaseEntry_iterate_ref hrole (h.ref_of_other hrole).1]

/-- Any other PID loses the references that the old list holds (R175). -/
theorem mapAt_release_of_not_givenBack (hi : progValid s i = true) {q : Nat} (hq : ¬ GivenBack s i q) :
    (releaseList (s.progAt i).old s).mapAt q =
      { s.mapAt q with ref := (s.mapAt q).ref - listRefs q (s.progAt i).old } := by
  have hle := listRefs_le_streamRefs hi q
  by_cases hrole : (s.mapAt q).role = .other
  · have href := (h.ref_of_other hrole).2
    have hne : (s.mapAt q).ref ≠ listRefs q (s.progAt i).old := fun he => hq ⟨hrole, he⟩
    rw [mapAt_releaseList, releaseEntry_iterate hrole (by omega)]
  · have hzero := ((entryOk_iff ..).mp (h.entry q)).refs_eq_zero hrole
    have hnone : listRefs q (s.progAt i).old = 0 := by omega
    rw [mapAt_releaseList, hnone]
    rfl

end Release

/-! ### The reference counts of the decryptors -/

/-- Giving a reference back changes no register of a decryptor but its count (R175). -/
theorem decAt_releasePid (p : Nat) (s : State) (d : Nat) :
    ∃ n, (releasePid p s).decAt d = { s.decAt d with ref := n } := by
  unfold releasePid
  dsimp only
  split
  · split
    · rw [decAt_decDecRef]
      split
      · exact ⟨_, rfl⟩
      · exact ⟨_, rfl⟩
    · exact ⟨_, rfl⟩
  · exact ⟨_, rfl⟩

theorem decAt_releaseList (es : List StreamElem) (s : State) (d : Nat) :
    ∃ n, (releaseList es s).decAt d = { s.decAt d with ref := n } := by
  induction es generalizing s with
  | nil => exact ⟨_, rfl⟩
  | cons e es ih =>
    obtain ⟨n, hn⟩ := ih (releasePid e.pid.toNat s)
    obtain ⟨m, hm⟩ := decAt_releasePid e.pid.toNat s d
    exact ⟨n, by rw [releaseList, hn, hm]⟩

end Sys2Proof.Safety

namespace Sys2Proof.Machine

/-- The entries of a table with a property that the default does not have, counted by index. -/
theorem Table.countP_eq_card {α : Type} (P : Nat × α → Bool) (d : α) {t : Table α} {n : Nat} (hr : Table.Rising t)
    (hb : Table.Below n t) (hd : ∀ k, P (k, d) = false) :
    t.countP P = ((Finset.range n).filter fun k => P (k, Table.get d t k) = true).card := by
  have hnodup : ((t.filter P).map Prod.fst).Nodup :=
    (Table.rising_filter P hr).imp (fun hlt => Nat.ne_of_lt hlt)
  rw [List.countP_eq_length_filter, ← List.length_map (f := Prod.fst), ← List.toFinset_card_of_nodup hnodup]
  congr 1
  ext k
  simp only [List.mem_toFinset, List.mem_map, List.mem_filter, Finset.mem_filter, Finset.mem_range, Prod.exists,
    exists_and_right, exists_eq_right]
  constructor
  · rintro ⟨v, hv, hP⟩
    rw [Table.get, (Table.mem_iff_find hr k v).mp hv]
    exact ⟨hb _ hv, hP⟩
  · rintro ⟨-, hP⟩
    cases hf : Table.find t k with
    | none => simp [Table.get, hf, hd] at hP
    | some v => exact ⟨v, Table.find_mem hf, by simpa [Table.get, hf] using hP⟩

end Sys2Proof.Machine

namespace Sys2Proof.Safety

open Sys2Proof.Machine

variable {s : State} {i : Nat}

/-- The PIDs bound to decryptor `d`. -/
def boundSet (s : State) (d : Nat) : Finset Nat :=
  (Finset.range 8192).filter fun q => (s.mapAt q).role = .other ∧ (s.mapAt q).link = .dec d

theorem boundPids_eq_card (hc : Canonical s) (d : Nat) : boundPids s d = (boundSet s d).card := by
  rw [boundPids, Table.countP_eq_card _ MapEntry.reset hc.mapRising hc.mapBelow fun _ => rfl, boundSet]
  simp only [decide_eq_true_iff]
  rfl

theorem lostPids_eq_card (hc : Canonical s) (i d : Nat) :
    lostPids s i d = ((boundSet s d).filter fun q => (s.mapAt q).ref = listRefs q (s.progAt i).old).card := by
  rw [lostPids, Table.countP_eq_card _ MapEntry.reset hc.mapRising hc.mapBelow fun _ => rfl, boundSet,
    Finset.filter_filter]
  simp only [decide_eq_true_iff, and_assoc]
  rfl

section Close

variable (hc : Canonical s) (h : TopologyOk s) (hi : progValid s i = true)

include hc h hi

omit hc in
/-- A PID stays bound unless the release gives it back (R175). -/
theorem boundSet_release (d : Nat) :
    boundSet (releaseList (s.progAt i).old s) d =
      (boundSet s d).filter fun q => ¬ (s.mapAt q).ref = listRefs q (s.progAt i).old := by
  rw [boundSet, boundSet, Finset.filter_filter]
  refine Finset.filter_congr fun q _ => ?_
  by_cases hq : GivenBack s i q
  · rw [mapAt_release_of_givenBack h hq]
    simp [vacate, hq.2]
  · rw [mapAt_release_of_not_givenBack h hi hq]
    exact ⟨fun hb => ⟨hb, fun he => hq ⟨hb.1, he⟩⟩, fun hb => hb.1⟩

/-- The PIDs bound to a decryptor are those that stay bound and those that the release gives back (R162 (c), R175). -/
theorem boundPids_release (d : Nat) :
    boundPids (releaseList (s.progAt i).old s) d + lostPids s i d = boundPids s d := by
  rw [boundPids_eq_card (hc.releaseList _), lostPids_eq_card hc, boundPids_eq_card hc, boundSet_release h hi, add_comm]
  exact Finset.card_filter_add_card_filter_not _

/-- A decryptor has at least the references that the release takes away. -/
theorem lostPids_le_ref {d : Nat} (hd : (s.decAt d).valid = true) : lostPids s i d ≤ (s.decAt d).ref := by
  have hsum := boundPids_release hc h hi d
  have href := h.decRef d hd
  omega

/-- The decryptors after the release: each has lost one reference for each PID given back (R175). -/
theorem decAt_closePmt (d : Nat) :
    (closePmt i s).decAt d = { s.decAt d with ref := (s.decAt d).ref - lostPids s i d } := by
  have hkept : Balanced (closePmt i s) := Balanced.closePmt (h.linked hc.mapRising) hi
  have hbound : boundPids (closePmt i s) d + lostPids s i d = boundPids s d := boundPids_release hc h hi d
  obtain ⟨n, hn⟩ := decAt_releaseList (s.progAt i).old s d
  replace hn : (closePmt i s).decAt d = { s.decAt d with ref := n } := hn
  have href : n = (s.decAt d).ref - lostPids s i d := by
    cases hv : (s.decAt d).valid with
    | true =>
      have hnow : n = boundPids (closePmt i s) d := by
        have hcount := hkept.decRef d (by rw [hn]; exact hv)
        rwa [hn] at hcount
      have hcount := h.decRef d hv
      omega
    | false =>
      have hreset := hkept.decFree d (by rw [hn]; exact hv)
      rw [hn] at hreset
      have hzero : n = 0 := congrArg DecSlot.ref hreset
      rw [hzero, h.decFree d hv]
      exact (Nat.zero_sub _).symm
  rw [hn, href]

end Close

/-! ### The sweep -/

/-- A valid decryptor with no reference: what the sweep destroys (R177). -/
abbrev Unreferenced (s : State) (d : Nat) : Prop := (s.decAt d).valid = true ∧ (s.decAt d).ref = 0

section Destroy

variable (k : Nat) (s : State)

theorem decAt_destroyDec (d : Nat) : (destroyDec k s).decAt d = if d = k then .reset else s.decAt d :=
  s.decAt_setDec k d .reset

theorem ctx_destroyDec (c : Nat) : (destroyDec k s).ctx c = if c = k then .reset else s.ctx c :=
  State.ctx_setCtx ..

theorem mapAt_destroyDec (q : Nat) : (destroyDec k s).mapAt q =
    if q = (s.decAt k).ecmPid.toNat then vacate (s.mapAt (s.decAt k).ecmPid.toNat) else s.mapAt q :=
  State.mapAt_setMap ..

theorem unreferenced_destroyDec_iff (d : Nat) : Unreferenced (destroyDec k s) d ↔ d ≠ k ∧ Unreferenced s d := by
  rw [Unreferenced, decAt_destroyDec]
  by_cases hd : d = k <;> simp [hd, DecSlot.reset]

end Destroy

/-- The decryptors and contexts after the sweep (R174, R177). -/
theorem slot_sweepDecs (ds : List Nat) (s : State) (d : Nat) :
    ((sweepDecs ds s).decAt d, (sweepDecs ds s).ctx d) =
      if d ∈ ds ∧ Unreferenced s d then (.reset, .reset) else (s.decAt d, s.ctx d) := by
  induction ds generalizing s with
  | nil => simp [sweepDecs]
  | cons k ds ih =>
    unfold sweepDecs
    split
    · next hk =>
      simp only [ih, decAt_destroyDec, ctx_destroyDec, unreferenced_destroyDec_iff]
      by_cases hd : d = k
      · subst hd
        simp [hk]
      · simp [hd]
    · next hk =>
      rw [ih]
      by_cases hd : d = k
      · subst hd
        simp [hk]
      · simp [hd]

/-- The PIDs after the sweep: the ECM PID of each decryptor destroyed is given back (R174, R177). -/
theorem mapAt_sweepDecs (ds : List Nat) (s : State) (q : Nat) :
    (sweepDecs ds s).mapAt q =
      if ∃ d ∈ ds, Unreferenced s d ∧ (s.decAt d).ecmPid.toNat = q then vacate (s.mapAt q) else s.mapAt q := by
  induction ds generalizing s with
  | nil => simp [sweepDecs]
  | cons k ds ih =>
    unfold sweepDecs
    split
    · next hk =>
      have hrest : (∃ d ∈ ds, Unreferenced (destroyDec k s) d ∧ ((destroyDec k s).decAt d).ecmPid.toNat = q) ↔
          ∃ d ∈ ds, d ≠ k ∧ Unreferenced s d ∧ (s.decAt d).ecmPid.toNat = q := by
        refine exists_congr fun d => and_congr_right fun _ => ?_
        rw [unreferenced_destroyDec_iff, decAt_destroyDec, and_assoc]
        exact and_congr_right fun hd => by rw [if_neg hd]
      simp only [ih, mapAt_destroyDec, hrest, List.exists_mem_cons_iff]
      by_cases hq : (s.decAt k).ecmPid.toNat = q
      · subst hq
        simp [hk, vacate]
      · have hother (d : Nat) : (d ≠ k ∧ Unreferenced s d ∧ (s.decAt d).ecmPid.toNat = q) ↔
            Unreferenced s d ∧ (s.decAt d).ecmPid.toNat = q :=
          and_iff_right_of_imp fun hd hdk => hq (hdk ▸ hd.2)
        simp only [hother, if_neg (Ne.symm hq), hq, and_false, false_or]
    · next hk =>
      rw [ih]
      exact if_congr (by simp [hk]) rfl rfl

/-! ### The command -/

/-- PMT_END without `advance()` and the response (R177). -/
def pmtEnded (i : Nat) (s : State) : State := sweepDecs (List.range s.par.nCtx) (closePmt i s)

/-- Beside the entries, the decryptors and their contexts, the command writes the program's own slot alone (R177). -/
theorem pmtEnded_only (i : Nat) (s : State) :
    pmtEnded i s =
      { s.setProg i { s.progAt i with old := [], phase := settleBump (s.progAt i).phase } with
        map := (pmtEnded i s).map, dec := (pmtEnded i s).dec, ce := (pmtEnded i s).ce } := by
  rw [pmtEnded, sweepDecs_only, closePmt, releaseList_only]
  rfl

theorem progAt_pmtEnded (i : Nat) (s : State) (j : Nat) :
    (pmtEnded i s).progAt j =
      if j = i then { s.progAt i with old := [], phase := settleBump (s.progAt i).phase } else s.progAt j := by
  rw [pmtEnded_only]
  exact State.progAt_setProg ..

theorem pmtEnded_frame (i : Nat) (s : State) :
    (pmtEnded i s).pipe = s.pipe ∧ SameMemory s (pmtEnded i s) ∧ SameRest s (pmtEnded i s) ∧
      (pmtEnded i s).rsp = s.rsp := by
  rw [pmtEnded_only]
  exact ⟨rfl, fun _ => rfl, ⟨rfl, rfl, rfl⟩, rfl⟩

section Ended

variable (hc : Canonical s) (h : TopologyOk s) (hi : ProgAt s i)

include hc h hi

/-- The sweep destroys the decryptors whose every PID is given back (R177). -/
theorem unreferenced_closePmt_iff (d : Nat) :
    d ∈ List.range s.par.nCtx ∧ Unreferenced (closePmt i s) d ↔ Destroyed s i d := by
  have hv := (progValid_iff s i).mpr hi
  rw [Unreferenced, decAt_closePmt hc h hv, List.mem_range, Destroyed, DecAt, and_assoc]
  refine and_congr_right fun _ => and_congr_right fun hd => ?_
  have hle := lostPids_le_ref hc h hv hd
  dsimp only
  omega

theorem slot_pmtEnded (d : Nat) :
    (Destroyed s i d → (pmtEnded i s).decAt d = .reset ∧ (pmtEnded i s).ctx d = .reset) ∧
    (¬ Destroyed s i d →
      (pmtEnded i s).decAt d = { s.decAt d with ref := (s.decAt d).ref - lostPids s i d } ∧
        (pmtEnded i s).ctx d = s.ctx d) := by
  have hslot := slot_sweepDecs (List.range s.par.nCtx) (closePmt i s) d
  constructor <;> intro hd
  · rw [if_pos ((unreferenced_closePmt_iff hc h hi d).mpr hd)] at hslot
    exact Prod.mk.inj hslot
  · rw [if_neg (mt (unreferenced_closePmt_iff hc h hi d).mp hd),
      decAt_closePmt hc h ((progValid_iff s i).mpr hi), closePmt_ctx] at hslot
    exact Prod.mk.inj hslot

/-- The sweep gives back the ECM PIDs of the decryptors that it destroys (R174). -/
theorem swept_pid_iff (q : Nat) :
    (∃ d ∈ List.range s.par.nCtx, Unreferenced (closePmt i s) d ∧ ((closePmt i s).decAt d).ecmPid.toNat = q) ↔
      ∃ d, Destroyed s i d ∧ (s.decAt d).ecmPid.toNat = q := by
  refine exists_congr fun d => ?_
  rw [← and_assoc, unreferenced_closePmt_iff hc h hi, decAt_closePmt hc h ((progValid_iff s i).mpr hi)]

theorem mapAt_pmtEnded_of_lost {q : Nat}
    (hq : GivenBack s i q ∨ ∃ d, Destroyed s i d ∧ (s.decAt d).ecmPid.toNat = q) :
    (pmtEnded i s).mapAt q = vacate (s.mapAt q) := by
  have hclosed : (closePmt i s).mapAt q = (releaseList (s.progAt i).old s).mapAt q := State.setProg_mapAt ..
  rw [pmtEnded, mapAt_sweepDecs, hclosed]
  by_cases hback : GivenBack s i q
  · rw [mapAt_release_of_givenBack h hback]
    split <;> rfl
  · rw [mapAt_release_of_not_givenBack h ((progValid_iff s i).mpr hi) hback,
      if_pos ((swept_pid_iff hc h hi q).mpr (hq.resolve_left hback))]
    rfl

theorem mapAt_pmtEnded_of_kept {q : Nat}
    (hq : ¬ (GivenBack s i q ∨ ∃ d, Destroyed s i d ∧ (s.decAt d).ecmPid.toNat = q)) :
    (pmtEnded i s).mapAt q = { s.mapAt q with ref := (s.mapAt q).ref - listRefs q (s.progAt i).old } := by
  obtain ⟨hback, hswept⟩ := not_or.mp hq
  rw [pmtEnded, mapAt_sweepDecs, if_neg (mt (swept_pid_iff hc h hi q).mp hswept)]
  exact mapAt_release_of_not_givenBack h ((progValid_iff s i).mpr hi) hback

end Ended

theorem exec_pmtEnd {p : Byte} (hp : ProgAt s p.toNat) :
    exec (.pmtEnd p) s = .next (respond .dx [] (advance (pmtEnded p.toNat s))) :=
  if_pos ((progValid_iff ..).mpr hp)

theorem exec_pmtEnd_of_invalid {p : Byte} (hp : ¬ ProgAt s p.toNat) :
    exec (.pmtEnd p) s = .next (raise .dx .invalidParameter s) := if_neg (mt (progValid_iff ..).mp hp)

/-- Settles O35: the release gives back what the old list holds, the sweep destroys what the release leaves without a
reference, and `advance()` follows. -/
theorem pmtEnd : Obligations.PmtEnd := by
  refine fun p s => ⟨rfl, fun hp => failsDx_of_raise (exec_pmtEnd_of_invalid hp), fun hc h hp =>
    ⟨_, settleBump (s.progAt p.toNat).phase, exec_pmtEnd hp, settleCode_settleBump _, ?_⟩⟩
  obtain ⟨hadv, hctx, ⟨hmap, hprog, hdec⟩, hmem, ⟨hpar, hepoch, hcmd⟩, hrsp⟩ :=
    respond_advance_frame (u := pmtEnded p.toNat s) (fields := []) rfl
  obtain ⟨hpipe, hmem', ⟨hpar', hepoch', hcmd'⟩, hrsp'⟩ := pmtEnded_frame p.toNat s
  refine ⟨?prog, fun j hj => ?progs, fun q hq => ?lost, fun q hq => ?kept, fun d hd => ?destroyed,
    fun d hd => ?survives,
    hadv.of_pipe hpipe, fun a => (hmem a).trans (hmem' a),
    ⟨hpar.trans hpar', hepoch.trans hepoch', hcmd.trans hcmd'⟩, hrsp.trans (by rw [hrsp'])⟩
  case prog => rw [hprog, progAt_pmtEnded, if_pos rfl]
  case progs => rw [hprog, progAt_pmtEnded, if_neg hj]
  case lost => exact (hmap q).trans (mapAt_pmtEnded_of_lost hc h hp hq)
  case kept => exact (hmap q).trans (mapAt_pmtEnded_of_kept hc h hp hq)
  case destroyed =>
    rw [hdec, hctx]
    exact (slot_pmtEnded hc h hp d).1 hd
  case survives =>
    rw [hdec, hctx]
    exact (slot_pmtEnded hc h hp d).2 hd

end Sys2Proof.Safety
end

section
/-! Opening and changing the tables: PAT_BEGIN, PROG_ADD, ROLE_SET, PMT_BEGIN and DEC_OPEN (spec/44_demux_tables.md R165
to R170). -/

namespace Sys2Proof.Safety

open Sys2Proof.Machine

variable {s t : State}

/-! ### The PID field (R89) -/

theorem pidOk_iff (x : Half) : pidOk x = true ↔ x.toNat < 8192 := by
  have hlt := x.isLt
  rw [pidOk, beq_iff_eq, ← BitVec.toNat_inj, BitVec.extractLsb'_toNat, Nat.shiftRight_eq_div_pow]
  change x.toNat / 8192 % 8 = 0 ↔ x.toNat < 8192
  omega

theorem pidOk_eq_false {x : Half} (h : 8192 ≤ x.toNat) : pidOk x = false :=
  Bool.eq_false_iff.mpr fun hok => Nat.not_lt.mpr h ((pidOk_iff x).mp hok)

theorem pidOf_eq_setWidth (x : Half) : pidOf x = x.setWidth 13 := (BitVec.setWidth_eq_extractLsb' (by decide)).symm

theorem pidOf_toNat {x : Half} (h : x.toNat < 8192) : (pidOf x).toNat = x.toNat := by
  rw [pidOf_eq_setWidth, BitVec.toNat_setWidth]
  exact Nat.mod_eq_of_lt h

/-! ### Searching for a slot -/

theorem freeProg_eq_some_iff (s : State) (i : Nat) : freeProg s = some i ↔ LowestFreeProg s i := by
  simp [freeProg, List.find?_range_eq_some, LowestFreeProg, and_left_comm]

theorem freeProg_eq_none_iff (s : State) : freeProg s = none ↔ ∀ j, j < s.par.nProg → (s.progAt j).valid = true := by
  simp [freeProg]

theorem freeDec_eq_some_iff (s : State) (d : Nat) : freeDec s = some d ↔ LowestFreeDec s d := by
  simp [freeDec, List.find?_range_eq_some, LowestFreeDec, and_left_comm]

theorem freeDec_eq_none_iff (s : State) : freeDec s = none ↔ ∀ j, j < s.par.nCtx → (s.decAt j).valid = true := by
  simp [freeDec]

/-- The decryptor found is the lowest valid one with that ECM PID (R170). -/
theorem decOfEcm_eq_some {p : Pid} {d : Nat} (hd : DecAt s d) (hp : (s.decAt d).ecmPid.toNat = p.toNat)
    (hlow : ∀ j, j < d → DecAt s j → (s.decAt j).ecmPid.toNat ≠ p.toNat) : decOfEcm s p = some d := by
  obtain ⟨hlt, hv⟩ := hd
  refine List.find?_range_eq_some.mpr ⟨?found, List.mem_range.mpr hlt, fun j hj => ?lower⟩
  case found => simp [hv, BitVec.toNat_inj.mp hp]
  case lower =>
    cases hvj : (s.decAt j).valid with
    | false => rfl
    | true =>
      have hne : (s.decAt j).ecmPid ≠ p := fun he => hlow j hj ⟨hj.trans hlt, hvj⟩ (congrArg _ he)
      simp [hne]

theorem decOfEcm_eq_none {p : Pid} (h : ∀ d, DecAt s d → (s.decAt d).ecmPid.toNat ≠ p.toNat) : decOfEcm s p = none := by
  cases hd : decOfEcm s p with
  | none => rfl
  | some d =>
    obtain ⟨hv, hp⟩ := decOfEcm_some hd
    exact absurd (congrArg _ hp) (h d ((decValid_iff ..).mp hv))

/-! ### PAT_BEGIN (R165) -/

theorem exec_patBegin_of_unit (hp : s.pipe.phase = .unit) : exec .patBegin s = .next (raise .dx .badSequence s) :=
  if_pos hp

theorem exec_patBegin_of_steady (hp : s.pipe.phase = .steady) :
    exec .patBegin s = .next (respond .dx [] ((clearTopology s).setPipe s.pipe)) := by
  have hacq : acquiring s.pipe.phase = false := by rw [hp]; rfl
  exact (if_neg (by simp [hp])).trans
    (congrArg (fun u => Host.Outcome.next (respond .dx [] u)) (if_neg (Bool.eq_false_iff.mp hacq)))

theorem exec_patBegin_of_acquiring (hp : Acquiring s) :
    exec .patBegin s =
      .next (respond .dx [] ((clearTopology s).setPipe { s.pipe with phase := .pmt, budget := 0 })) := by
  have hunit : s.pipe.phase ≠ .unit := by rcases hp with hp | hp | hp <;> simp [hp]
  exact (if_neg hunit).trans
    (congrArg (fun u => Host.Outcome.next (respond .dx [] u)) (if_pos ((acquiring_iff _).mpr hp)))

/-- The tables wiped and the pipeline registers written, then a normal end. -/
theorem respond_clearTopology_frame {x : Pipe} (ht : t = respond .dx [] ((clearTopology s).setPipe x)) :
    (∀ c, t.ctx c = if (s.decAt c).valid then Context.reset else s.ctx c) ∧
    (∀ p, t.mapAt p = if p = 0 then MapEntry.pat else MapEntry.reset) ∧ (∀ i, t.progAt i = .reset) ∧
    (∀ d, t.decAt d = .reset) ∧ t.pipe = x ∧ SameMemory s t ∧ SameRest s t ∧ Answers [0x00, phaseCode x.phase] s t := by
  subst ht
  exact ⟨clearTopology_ctx s, mapAt_of_mapReset rfl, progAt_of_nil rfl, decAt_of_nil rfl, rfl, fun _ => rfl,
    ⟨rfl, rfl, rfl⟩, rfl⟩

/-- Settles O29: outside phase 0 the phases differ in what becomes of the pipeline registers alone. -/
theorem patBegin : Obligations.PatBegin := by
  refine ⟨rfl, fun s => ⟨fun hp => failsDx_of_raise (exec_patBegin_of_unit hp), fun hunit => ?_⟩⟩
  by_cases hsteady : s.pipe.phase = .steady
  · obtain ⟨hctx, hmap, hprog, hdec, hpipe, hmem, hrest, hrsp⟩ := respond_clearTopology_frame (s := s) (x := s.pipe) rfl
    rw [hsteady] at hrsp
    exact ⟨_, exec_patBegin_of_steady hsteady, hctx, hmap, hprog, hdec, fun _ => ⟨hpipe, hrsp⟩,
      fun hne => absurd hsteady hne, hmem, hrest⟩
  · have hacq : Acquiring s := by
      rw [Acquiring]
      cases hp : s.pipe.phase <;> simp_all
    obtain ⟨hctx, hmap, hprog, hdec, hpipe, hmem, hrest, hrsp⟩ :=
      respond_clearTopology_frame (s := s) (x := { s.pipe with phase := .pmt, budget := 0 }) rfl
    exact ⟨_, exec_patBegin_of_acquiring hacq, hctx, hmap, hprog, hdec, fun he => absurd he hsteady,
      fun _ => ⟨hpipe, hrsp⟩, hmem, hrest⟩

/-! ### PROG_ADD (R166) -/

section ProgAdd

variable {num pid : Half} (hpid : pid.toNat < 8192)

include hpid

theorem exec_progAdd_of_early (hp : s.pipe.phase = .unit ∨ s.pipe.phase = .pat) :
    exec (.progAdd num pid) s = .next (raise .dx .badSequence s) :=
  (if_neg (by simp [(pidOk_iff pid).mpr hpid])).trans (if_pos hp)

variable (hunit : s.pipe.phase ≠ .unit) (hpat : s.pipe.phase ≠ .pat)

include hunit hpat

theorem exec_progAdd_of_used (hr : (s.mapAt pid.toNat).role ≠ .unknown) :
    exec (.progAdd num pid) s = .next (raise .dx .invalidParameter s) := by
  simp [exec, execProgAdd, (pidOk_iff pid).mpr hpid, pidOf_toNat hpid, hunit, hpat, hr]

theorem exec_progAdd_of_full (hr : (s.mapAt pid.toNat).role = .unknown) (hf : freeProg s = none) :
    exec (.progAdd num pid) s = .next (raise .dx .outOfResources s) := by
  simp [exec, execProgAdd, (pidOk_iff pid).mpr hpid, pidOf_toNat hpid, hunit, hpat, hr, hf]

theorem exec_progAdd_of_free {i : Nat} (hr : (s.mapAt pid.toNat).role = .unknown) (hf : freeProg s = some i) :
    exec (.progAdd num pid) s = .next (respond .dx [slotByte i] ((s.setProg i (newProg num (pid.setWidth 13))).setMap
      pid.toNat { s.mapAt pid.toNat with role := .pmt, ref := 1, link := .prog i })) := by
  rw [← pidOf_eq_setWidth]
  simp [exec, execProgAdd, (pidOk_iff pid).mpr hpid, pidOf_toNat hpid, hunit, hpat, hr, hf, newProg]

end ProgAdd

/-- Settles O30: one slot and one entry are written, once the checks have passed in their order. -/
theorem progAdd : Obligations.ProgAdd := by
  refine fun num pid s => ⟨rfl, fun hbad => failsDx_of_illFormed (pidOk_eq_false hbad) rfl,
    fun hpid hp => failsDx_of_raise (exec_progAdd_of_early hpid hp), fun hpid hunit hpat =>
    ⟨fun hr => failsDx_of_raise (exec_progAdd_of_used hpid hunit hpat hr), fun hr hall =>
      failsDx_of_raise (exec_progAdd_of_full hpid hunit hpat hr ((freeProg_eq_none_iff s).mpr hall)), fun i hr hi =>
      ⟨_, exec_progAdd_of_free hpid hunit hpat hr ((freeProg_eq_some_iff s i).mpr hi), ?slot, fun j hj => ?slots,
        ?entry, fun q hq => ?entries, fun _ => rfl, fun _ => rfl, fun _ => rfl, rfl, ⟨rfl, rfl, rfl⟩, rfl⟩⟩⟩
  case slot => rw [respond_progAt, State.setMap_progAt, State.progAt_setProg_self]; rfl
  case slots => rw [respond_progAt, State.setMap_progAt, State.progAt_setProg, if_neg hj]
  case entry => rw [respond_mapAt, State.mapAt_setMap_self]
  case entries => rw [respond_mapAt, State.mapAt_setMap, if_neg hq, State.setProg_mapAt]

/-! ### ROLE_SET (R167) -/

theorem roleOk_iff (role : Byte) : roleOk role = true ↔ role = 3 ∨ role = 4 := by simp [roleOk]

/-- Either operand alone, out of its range, makes ROLE_SET ill formed (R89, R91). -/
theorem roleSet_illFormed {pid : Half} {role : Byte} (h : 8192 ≤ pid.toNat ∨ (role ≠ 3 ∧ role ≠ 4)) :
    (pidOk pid && roleOk role) = false := by
  rw [Bool.eq_false_iff, Ne, Bool.and_eq_true_iff, pidOk_iff, roleOk_iff]
  rintro ⟨hpid, hrole⟩
  rcases h with h | ⟨h3, h4⟩
  · exact Nat.not_lt.mpr h hpid
  · exact hrole.elim h3 h4

section RoleSet

variable {pid : Half} {role : Byte} {r : Role} (hpid : pid.toNat < 8192)
  (hr : (role = 3 ∧ r = Role.cat) ∨ (role = 4 ∧ r = Role.emm))

include hr

theorem roleOk_of_role : roleOk role = true := (roleOk_iff role).mpr (hr.imp And.left And.left)

theorem roleOfByte_of_role : roleOfByte role = r := by rcases hr with ⟨rfl, rfl⟩ | ⟨rfl, rfl⟩ <;> rfl

include hpid

theorem exec_roleSet_of_held (hu : (s.mapAt pid.toNat).role ≠ .unknown) (hn : (s.mapAt pid.toNat).role ≠ r) :
    exec (.roleSet pid role) s = .next (raise .dx .invalidParameter s) := by
  simp [exec, execRoleSet, (pidOk_iff pid).mpr hpid, pidOf_toNat hpid, roleOk_of_role hr, roleOfByte_of_role hr, hu, hn]

theorem exec_roleSet_of_unheld (hp : (s.mapAt pid.toNat).role = .unknown ∨ (s.mapAt pid.toNat).role = r) :
    exec (.roleSet pid role) s = .next (respond .dx [] (setRole pid.toNat r s)) := by
  have hheld : ¬ ((s.mapAt pid.toNat).role ≠ .unknown ∧ (s.mapAt pid.toNat).role ≠ r) := by tauto
  simp only [exec, execRoleSet, (pidOk_iff pid).mpr hpid, pidOf_toNat hpid, roleOk_of_role hr, roleOfByte_of_role hr,
    Bool.and_self, if_true, if_neg hheld]
  rfl

end RoleSet

/-- Settles O31: the role moves to the PID from every other one. -/
theorem roleSet : Obligations.RoleSet := by
  refine fun pid role s hc => ⟨rfl, fun h => failsDx_of_illFormed (roleSet_illFormed h) rfl, fun r hpid hr =>
    ⟨fun hu hn => failsDx_of_raise (exec_roleSet_of_held hpid hr hu hn), fun hp => ?_⟩⟩
  have hrole : r ≠ .unknown := by rcases hr with ⟨-, rfl⟩ | ⟨-, rfl⟩ <;> decide
  have hmap := mapAt_setRole (p := pid.toNat) hc.mapRising hrole
  refine ⟨_, exec_roleSet_of_unheld hpid hr hp, ?entry, fun q hq => ?entries, fun _ => rfl, fun _ => rfl, fun _ => rfl,
    fun _ => rfl, rfl, ⟨rfl, rfl, rfl⟩, rfl⟩
  case entry => exact (hmap _).trans (if_pos rfl)
  case entries => exact (hmap q).trans (if_neg hq)

/-! ### PMT_BEGIN (R169) -/

section PmtBegin

variable {p : Byte} {pcr : Half}

theorem exec_pmtBegin_of_illegal (h : ¬ ProgAt s p.toNat ∨ 8192 ≤ pcr.toNat) :
    exec (.pmtBegin p pcr) s = .next (raise .dx .invalidParameter s) := by
  refine if_neg fun hok => ?_
  rw [Bool.and_eq_true_iff, progValid_iff, pidOk_iff] at hok
  obtain ⟨hp, hpcr⟩ := hok
  exact h.elim (absurd hp) (Nat.not_le.mpr hpcr)

variable (hp : ProgAt s p.toNat) (hpcr : pcr.toNat < 8192)

include hp hpcr

theorem exec_pmtBegin_of_open (ho : (s.progAt p.toNat).old ≠ []) :
    exec (.pmtBegin p pcr) s = .next (raise .dx .badSequence s) :=
  (if_pos (Bool.and_eq_true_iff.mpr ⟨(progValid_iff ..).mpr hp, (pidOk_iff pcr).mpr hpcr⟩)).trans (if_pos ho)

theorem exec_pmtBegin_of_closed (ho : (s.progAt p.toNat).old = []) :
    exec (.pmtBegin p pcr) s = .next (respond .dx [] (s.setProg p.toNat { s.progAt p.toNat with
      old := (s.progAt p.toNat).streams, streams := [], pcrPid := pcr.setWidth 13 })) := by
  rw [← pidOf_eq_setWidth]
  exact (if_pos (Bool.and_eq_true_iff.mpr ⟨(progValid_iff ..).mpr hp, (pidOk_iff pcr).mpr hpcr⟩)).trans
    (if_neg (not_not.mpr ho))

end PmtBegin

/-- Settles O32: the program's slot is the only thing written. -/
theorem pmtBegin : Obligations.PmtBegin := by
  refine fun p pcr s => ⟨rfl, fun h => failsDx_of_raise (exec_pmtBegin_of_illegal h),
    fun hp hpcr ho => failsDx_of_raise (exec_pmtBegin_of_open hp hpcr ho), fun hp hpcr ho =>
    ⟨_, exec_pmtBegin_of_closed hp hpcr ho, ?slot, fun j hj => ?slots, fun _ => rfl, fun _ => rfl, fun _ => rfl,
      fun _ => rfl, rfl, ⟨rfl, rfl, rfl⟩, rfl⟩⟩
  case slot => rw [respond_progAt, State.progAt_setProg_self]
  case slots => rw [respond_progAt, State.progAt_setProg, if_neg hj]

/-! ### DEC_OPEN (R170) -/

section DecOpen

variable {pid : Half} (hpid : pid.toNat < 8192)

include hpid

theorem exec_decOpen_of_found {d : Nat} (hd : decOfEcm s (pidOf pid) = some d) :
    exec (.decOpen pid) s = .next (respond .dx [slotByte d, 0] s) := by
  simp [exec, execDecOpen, (pidOk_iff pid).mpr hpid, hd]

variable (hnone : decOfEcm s (pidOf pid) = none)

include hnone

theorem exec_decOpen_of_used (hr : (s.mapAt pid.toNat).role ≠ .unknown) :
    exec (.decOpen pid) s = .next (raise .dx .invalidParameter s) := by
  simp [exec, execDecOpen, (pidOk_iff pid).mpr hpid, pidOf_toNat hpid, hnone, hr]

theorem exec_decOpen_of_full (hr : (s.mapAt pid.toNat).role = .unknown) (hf : freeDec s = none) :
    exec (.decOpen pid) s = .next (raise .dx .outOfResources s) := by
  simp [exec, execDecOpen, (pidOk_iff pid).mpr hpid, pidOf_toNat hpid, hnone, hr, hf]

theorem exec_decOpen_of_free {d : Nat} (hr : (s.mapAt pid.toNat).role = .unknown) (hf : freeDec s = some d) :
    exec (.decOpen pid) s = .next (respond .dx [slotByte d, 1]
      (((s.setDec d (newDec (pid.setWidth 13))).setCtx d { Context.reset with round := s.pipe.cfg.round }).setMap
        pid.toNat { s.mapAt pid.toNat with role := .ecm, ref := 1, link := .dec d })) := by
  rw [← pidOf_eq_setWidth]
  simp [exec, execDecOpen, (pidOk_iff pid).mpr hpid, pidOf_toNat hpid, hnone, hr, hf, newDec]

end DecOpen

/-- Settles O33: a decryptor found is only answered, a new one gets a slot, a context and an entry. -/
theorem decOpen : Obligations.DecOpen := by
  refine fun pid s => ⟨rfl, fun hbad => failsDx_of_illFormed (pidOk_eq_false hbad) rfl, fun hpid => ?_⟩
  rw [← pidOf_toNat hpid]
  refine ⟨fun d hd hp hlow => exec_decOpen_of_found hpid (decOfEcm_eq_some hd hp hlow), fun hno => ?_⟩
  have hnone := decOfEcm_eq_none hno
  rw [pidOf_toNat hpid]
  refine ⟨fun hr => failsDx_of_raise (exec_decOpen_of_used hpid hnone hr), fun hr hall =>
    failsDx_of_raise (exec_decOpen_of_full hpid hnone hr ((freeDec_eq_none_iff s).mpr hall)), fun d hr hd =>
    ⟨_, exec_decOpen_of_free hpid hnone hr ((freeDec_eq_some_iff s d).mpr hd), ?slot, fun j hj => ?slots, ?context,
      fun c hc => ?contexts, ?entry, fun q hq => ?entries, fun _ => rfl, fun _ => rfl, rfl, ⟨rfl, rfl, rfl⟩, rfl⟩⟩
  case slot => rw [respond_decAt, State.setMap_decAt, State.setCtx_decAt, State.decAt_setDec_self]; rfl
  case slots => rw [respond_decAt, State.setMap_decAt, State.setCtx_decAt, State.decAt_setDec, if_neg hj]
  case context => rw [respond_ctx, State.setMap_ctx, State.ctx_setCtx_self]
  case contexts => rw [respond_ctx, State.setMap_ctx, State.ctx_setCtx, if_neg hc, State.setDec_ctx]
  case entry => rw [respond_mapAt, State.mapAt_setMap_self]
  case entries => rw [respond_mapAt, State.mapAt_setMap, if_neg hq, State.setCtx_mapAt, State.setDec_mapAt]

end Sys2Proof.Safety
end

section
/-! STRM_BIND (spec/44_demux_tables.md R171 to R173): the selector, what `bind` makes of the PID and of the decryptors,
and the command. -/

namespace Sys2Proof.Safety

open Sys2Proof.Machine

variable {s : State}

/-! ### The selector (R173) -/

/-- The sole valid decryptor is the only element of the list of valid ones. -/
theorem validDecs_eq_singleton_iff (s : State) (x : Nat) : validDecs s = [x] ↔ SoleDec s x := by
  have hnodup : (validDecs s).Nodup := List.nodup_range.filter _
  have hmem (y : Nat) : y ∈ validDecs s ↔ DecAt s y := (mem_validDecs s y).trans (decValid_iff s y)
  rw [← List.perm_singleton, List.perm_ext_iff_of_nodup hnodup (List.nodup_singleton x)]
  simp only [hmem, List.mem_singleton]
  exact ⟨fun h => ⟨(h x).mpr rfl, fun y => (h y).mp⟩, fun ⟨hx, hone⟩ y => ⟨hone y, fun hy => hy ▸ hx⟩⟩

theorem selectDec_of_selects {d : Byte} {l : Link} (h : Selects s d l) : selectDec s d = some l := by
  rcases h with ⟨hd, rfl⟩ | ⟨hd, hnone, rfl⟩ | ⟨hd, hsole, hl⟩
  · exact if_pos ((decValid_iff ..).mpr hd)
  · exact (if_neg (mt (decValid_iff ..).mp hd)).trans (if_pos hnone)
  · have hne : d ≠ 0xFF := by rw [hsole]; decide
    rw [selectDec, if_neg (mt (decValid_iff ..).mp hd), if_neg hne, if_pos hsole]
    rcases hl with ⟨x, hx, rfl⟩ | ⟨hno, rfl⟩
    · rw [(validDecs_eq_singleton_iff s x).mpr hx]
    · split
      · next x hx => exact absurd ((validDecs_eq_singleton_iff s x).mp hx) (hno x)
      · rfl

theorem selects_of_selectDec {d : Byte} {l : Link} (h : selectDec s d = some l) : Selects s d l := by
  unfold selectDec at h
  split at h
  · next hv => exact .inl ⟨(decValid_iff ..).mp hv, (Option.some.inj h).symm⟩
  · next hv =>
    have hd := mt (decValid_iff ..).mpr hv
    split at h
    · next hnone => exact .inr (.inl ⟨hd, hnone, (Option.some.inj h).symm⟩)
    · split at h
      · next hsole =>
        refine .inr (.inr ⟨hd, hsole, ?_⟩)
        simp only [← validDecs_eq_singleton_iff]
        split at h
        · next x hx => exact .inl ⟨x, hx, (Option.some.inj h).symm⟩
        · next hno => exact .inr ⟨hno, (Option.some.inj h).symm⟩
      · cases h

theorem selectDec_eq_none {d : Byte} (h : ∀ l, ¬ Selects s d l) : selectDec s d = none :=
  Option.eq_none_iff_forall_ne_some.mpr fun l hl => h l (selects_of_selectDec hl)

/-! ### Binding (R172) -/

theorem controlRole_iff (r : Role) : controlRole r = true ↔ r ≠ .unknown ∧ r ≠ .other := by cases r <;> decide

theorem controlRole_eq_false {r : Role} (h : r = .unknown ∨ r = .other) : controlRole r = false := by
  rcases h with rfl | rfl <;> rfl

section Bind

variable {p : Nat} (l : Link)

/-- The three cases of `bind`: a new stream, one that keeps its link, and one whose link moves (R172). -/
theorem bindPid_of_unknown (hr : (s.mapAt p).role = .unknown) :
    bindPid p l s = incDecRef l (s.setMap p { s.mapAt p with role := .other, link := l, ref := 1 }) := by
  simp only [bindPid, hr]

theorem bindPid_of_same (hr : (s.mapAt p).role = .other) (hl : (s.mapAt p).link = l) :
    bindPid p l s = s.setMap p { s.mapAt p with ref := (s.mapAt p).ref + 1 } := by
  simp only [bindPid, hr, if_pos hl]

theorem bindPid_of_moved (hr : (s.mapAt p).role = .other) (hl : (s.mapAt p).link ≠ l) :
    bindPid p l s = incDecRef l (decDecRef (s.mapAt p).link
      (s.setMap p { s.mapAt p with link := l, ref := (s.mapAt p).ref + 1 })) := by
  simp only [bindPid, hr, if_neg hl]

variable (hr : (s.mapAt p).role = .unknown ∨ (s.mapAt p).role = .other)

include hr

theorem mapAt_bindPid : (bindPid p l s).mapAt p =
    { s.mapAt p with
      role := .other, link := l, ref := if (s.mapAt p).role = .unknown then 1 else (s.mapAt p).ref + 1 } := by
  rcases hr with hr | hr
  · rw [bindPid_of_unknown l hr, incDecRef_mapAt, State.mapAt_setMap_self, if_pos hr]
  · by_cases hl : (s.mapAt p).link = l
    · rw [bindPid_of_same l hr hl, State.mapAt_setMap_self, if_neg (by simp [hr]), ← hr, ← hl]
    · rw [bindPid_of_moved l hr hl, incDecRef_mapAt, decDecRef_mapAt, State.mapAt_setMap_self,
        if_neg (by simp [hr]), ← hr]

theorem decAt_bindPid (x : Nat) : (bindPid p l s).decAt x =
    { s.decAt x with
      ref := (s.decAt x).ref - (if (s.mapAt p).role = .other ∧ (s.mapAt p).link = .dec x ∧ l ≠ .dec x then 1 else 0) +
        (if l = .dec x ∧ ((s.mapAt p).role = .unknown ∨ (s.mapAt p).link ≠ .dec x) then 1 else 0) } := by
  rcases hr with hr | hr
  · rw [bindPid_of_unknown l hr, decAt_incDecRef, State.setMap_decAt]
    by_cases hx : l = .dec x <;> simp [hr, hx]
  · by_cases hl : (s.mapAt p).link = l
    · rw [bindPid_of_same l hr hl, State.setMap_decAt, hl]
      by_cases hx : l = .dec x <;> simp [hr, hx]
    · rw [bindPid_of_moved l hr hl, decAt_incDecRef, decAt_decDecRef, State.setMap_decAt]
      by_cases hx : l = .dec x
      · have hold : (s.mapAt p).link ≠ .dec x := fun he => hl (he.trans hx.symm)
        simp [hr, hx, hold]
      · by_cases hold : (s.mapAt p).link = .dec x <;> simp [hr, hx, hold]

end Bind

/-- A decryptor that an elementary stream links is counted a reference for it (R162 (c)). -/
theorem one_le_ref_of_link (h : TopologyOk s) {p x : Nat} (hr : (s.mapAt p).role = .other)
    (hl : (s.mapAt p).link = .dec x) : 1 ≤ (s.decAt x).ref := by
  have hv := ((decValid_iff s x).mp (((entryOk_iff ..).mp (h.entry p)).decValid_of_link hl)).2
  have hlisted : (p, s.mapAt p) ∈ s.map := by
    refine Table.find_mem ?_
    cases hf : Table.find s.map p with
    | none =>
      rw [State.mapAt, Table.get, hf] at hr
      cases hr
    | some e => rw [State.mapAt, Table.get, hf]; rfl
  rw [h.decRef x hv]
  exact List.countP_pos_iff.mpr ⟨_, hlisted, decide_eq_true ⟨hr, hl⟩⟩

/-! ### The command -/

section StrmBind

variable {p : Byte} {pid : Half} {type d : Byte} {l : Link}

theorem exec_strmBind_of_illegal (h : ¬ ProgAt s p.toNat ∨ 8192 ≤ pid.toNat ∨ ∀ l, ¬ Selects s d l) :
    exec (.strmBind p pid type d) s = .next (raise .dx .invalidParameter s) := by
  rcases h with hp | hpid | hd
  · exact if_neg fun hok => hp ((progValid_iff ..).mp (Bool.and_eq_true_iff.mp hok).1)
  · exact if_neg fun hok => Nat.not_lt.mpr hpid ((pidOk_iff pid).mp (Bool.and_eq_true_iff.mp hok).2)
  · simp only [exec, execStrmBind, selectDec_eq_none hd, ite_self]

variable (hp : ProgAt s p.toNat) (hpid : pid.toNat < 8192) (hl : Selects s d l)

include hp hpid hl

theorem exec_strmBind_of_control (hr : (s.mapAt pid.toNat).role ≠ .unknown) (hr' : (s.mapAt pid.toNat).role ≠ .other) :
    exec (.strmBind p pid type d) s = .next (respond .dx [0xFD] s) := by
  simp [exec, execStrmBind, (progValid_iff ..).mpr hp, (pidOk_iff pid).mpr hpid, pidOf_toNat hpid,
    selectDec_of_selects hl, (controlRole_iff _).mpr ⟨hr, hr'⟩]

variable (hr : (s.mapAt pid.toNat).role = .unknown ∨ (s.mapAt pid.toNat).role = .other)

include hr

theorem exec_strmBind_of_full (hfull : (s.progAt p.toNat).streams.length = s.par.nStrm) :
    exec (.strmBind p pid type d) s = .next (raise .dx .outOfResources s) := by
  simp [exec, execStrmBind, (progValid_iff ..).mpr hp, (pidOk_iff pid).mpr hpid, pidOf_toNat hpid,
    selectDec_of_selects hl, controlRole_eq_false hr, hfull]

theorem exec_strmBind_of_room (hroom : (s.progAt p.toNat).streams.length < s.par.nStrm) :
    exec (.strmBind p pid type d) s =
      .next (respond .dx [bindSelector l] ((bindPid pid.toNat l s).setProg p.toNat
        { s.progAt p.toNat with streams := (s.progAt p.toNat).streams ++ [⟨pid.setWidth 13, type⟩] })) := by
  rw [← pidOf_eq_setWidth]
  simp [exec, execStrmBind, (progValid_iff ..).mpr hp, (pidOk_iff pid).mpr hpid, pidOf_toNat hpid,
    selectDec_of_selects hl, controlRole_eq_false hr, Nat.not_le.mpr hroom]

end StrmBind

/-- A binding and a list element, then a normal end: what neither touches (R171). -/
theorem respond_bindPid_frame {t : State} {k i : Nat} {l : Link} {g : ProgSlot} {fields : List Byte}
    (ht : t = respond .dx fields ((bindPid k l s).setProg i g)) :
    t.progAt i = g ∧ SameProgsBut i s t ∧ SameMapBut k s t ∧ SameContexts s t ∧ SameMemory s t ∧ t.pipe = s.pipe ∧
      SameRest s t ∧ Answers (0x00 :: phaseCode s.pipe.phase :: fields) s t := by
  subst ht
  refine ⟨?slot, fun j hj => ?slots, fun q hq => ?entries, ?_⟩
  case slot => rw [respond_progAt, State.progAt_setProg_self]
  case slots =>
    rw [respond_progAt, State.progAt_setProg, if_neg hj, bindPid_only]
    rfl
  case entries => rw [respond_mapAt, State.setProg_mapAt, bindPid_mapAt_ne _ _ _ hq]
  rw [bindPid_only]
  exact ⟨fun _ => rfl, fun _ => rfl, rfl, ⟨rfl, rfl, rfl⟩, rfl⟩

/-- Settles O34: the selector, the role and the room are tested in this order; then `bind` and the list element. -/
theorem strmBind : Obligations.StrmBind := by
  refine fun p pid type d s => ⟨rfl, fun h => failsDx_of_raise (exec_strmBind_of_illegal h), ?_⟩
  rintro l e hp hpid hl rfl
  refine ⟨fun hr hr' => exec_strmBind_of_control hp hpid hl hr hr',
    fun hr hfull => failsDx_of_raise (exec_strmBind_of_full hp hpid hl hr hfull), fun hr hroom => ?_⟩
  obtain ⟨hslot, hslots, hentries, hctx, hmem, hpipe, hrest, hrsp⟩ := respond_bindPid_frame (s := s) (k := pid.toNat)
    (i := p.toNat) (l := l) (fields := [bindSelector l])
    (g := { s.progAt p.toNat with streams := (s.progAt p.toNat).streams ++ [⟨pid.setWidth 13, type⟩] }) rfl
  refine ⟨_, exec_strmBind_of_room hp hpid hl hr hroom, hslot, hslots, ?entry, hentries, fun x => ?decs,
    fun h x hother hlink _ => ?held, hctx, hmem, hpipe, hrest, fun x hx => ?bound, fun hx => ?unbound⟩
  case entry => rw [respond_mapAt, State.setProg_mapAt, mapAt_bindPid l hr]
  case decs => rw [respond_decAt, State.setProg_decAt, decAt_bindPid l hr]
  case held => exact one_le_ref_of_link h hother hlink
  case bound =>
    subst hx
    exact hrsp
  case unbound =>
    subst hx
    exact hrsp

end Sys2Proof.Safety
end

section
/-! Key delivery: ECM_BEGIN, ECM_DONE and EMM_OK (spec/44_demux_tables.md R178, R179, R181). -/

namespace Sys2Proof.Safety

open Sys2Proof.Machine

variable {s t : State} {d : Byte}

/-- A write of one decryptor slot, then `advance()` and a normal end (R178, R179). -/
theorem respond_advance_setDec_frame {k : Nat} {x : DecSlot} {fields : List Byte}
    (ht : t = respond .dx fields (advance (s.setDec k x))) :
    t.decAt k = x ∧ SameDecsBut k s t ∧ SameMap s t ∧ SameProgs s t ∧ SameContexts s t ∧ Advanced s t ∧ SameMemory s t ∧
      SameRest s t ∧ Answers (0x00 :: phaseCode t.pipe.phase :: fields) s t := by
  obtain ⟨hadv, hctx, ⟨hmap, hprog, hdec⟩, hmem, hrest, hrsp⟩ := respond_advance_frame ht
  refine ⟨?slot, fun j hj => ?others, hmap, hprog, hctx, hadv.of_pipe rfl, hmem, hrest, hrsp⟩
  case slot => rw [hdec, State.decAt_setDec_self]
  case others => rw [hdec, State.decAt_setDec, if_neg hj]

/-! ### ECM_BEGIN -/

theorem exec_ecmBegin_of_invalid (hd : ¬ DecAt s d.toNat) :
    exec (.ecmBegin d) s = .next (raise .dx .invalidParameter s) := if_neg (mt (decValid_iff ..).mp hd)

theorem exec_ecmBegin_of_unlocked (hd : DecAt s d.toNat) (hl : (s.decAt d.toNat).locked = false) :
    exec (.ecmBegin d) s = .next (respond .dx [0] s) :=
  (if_pos ((decValid_iff ..).mpr hd)).trans (if_neg (Bool.eq_false_iff.mp hl))

theorem exec_ecmBegin_of_locked (hd : DecAt s d.toNat) (hl : (s.decAt d.toNat).locked = true) :
    exec (.ecmBegin d) s = .next (respond .dx [1] (advance (s.setDec d.toNat { s.decAt d.toNat with
      unpurchased := (s.decAt d.toNat).unpurchased + 1, phase := settleBump (s.decAt d.toNat).phase }))) :=
  (if_pos ((decValid_iff ..).mpr hd)).trans (if_pos hl)

/-- Settles O36: an unlocked decryptor is only answered, a locked one written and the phase machine run. -/
theorem ecmBegin : Obligations.EcmBegin := fun _ _ =>
  ⟨rfl, fun hd => failsDx_of_raise (exec_ecmBegin_of_invalid hd), fun hd hl => exec_ecmBegin_of_unlocked hd hl,
    fun hd hl => ⟨_, _, exec_ecmBegin_of_locked hd hl, settleCode_settleBump _, respond_advance_setDec_frame rfl⟩⟩

/-! ### ECM_DONE -/

section EcmDone

variable {fail : Byte} {rc : Half} {key : Bytes16}

theorem exec_ecmDone_of_illegal (h : ¬ DecAt s d.toNat ∨ 1 < fail.toNat) :
    exec (.ecmDone d fail rc key) s = .next (raise .dx .invalidParameter s) := by
  refine if_neg fun hok => ?_
  rw [Bool.and_eq_true_iff, decValid_iff, failOk_iff] at hok
  obtain ⟨hd, hf⟩ := hok
  rcases h with h | h
  · exact h hd
  · rcases hf with rfl | rfl <;> exact absurd h (by decide)

variable (hd : DecAt s d.toNat)

include hd

/-- The failure changes the state as CLEAR_DATA_KEY does, and answers with an error (R200). -/
theorem exec_ecmDone_of_failure :
    exec (.ecmDone d 1 rc key) s =
      .next (raise .dx .ecmProcFailure (s.setCtx d.toNat (clearDataKey (s.ctx d.toNat)))) :=
  (if_pos (Bool.and_eq_true_iff.mpr ⟨(decValid_iff ..).mpr hd, rfl⟩)).trans (if_pos rfl)

theorem exec_ecmDone_of_purchased (hrc : rc ∈ s.par.purchasedSet) :
    exec (.ecmDone d 0 rc key) s =
      .next (respond .dx [0] (advance ((s.setCtx d.toNat (loadDataKey (s.ctx d.toNat) key)).setDec d.toNat
        { s.decAt d.toNat with locked := false, phase := settleBump (s.decAt d.toNat).phase }))) :=
  (if_pos (Bool.and_eq_true_iff.mpr ⟨(decValid_iff ..).mpr hd, rfl⟩)).trans
    ((if_neg (by decide)).trans (if_pos hrc))

theorem exec_ecmDone_of_unpurchased (hrc : rc ∉ s.par.purchasedSet) :
    exec (.ecmDone d 0 rc key) s =
      .next (respond .dx [1] (advance ((s.setCtx d.toNat (clearDataKey (s.ctx d.toNat))).setDec d.toNat
        { s.decAt d.toNat with
          locked := true, unpurchased := (s.decAt d.toNat).unpurchased + 1, lastErr := rc
          phase := settleBump (s.decAt d.toNat).phase }))) :=
  (if_pos (Bool.and_eq_true_iff.mpr ⟨(decValid_iff ..).mpr hd, rfl⟩)).trans
    ((if_neg (by decide)).trans (if_neg hrc))

end EcmDone

/-- ECM_DONE after its write of the context: the contexts are those that the key command leaves, which answers on its own,
and the rest follows from the write of the decryptor (R179). -/
theorem ecmDone_frame {k : Nat} {x : Context} {y : DecSlot} {fields : List Byte} {u : State}
    (ht : t = respond .dx fields (advance ((s.setCtx k x).setDec k y))) (hu : u = respond .ce [] (s.setCtx k x)) :
    (∀ c, t.ctx c = u.ctx c) ∧ t.decAt k = y ∧ SameDecsBut k s t ∧ SameMap s t ∧ SameProgs s t ∧ Advanced s t ∧
      SameMemory s t ∧ SameRest s t ∧ Answers (0x00 :: phaseCode t.pipe.phase :: fields) s t := by
  obtain ⟨hslot, hothers, hmap, hprog, hctx, hadv, hmem, hrest, hrsp⟩ := respond_advance_setDec_frame ht
  refine ⟨fun c => ?contexts, hslot, hothers, hmap, hprog, hadv.of_pipe rfl, hmem, hrest, hrsp⟩
  case contexts => rw [hctx, hu, respond_ctx]

/-- Settles O37: each outcome writes the context as the key command of R179 does. -/
theorem ecmDone : Obligations.EcmDone := by
  refine fun d fail rc key s => ⟨rfl, fun h => failsDx_of_raise (exec_ecmDone_of_illegal h), ?failure, ?purchased,
    ?unpurchased⟩
  case failure =>
    rintro hd rfl
    exact ⟨_, exec_ecmDone_of_failure hd, exec_clearDataKey hd.1, rfl⟩
  case purchased =>
    rintro hd rfl hrc
    obtain ⟨hctx, hframe⟩ := ecmDone_frame rfl rfl
    exact ⟨_, _, _, exec_ecmDone_of_purchased hd hrc, exec_setDataKey hd.1 key, hctx, settleCode_settleBump _, hframe⟩
  case unpurchased =>
    rintro hd rfl hrc
    obtain ⟨hctx, hframe⟩ := ecmDone_frame rfl rfl
    exact ⟨_, _, _, exec_ecmDone_of_unpurchased hd hrc, exec_clearDataKey hd.1, hctx, settleCode_settleBump _, hframe⟩

/-! ### EMM_OK -/

theorem exec_emmOk_of_disabled (h : s.pipe.cfg.emmEn = false) :
    exec .emmOk s = .next (raise .dx .badSequence s) := if_neg (Bool.eq_false_iff.mp h)

theorem exec_emmOk_of_enabled (h : s.pipe.cfg.emmEn = true) :
    exec .emmOk s = .next (respond .dx [] (unlockDecs s)) := if_pos h

/-- Settles O38: the table of decryptors is rewritten slot by slot. -/
theorem emmOk : Obligations.EmmOk :=
  ⟨rfl, fun _ hc => ⟨fun h => failsDx_of_raise (exec_emmOk_of_disabled h), fun h =>
    ⟨_, exec_emmOk_of_enabled h, decAt_unlockDecs hc.decRising, fun _ => rfl, fun _ => rfl, fun _ => rfl, fun _ => rfl,
      rfl, ⟨rfl, rfl, rfl⟩, rfl⟩⟩⟩

end Sys2Proof.Safety
end

section
/-! The status a command answers, and what it changed when the status is an error (spec/60_exceptions.md R190, R201, R202):
both read off the ends of every command. -/

namespace Sys2Proof.Machine

open Sys2Proof.Safety

/-! ### The first byte of a response -/

/-- An error status changes the response port alone (R201). -/
theorem raise_only (u : Port) (e : Status) (s : State) : raise u e s = { s with rsp := (raise u e s).rsp } := by
  cases u <;> rfl

theorem raise_answers (u : Port) (e : Status) (s : State) : ∃ r, (raise u e s).rsp = s.rsp ++ statusCode e :: r := by
  cases u <;> exact ⟨_, rfl⟩

theorem respond_answers (u : Port) (fields : List Byte) (s : State) :
    ∃ r, (respond u fields s).rsp = s.rsp ++ statusCode .ok :: r := by
  cases u <;> exact ⟨_, rfl⟩

/-- The bytes on the response port before a command fix where its status stands. -/
theorem status_unique {before rsp r r' : List Byte} {st st' : Byte} (h : rsp = before ++ st :: r)
    (h' : rsp = before ++ st' :: r') : st = st' :=
  (List.cons.inj (List.append_cancel_left (h.symm.trans h'))).1

/-! ### The statuses of R190 -/

/-- R190 names no command for the three host-side codes (R202). -/
theorem not_hostSide_of_mem_returns (ph : Phase) (i : Instr) :
    ∀ st ∈ returns ph i, st ≠ .notATransportStream ∧ st ≠ .emptyCardHandle ∧ st ≠ .invalidPid := by
  cases i with
  | dmxPacket addr => cases ph <;> simp [returns]
  | _ => simp [returns]

/-- Every command answers a status that R190 gives it. -/
theorem exec_answers_listed {i : Instr} {s t : State} (h : exec i s = .next t) :
    ∃ st r, t.rsp = s.rsp ++ statusCode st :: r ∧ st ∈ returns s.pipe.phase i := by
  have hends : Ends i s (.next t) := h ▸ exec_ends s i
  cases hends with
  | error e listed _ =>
    obtain ⟨r, hr⟩ := raise_answers (portOf i) e s
    exact ⟨e, r, hr, listed⟩
  | normal fields v sameRsp listed _ =>
    obtain ⟨r, hr⟩ := respond_answers (portOf i) fields v
    exact ⟨.ok, r, sameRsp ▸ hr, listed⟩
  | ecmFailure d rc key command _ =>
    obtain ⟨r, hr⟩ := raise_answers .dx .ecmProcFailure (s.setCtx d.toNat (clearDataKey (s.ctx d.toNat)))
    exact ⟨.ecmProcFailure, r, hr, by simp [command, returns]⟩

/-- Settles O10: the status is one of R190's list, and no such list holds a host-side code. -/
theorem statusesOfEachCommand : Obligations.StatusesOfEachCommand := by
  intro i s t h
  obtain ⟨st, r, hrsp, listed⟩ := exec_answers_listed h
  exact ⟨st, r, hrsp, listed, not_hostSide_of_mem_returns _ _ st listed⟩

/-! ### What an error leaves unchanged -/

/-- Settles O9: of the three ends of a command the first is the rule, the second answers OK, and the third is the exception. -/
theorem errorHasNoEffect : Obligations.ErrorHasNoEffect := by
  intro i s t st r h hrsp hst
  have hends : Ends i s (.next t) := h ▸ exec_ends s i
  cases hends with
  | error e _ _ => exact .inl (raise_only ..)
  | normal fields v sameRsp _ _ =>
    obtain ⟨r', hok⟩ := respond_answers (portOf i) fields v
    exact absurd (status_unique hrsp (sameRsp ▸ hok)) hst
  | ecmFailure d rc key command valid =>
    obtain ⟨r', hfail⟩ := raise_answers .dx .ecmProcFailure (s.setCtx d.toNat (clearDataKey (s.ctx d.toNat)))
    exact .inr ⟨d, rc, key, command, status_unique hrsp hfail, (decValid_iff ..).mp valid, raise_only ..⟩

end Sys2Proof.Machine
end
